-- ==== Sys2Proof/Word.lean ====
section
/-! DEFINITION. The storage words of the block (00_scope R9): unsigned 8-bit levels, 32-bit registers and table entries, and
the 64-bit pair that holds the gamma exponent. -/

namespace Sys2Proof

/-- A plane byte or a level, `u8` (R9). -/
abbrev Byte := BitVec 8

/-- A register, a command word or a `u32` table entry (R9). -/
abbrev Word := BitVec 32

/-- The pair `GAMMA_HI ++ GAMMA_LO` (R28). -/
abbrev DWord := BitVec 64

end Sys2Proof
end

