-- ==== Sys2Proof/Machine/Arith.lean ====
section
/-! DEFINITION. The arithmetic of 00_scope R13 and R14 and the quantizer of 44_error_diffusion R191. All of it is exact integer
arithmetic (R12). -/

namespace Sys2Proof.Machine

/-- `roundHalfAway(n, d)`: the nearest integer to `n/d`, ties away from zero (R13). -/
def roundHalfAway (n : Int) (d : Nat) : Int :=
  if 0 ≤ n then (2 * n + d) / (2 * d) else -((2 * (-n) + d) / (2 * d))

/-- Saturation to the signed 16-bit range (R14). -/
def sat16 (v : Int) : Int := max (-32768) (min 32767 v)

/-- The two-level quantizer with threshold 128 (R191). -/
def quantize (a : Int) : Byte := if 128 ≤ a then 255#8 else 0#8

/-- The residual `e = a - q` (R192). -/
def residual (a : Int) : Int := a - (quantize a).toNat

/-- `|a - b|` of two running sums (R160). -/
def absDiff (a b : Nat) : Nat := ((a : Int) - (b : Int)).natAbs

end Sys2Proof.Machine
end

