-- ==== Sys2Proof/Config.lean ====
section
/-! DEFINITION. What an implementation fixes (00_scope R8) and the block's one free value (20_memory R69(c)). -/

namespace Sys2Proof

/-- A tap `(dx, dy, weight)` of an error-diffusion kernel (R16, R183); the weight is a numerator. -/
structure Tap where
  dx : Int
  dy : Nat
  w : Nat
deriving DecidableEq, Repr

/-- What an instance's `gammaFn` (R8) gives at the non-integer exponent `num / 2^shift`, in lowest terms: its values at the
levels 0 to 255. -/
structure GammaRow where
  num : Nat
  shift : Nat
  levels : List Nat
deriving DecidableEq, Repr

/-- The implementation parameters of R8, each taken as an argument of the model: the field `params` of State. `gammaFn` is given
by its values at listed non-integer exponents (log 4); at every other exponent it is the correctly rounded power of R181. -/
structure Params where
  maxW : Nat
  maxH : Nat
  maxPix : Nat
  kernel1Taps : List Tap
  gammaRows : List GammaRow
deriving DecidableEq, Repr

/-- The default tap table of method 1 (R185), in the order of the rule's table. -/
def Config.defaultKernel1 : List Tap :=
  [⟨1, 0, 7⟩, ⟨2, 0, 5⟩,
   ⟨-2, 1, 3⟩, ⟨-1, 1, 5⟩, ⟨0, 1, 7⟩, ⟨1, 1, 5⟩, ⟨2, 1, 3⟩,
   ⟨-2, 2, 1⟩, ⟨-1, 2, 3⟩, ⟨0, 2, 5⟩, ⟨1, 2, 3⟩, ⟨2, 2, 1⟩]

/-- DESIGN CHOICE (log 3): the parameters of `State.reset`, the largest that R8 allows, with the default taps of R185 and
the correctly rounded `gammaFn` of R181.
Unsafe: a run from `State.reset` shows this one instance only. Statements about every state hold for every instance. -/
def Config.largest : Params :=
  { maxW := 65535, maxH := 65535, maxPix := 16777216, kernel1Taps := Config.defaultKernel1, gammaRows := [] }

/-- FREE VALUE (log 7): what the host reads from a written table entry or plane byte while `BUSY = 1`, "a draw under no law"
(R69(c)). The n-th draw of a run is `busyDraw n`. -/
opaque Config.busyDraw : Nat → Word

end Sys2Proof
end

