-- ==== Sys2Proof/Syntax.lean ====
section
/-! DEFINITION. The command set of 30_encoding: one constructor per row of spec/opcode_table.json, its one-bit fields as
named alternatives (R82). -/

namespace Sys2Proof

/-- The remainder policy of the rescaler, field `POL` (R82, R126): `LAST` is 0, `LAST_NONZERO` is 1. -/
inductive Policy where
  | last
  | lastNonzero
deriving DecidableEq, Repr

/-- The diffusion method, field `METH` (R82, R183): kernel 0 or kernel 1. -/
inductive Method where
  | m0
  | m1
deriving DecidableEq, Repr

/-- The scan order, field `SERP` (R82, R190): raster is 0, serpentine is 1. -/
inductive Scan where
  | raster
  | serpentine
deriving DecidableEq, Repr

/-- The 13 commands of R83. -/
inductive Instr where
  | nop
  | hist
  | shape
  | rescale (pol : Policy)
  | ivbuild
  | xremap
  | cdflut
  | lutapply
  | gamma
  | diffuse (meth : Method) (serp : Scan)
  | matchx
  | matcha
  | dither (meth : Method) (serp : Scan)
deriving DecidableEq, Repr

end Sys2Proof
end

