-- ==== Sys2Proof/Machine/State.lean ====
section
/-! DEFINITION. The architectural state of the block (10_state), the host's side of the window (60_exceptions R258), and the
state after reset (10_state R44, 70_reset_and_hazards R280). -/

namespace Sys2Proof.Machine

/-- A table of 256 entries (R29). An entry is `none` while its written mark (R30) is false: `none` is the spec's own state of
the entry, not a missing reset value. -/
abbrev Table (w : Nat) := Vector (Option (BitVec w)) 256

/-- Every written mark false (R44). -/
def Table.blank (w : Nat) : Table w := ⟨(List.replicate 256 none).toArray, by rw [List.size_toArray, List.length_replicate]⟩

/-- A plane (R39): the written bytes (R30) as pairs of index and byte, indices strictly rising. An unlisted index reads as no
value, so no listed byte can equal what an unlisted one reads as. -/
abbrev Memory := List Host.Cell

/-- The eight tables of R29. -/
inductive TableId where
  | h1 | shape | tgt | left | right | cnt | lut | glut
deriving DecidableEq, Repr

/-- The three planes of R39. -/
inductive PlaneId where
  | src | dst | ref
deriving DecidableEq, Repr

/-- A place that carries a written mark (R30). -/
inductive Loc where
  | table (t : TableId) (i : Nat)
  | plane (p : PlaneId) (k : Nat)
deriving DecidableEq, Repr

/-- The one model fault. -/
inductive Fault where
  /-- `UNWRITTEN_READ(location)` (R259), raised by a command or by a host read that reads an entry or byte whose written mark
  is false. Safe: the hardware goes on with some value, the model stops. -/
  | unwrittenRead (l : Loc)
deriving DecidableEq, Repr

/-- Reasons for which a step has no meaning. -/
inductive Refusal where
  /-- Raised by `exec` for an instruction without a meaning. No arm of `exec` raises it. Safe. -/
  | notModelled (mnemonic : String)
deriving DecidableEq, Repr

/-- The errors that are reported in `STATUS` (R250 to R253). -/
inductive CmdError where
  | illegal
  | geometry
  | busyWrite
deriving DecidableEq, Repr

/-- The stored bits of `STATUS` (R24): bit 1 `DONE`, bit 2 `ERR_ILL`, bit 3 `ERR_GEOM`, bit 4 `ERR_BUSYWR`. Bit 0 `BUSY` has
its one home in `State.job`; bits 31:5 are not stored (log 16). -/
structure Status where
  done : Bool
  errIll : Bool
  errGeom : Bool
  errBusywr : Bool
deriving DecidableEq, Repr

/-- The geometry latched at submission (R107): `W`, `H`, `L`. -/
structure Geom where
  w : Nat
  h : Nat
  l : Nat
deriving DecidableEq, Repr

/-- The command in progress: the latched word, decoded, and the latched geometry (R41, R107). -/
structure Job where
  cmd : Instr
  geom : Geom
deriving DecidableEq, Repr

/-- The width of a host access (R64). -/
inductive Width where
  | b8 | b16 | b32 | b64
deriving DecidableEq, Repr

/-- A host access (R60, R88). The value of an 8-bit write is its low byte; no 64-bit access is ever carried out (R64). -/
inductive Access where
  | read (width : Width) (offset : Word)
  | write (width : Width) (offset : Word) (value : Word)
deriving DecidableEq, Repr

/-- The kinds of host bus fault (R258). -/
inductive BusKind where
  | align
  | unmapped
deriving DecidableEq, Repr

/-- What an access answers to the host agent: the value read, the completion of a write, or `BusFault(kind, offset)` (R258). -/
inductive Reply where
  | value (v : Word)
  | ack
  | busFault (kind : BusKind) (offset : Word)
deriving DecidableEq, Repr

/-- What happens next to the block: a host access, the engine's turn, or the platform's reset (R7, R280). The order is data of
the state, so every interleaving that R69 and R290 allow is some state (log 1). -/
inductive Event where
  | host (a : Access)
  | engine
  | reset
deriving DecidableEq, Repr

/-- The state. INVENTORY.md lists each field with the rule that names it. -/
structure State where
  /-- R8: the implementation parameters, which no step changes. -/
  params : Params
  /-- R24. -/
  status : Status
  /-- R25. -/
  width : Word
  /-- R26. -/
  height : Word
  /-- R27. -/
  reflen : Word
  /-- R28. -/
  gammaLo : Word
  /-- R28. -/
  gammaHi : Word
  /-- R31. -/
  h1 : Table 32
  /-- R32. -/
  shape : Table 32
  /-- R33. -/
  tgt : Table 32
  /-- R34. -/
  left : Table 8
  /-- R35. -/
  right : Table 8
  /-- R36. -/
  cnt : Table 32
  /-- R37. -/
  lut : Table 8
  /-- R38. -/
  glut : Table 8
  /-- R39. -/
  src : Memory
  /-- R39. -/
  dst : Memory
  /-- R39. -/
  ref : Memory
  /-- R40, R187: the rows of the rolling buffer, slot by slot, padding included. -/
  rb : List (List Int)
  /-- R41, R107: the latched command; `BUSY = 1` exactly while it is present. -/
  job : Option Job
  /-- The model's own: the events to come, in order (log 1). -/
  agenda : List Event
  /-- The model's own: the answers to the host's accesses, newest first (log 12). -/
  replies : List Reply
  /-- The model's own: how many draws have been made (log 7). -/
  draws : Nat
deriving DecidableEq, Repr

/-- The state after reset (R44) of an instance with the given parameters. The reset values of `rb`, `agenda`, `replies` and
`draws` are the model's (logs 11, 1, 12, 7). -/
def State.resetWith (p : Params) : State :=
  { params := p
    status := { done := false, errIll := false, errGeom := false, errBusywr := false }
    width := 0
    height := 0
    reflen := 0
    gammaLo := 0x00000000
    gammaHi := 0x3FF00000
    h1 := Table.blank 32
    shape := Table.blank 32
    tgt := Table.blank 32
    left := Table.blank 8
    right := Table.blank 8
    cnt := Table.blank 32
    lut := Table.blank 8
    glut := Table.blank 8
    src := []
    dst := []
    ref := []
    rb := []
    job := none
    agenda := []
    replies := []
    draws := 0 }

/-- The state after reset, for the parameters of log 3. -/
def State.reset : State := State.resetWith Config.largest

end Sys2Proof.Machine
end

