-- ==== Sys2Proof/Machine/Flags.lean ====
section
/-! DEFINITION. The flags of the block: the `STATUS` bits of 10_state R24, their view as a word, their clearing by the host and
their setting by the errors of 60_exceptions R250. There are no arithmetic flags (R43). -/

namespace Sys2Proof.Machine

/-- `BUSY`: a command is in progress (R24, R44). -/
def busy (s : State) : Bool := s.job.isSome

/-- The value a read of `STATUS` returns (R24): reserved bits 31:5 read 0. -/
def statusWord (s : State) : Word :=
  0#27 ++ BitVec.ofBool s.status.errBusywr ++ BitVec.ofBool s.status.errGeom ++ BitVec.ofBool s.status.errIll ++
    BitVec.ofBool s.status.done ++ BitVec.ofBool (busy s)

/-- A host write of `v` to `STATUS`: each of bits 1 to 4 that is 1 in `v` is cleared, nothing else changes (R24, R256). -/
def clearStatus (v : Word) (s : State) : State :=
  { s with status :=
      { done := s.status.done && !v.getLsbD 1
        errIll := s.status.errIll && !v.getLsbD 2
        errGeom := s.status.errGeom && !v.getLsbD 3
        errBusywr := s.status.errBusywr && !v.getLsbD 4 } }

/-- `DONE <- 0`, at every `CMD` write made while idle (R24, R100). -/
def clearDone (s : State) : State := { s with status := { s.status with done := false } }

/-- `raise E` (R250): the sticky bit of the error is set and nothing else changes. There is no saved state, no handler and no
control transfer; the return from an error is `clearStatus` (R256). -/
def raiseError (e : CmdError) (s : State) : State :=
  match e with
  | .illegal => { s with status := { s.status with errIll := true } }
  | .geometry => { s with status := { s.status with errGeom := true } }
  | .busyWrite => { s with status := { s.status with errBusywr := true } }

end Sys2Proof.Machine
end

