-- ==== Sys2Proof/WellFormed.lean ====
section
/-! DEFINITION. The checks that make a command word legal (30_encoding R80 to R85) and a parameter choice legal (00_scope R8,
44_error_diffusion R181, R185). -/

namespace Sys2Proof

/-- Bits 31:11 of a command word are zero (R80, R85). -/
def reservedZero (w : Word) : Bool := w.extractLsb' 11 21 == 0#21

/-- `OP`, bits 7:0 of a command word (R80). -/
def opField (w : Word) : Byte := w.extractLsb' 0 8

/-- The `OP` value is in the map of R83. -/
def opKnown (op : Byte) : Bool := op.toNat ≤ 0x09 || (0x10 ≤ op.toNat && op.toNat ≤ 0x12)

/-- `OP` uses the field `POL` (R80, R83). -/
def opUsesPol (op : Byte) : Bool := op == 0x03#8

/-- `OP` uses the fields `METH` and `SERP` (R80, R83). -/
def opUsesScan (op : Byte) : Bool := op == 0x09#8 || op == 0x12#8

/-- A field bit that the opcode does not use is zero (R80, R85). -/
def unusedZero (w : Word) : Bool :=
  (opUsesPol (opField w) || !w.getLsbD 8) &&
  (opUsesScan (opField w) || (!w.getLsbD 9 && !w.getLsbD 10))

/-- A legal command word (R85): reserved bits zero, a known opcode, and no unused field bit set. -/
def wordLegal (w : Word) : Bool := reservedZero w && opKnown (opField w) && unusedZero w

/-- Every value of `Instr` is well formed: a command's only operands are one-bit fields, both values of which are legal
(R82). What can be ill formed is a command word, `wordLegal`. -/
def Instr.wf : Instr → Bool
  | .nop => true
  | .hist => true
  | .shape => true
  | .rescale .last => true
  | .rescale .lastNonzero => true
  | .ivbuild => true
  | .xremap => true
  | .cdflut => true
  | .lutapply => true
  | .gamma => true
  | .diffuse .m0 _ => true
  | .diffuse .m1 _ => true
  | .matchx => true
  | .matcha => true
  | .dither .m0 _ => true
  | .dither .m1 _ => true

/-- The sizes of R8 are in range. -/
def Params.sizesOk (p : Params) : Bool :=
  decide (1 ≤ p.maxW ∧ p.maxW ≤ 65535) && decide (1 ≤ p.maxH ∧ p.maxH ≤ 65535) &&
  decide (256 ≤ p.maxPix ∧ p.maxPix ≤ 2 ^ 24)

/-- One tap of method 1 lands on a later pixel within the padding radius, with a positive weight (R185). -/
def Tap.okForKernel1 (t : Tap) : Bool :=
  decide (t.dy ≤ 2) && decide (-2 ≤ t.dx ∧ t.dx ≤ 2) && (t.dy != 0 || decide (0 < t.dx)) && decide (0 < t.w)

/-- The tap table of method 1 has the properties that R185 asks of any replacement. -/
def Params.tapsOk (p : Params) : Bool :=
  p.kernel1Taps.length == 12 && p.kernel1Taps.all Tap.okForKernel1 &&
  decide ((p.kernel1Taps.map fun t => (t.dx, t.dy)).Nodup) && (p.kernel1Taps.map Tap.w).sum == 48

/-- A row of an instance's `gammaFn` is at a non-integer exponent in lowest terms, and obeys the laws L1, L2, L4 and L6 of R181;
L3 and L5 are about integer exponents. -/
def GammaRow.ok (r : GammaRow) : Bool :=
  decide (r.num % 2 = 1 ∧ 0 < r.shift ∧ r.levels.length = 256) &&
  decide (r.levels.getD 0 0 = 0 ∧ r.levels.getD 255 0 = 255) &&
  r.levels.all (· ≤ 255) && decide (r.levels.Pairwise (· ≤ ·))

/-- The instance's `gammaFn` obeys the laws of R181, with one row for an exponent (R8). -/
def Params.gammaOk (p : Params) : Bool :=
  p.gammaRows.all GammaRow.ok && decide ((p.gammaRows.map fun r => (r.num, r.shift)).Nodup)

/-- A legal choice of the parameters (R8). -/
def Params.wf (p : Params) : Bool := p.sizesOk && p.tapsOk && p.gammaOk

end Sys2Proof
end

