-- ==== Sys2Proof/Machine/Ops.lean ====
section
/-! DEFINITION. The named operations: planes and tables with their written marks (10_state R29, R30, R39), and the lifecycle of a
command (40_control R100 to R108) with the errors it can raise (60_exceptions R250 to R254). -/

namespace Sys2Proof.Machine

/-- The canonical form of a plane: indices strictly rising. -/
abbrev Memory.wf (m : Memory) : Prop := (m.map Prod.fst).Pairwise (· < ·)

/-- The byte at an index, `none` if its written mark is false (R30). -/
def Memory.read : Memory → Nat → Option Byte
  | [], _ => none
  | (a, b) :: m, k => if a = k then some b else Memory.read m k

/-- `P[k] <- v` (R10), which sets the written mark (R30). -/
def Memory.write : Memory → Nat → Byte → Memory
  | [], k, v => [(k, v)]
  | (a, b) :: m, k, v =>
    if k < a then (k, v) :: (a, b) :: m
    else if k = a then (k, v) :: m
    else (a, b) :: Memory.write m k v

/-- Entry `i` of a table, `none` if its written mark is false (R30). -/
def Table.get {w : Nat} (t : Table w) (i : Nat) : Option (BitVec w) := t.toList.getD i none

/-- `T[i] <- v` (R10), which sets the written mark (R30). -/
def Table.put {w : Nat} (t : Table w) (i : Nat) (v : BitVec w) : Table w := t.setIfInBounds i (some v)

/-- The table all of whose entries are written, entry `i` with `f i`. -/
def Table.ofFun {w : Nat} (f : Nat → BitVec w) : Table w :=
  ⟨((List.range 256).map fun i => some (f i)).toArray, by rw [List.size_toArray, List.length_map, List.length_range]⟩

/-- The table whose entries are the listed values in order; entries past the end of the list have no value. -/
def Table.ofList {w : Nat} (vs : List (BitVec w)) : Table w :=
  ⟨((vs.map some ++ List.replicate 256 none).take 256).toArray, by
    rw [List.size_toArray, List.length_take, List.length_append, List.length_replicate]; omega⟩

/-- `SRC[k]` and the like as an operand of a command: the fault of R259 if the byte was never written. -/
def readByte (p : PlaneId) (m : Memory) (k : Nat) : Except Fault Byte :=
  match Memory.read m k with
  | some b => .ok b
  | none => .error (.unwrittenRead (.plane p k))

/-- `H1[i]` and the like as an operand of a command: the fault of R259 if the entry was never written. -/
def readEntry {w : Nat} (id : TableId) (t : Table w) (i : Nat) : Except Fault (BitVec w) :=
  match Table.get t i with
  | some v => .ok v
  | none => .error (.unwrittenRead (.table id i))

/-- Entries `i`, `i+1`, ... of a table in rising order, the fault of R259 at the first unwritten one. -/
def readEntriesFrom {w : Nat} (id : TableId) : Nat → List (Option (BitVec w)) → Except Fault (List (BitVec w))
  | _, [] => .ok []
  | i, none :: _ => .error (.unwrittenRead (.table id i))
  | i, some v :: es =>
    match readEntriesFrom id (i + 1) es with
    | .ok vs => .ok (v :: vs)
    | .error f => .error f

/-- All 256 entries of a table, read in rising order. -/
def readTable {w : Nat} (id : TableId) (t : Table w) : Except Fault (List (BitVec w)) := readEntriesFrom id 0 t.toList

/-- The values of `f` over a list, in order, with the first fault met. -/
def collect {α β : Type} (f : α → Except Fault β) : List α → Except Fault (List β)
  | [] => .ok []
  | a :: as =>
    match f a with
    | .error e => .error e
    | .ok b =>
      match collect f as with
      | .ok bs => .ok (b :: bs)
      | .error e => .error e

/-- `for k in 0..n-1` (R11) with the loop variables `st`, ended by the first fault. -/
def forRange {σ : Type} (f : σ → Nat → Except Fault σ) : List Nat → σ → Except Fault σ
  | [], st => .ok st
  | k :: ks, st =>
    match f st k with
    | .ok st' => forRange f ks st'
    | .error e => .error e

/-- `N = W*H`, exact (R107, R252). -/
def Geom.n (g : Geom) : Nat := g.w * g.h

/-- The geometry registers as they stand (R100). -/
def latchGeom (s : State) : Geom := { w := s.width.toNat, h := s.height.toNat, l := s.reflen.toNat }

/-- The mnemonics that need the `GEOM` check (R102). -/
def needsGeom : Instr → Bool
  | .nop => false
  | .hist => true
  | .shape => false
  | .rescale _ => true
  | .ivbuild => false
  | .xremap => true
  | .cdflut => true
  | .lutapply => true
  | .gamma => false
  | .diffuse _ _ => true
  | .matchx => true
  | .matcha => true
  | .dither _ _ => true

/-- The mnemonics that need the `REF` check (R102). -/
def needsRef : Instr → Bool
  | .nop => false
  | .hist => false
  | .shape => true
  | .rescale _ => false
  | .ivbuild => false
  | .xremap => false
  | .cdflut => false
  | .lutapply => false
  | .gamma => false
  | .diffuse _ _ => false
  | .matchx => true
  | .matcha => true
  | .dither _ _ => false

/-- The `GEOM` check of R102. -/
def geomOk (p : Params) (g : Geom) : Bool :=
  decide (g.w ≤ p.maxW) && decide (g.h ≤ p.maxH) && decide (g.n ≤ p.maxPix)

/-- The `REF` check of R102. -/
def refOk (p : Params) (g : Geom) : Bool := decide (g.l ≤ p.maxPix)

/-- `checksOk` of R102. -/
def checksOk (p : Params) (i : Instr) (g : Geom) : Bool :=
  (!needsGeom i || geomOk p g) && (!needsRef i || refOk p g)

/-- The submission of a legal command word up to `STATUS.BUSY <- 1` (R100): `DONE <- 0`, the geometry latched, and either the
error of R252 or the command latched. With a command already in progress there is nothing to submit. -/
def accept (i : Instr) (s : State) : State :=
  match s.job with
  | some _ => s
  | none =>
    if checksOk s.params i (latchGeom s) then
      { clearDone s with job := some { cmd := i, geom := latchGeom s } }
    else raiseError .geometry (clearDone s)

/-- The submission of an illegal word made while idle (R100, R251). -/
def rejectIllegal (s : State) : State := raiseError .illegal (clearDone s)

/-- `STATUS.BUSY <- 0; STATUS.DONE <- 1` (R100). -/
def finish (s : State) : State := { s with job := none, status := { s.status with done := true } }

/-- The end of an accepted command: completion, or the model fault of R259. -/
def conclude (o : Except Fault State) : Host.Outcome State Fault Refusal :=
  match o with
  | .ok t => .next (finish t)
  | .error f => .fault f

/-- What every meaning is: R100 from the decoded word to completion. If the command is not yet latched it is submitted; an
accepted command runs its body on the latched geometry (R107) and completes. -/
def runCommand (i : Instr) (body : Geom → State → Except Fault State) (s : State) : Host.Outcome State Fault Refusal :=
  match (accept i s).job with
  | none => .next (accept i s)
  | some j => conclude (body j.geom (accept i s))

end Sys2Proof.Machine
end

