-- ==== Sys2Proof/Machine/Histogram.lean ====
section
/-! DEFINITION. The histogram builder, the target shape reader and the rescaler (41_histogram R120 to R128). -/

namespace Sys2Proof.Machine

/-- One pixel of `HIST`: `H1[SRC[k]] <- H1[SRC[k]] + 1` (R120). -/
def histPixel (src : Memory) (h1 : Table 32) (k : Nat) : Except Fault (Table 32) :=
  match readByte .src src k with
  | .error e => .error e
  | .ok v =>
    match readEntry .h1 h1 v.toNat with
    | .error e => .error e
    | .ok c => .ok (Table.put h1 v.toNat (c + 1))

/-- The histogram of the first `n` bytes of a plane (R120). -/
def histogram (src : Memory) (n : Nat) : Except Fault (Table 32) :=
  forRange (histPixel src) (List.range n) (Table.ofFun fun _ => 0)

/-- The body of `HIST` (R120). -/
def histBody (g : Geom) (s : State) : Except Fault State :=
  match histogram s.src g.n with
  | .ok t => .ok { s with h1 := t }
  | .error e => .error e

/-- `HIST` (R120). -/
def execHist (s : State) : Host.Outcome State Fault Refusal := runCommand .hist histBody s

/-- Entry `k` of the target shape: the `k`-th sample, or 0 past the end of the reference (R121). -/
def shapeSample (ref : Memory) (l k : Nat) : Except Fault Word :=
  if k < l then
    match readByte .ref ref k with
    | .ok b => .ok (b.setWidth 32)
    | .error e => .error e
  else .ok 0

/-- The body of `SHAPE` (R121). -/
def shapeBody (g : Geom) (s : State) : Except Fault State :=
  match collect (shapeSample s.ref g.l) (List.range 256) with
  | .ok vs => .ok { s with shape := Table.ofList vs }
  | .error e => .error e

/-- `SHAPE` (R121). -/
def execShape (s : State) : Host.Outcome State Fault Refusal := runCommand .shape shapeBody s

/-- The flat path of the rescaler (R124). -/
def rescaleFlat (total : Nat) : List Nat :=
  (List.range 256).map fun k => total / 256 + (if k < total % 256 then 1 else 0)

/-- The scaled value of one bin: `roundHalfAway(shape[k] * total, sum)` (R125). -/
def scaleBin (total sum x : Nat) : Nat := (roundHalfAway ((x * total : Nat) : Int) sum).toNat

/-- The loop of R125 over the remaining shape values, from `acc` and `over`: the bins, and the final `acc`. -/
def rescaleLoop (total sum : Nat) : List Nat → Nat → Bool → List Nat × Nat
  | [], acc, _ => ([], acc)
  | _ :: xs, acc, true => (0 :: (rescaleLoop total sum xs acc true).1, (rescaleLoop total sum xs acc true).2)
  | x :: xs, acc, false =>
    if acc + scaleBin total sum x > total then
      ((total - acc) :: (rescaleLoop total sum xs total true).1, (rescaleLoop total sum xs total true).2)
    else
      (scaleBin total sum x :: (rescaleLoop total sum xs (acc + scaleBin total sum x) false).1,
        (rescaleLoop total sum xs (acc + scaleBin total sum x) false).2)

/-- The largest index from `k` on whose bin is nonzero, or `best` if there is none (R126). -/
def lastNonzeroFrom : List Nat → Nat → Nat → Nat
  | [], _, best => best
  | t :: ts, k, best => lastNonzeroFrom ts (k + 1) (if 0 < t then k else best)

/-- The bin that takes a shortfall (R126). -/
def remainderBin (pol : Policy) (ts : List Nat) : Nat :=
  match pol with
  | .last => 255
  | .lastNonzero => lastNonzeroFrom ts 0 255

/-- The shortfall of R126, added to the remainder bin. -/
def addShortfall (pol : Policy) (total : Nat) (ts : List Nat) (acc : Nat) : List Nat :=
  if acc < total then ts.modify (remainderBin pol ts) (· + (total - acc)) else ts

/-- `rescale(shape, total, pol)` (R122 to R126). -/
def rescale (shape : List Nat) (total : Nat) (pol : Policy) : List Nat :=
  if shape.sum = 0 then rescaleFlat total
  else
    addShortfall pol total (rescaleLoop total shape.sum shape 0 false).1 (rescaleLoop total shape.sum shape 0 false).2

/-- The body of `RESCALE` (R127). -/
def rescaleBody (pol : Policy) (g : Geom) (s : State) : Except Fault State :=
  match readTable .shape s.shape with
  | .ok vs => .ok { s with tgt := Table.ofList ((rescale (vs.map BitVec.toNat) g.n pol).map (BitVec.ofNat 32)) }
  | .error e => .error e

/-- `RESCALE` (R127). -/
def execRescale (pol : Policy) (s : State) : Host.Outcome State Fault Refusal :=
  runCommand (.rescale pol) (rescaleBody pol) s

end Sys2Proof.Machine
end

