-- ==== Sys2Proof/Machine/Exact.lean ====
section
/-! DEFINITION. The exact histogram matcher (42_exact_matcher R140 to R145). -/

namespace Sys2Proof.Machine

/-- The `while` of R140 at pointer `r` with running sum `S`: each test reads `TGT[r]`, and the pointer stops at 255. The
first argument bounds the tests; 256 are always enough. -/
def advanceBin (tgt : Table 32) : Nat → Nat → Nat → Except Fault (Nat × Nat)
  | 0, sum, r => .ok (sum, r)
  | f + 1, sum, r =>
    match readEntry .tgt tgt r with
    | .error e => .error e
    | .ok t => if t.toNat < sum ∧ r < 255 then advanceBin tgt f (sum - t.toNat) (r + 1) else .ok (sum, r)

/-- The `for` of R140 from level `i` on, over the entries of `H1` from there: the pairs `(LEFT[i], RIGHT[i])`. -/
def intervalsFrom (tgt : Table 32) : Nat → List (Option Word) → Nat → Nat → Except Fault (List (Byte × Byte))
  | _, [], _, _ => .ok []
  | i, none :: _, _, _ => .error (.unwrittenRead (.table .h1 i))
  | i, some h :: es, sum, r =>
    match advanceBin tgt 256 (sum + h.toNat) r with
    | .error e => .error e
    | .ok (sum', r') =>
      match intervalsFrom tgt (i + 1) es sum' r' with
      | .error e => .error e
      | .ok ps => .ok ((BitVec.ofNat 8 r, BitVec.ofNat 8 r') :: ps)

/-- The interval table of `H1` and `TGT` (R140). -/
def intervals (h1 tgt : Table 32) : Except Fault (List (Byte × Byte)) := intervalsFrom tgt 0 h1.toList 0 0

/-- The body of `IVBUILD` (R140). -/
def ivbuildBody (_ : Geom) (s : State) : Except Fault State :=
  match intervals s.h1 s.tgt with
  | .ok ps => .ok { s with left := Table.ofList (ps.map Prod.fst), right := Table.ofList (ps.map Prod.snd) }
  | .error e => .error e

/-- `IVBUILD` (R140). -/
def execIvbuild (s : State) : Host.Outcome State Fault Refusal := runCommand .ivbuild ivbuildBody s

/-- What the scan of `XREMAP` changes (R142). -/
structure Remap where
  left : Table 8
  cnt : Table 32
  dst : Memory
deriving DecidableEq, Repr

/-- The bin that a pixel of level `v` with `LEFT[v] = p` is emitted into when bin `p` is full: `min(p + 1, RIGHT[v])` (R142). -/
def nextBin (p right : Byte) : Byte := BitVec.ofNat 8 (min (p.toNat + 1) right.toNat)

/-- `DST[k] <- p; CNT[p] <- CNT[p] + 1` (R142). -/
def emitBin (k : Nat) (p : Byte) (st : Remap) : Except Fault Remap :=
  match readEntry .cnt st.cnt p.toNat with
  | .error e => .error e
  | .ok c => .ok { st with dst := Memory.write st.dst k p, cnt := Table.put st.cnt p.toNat (c + 1) }

/-- The test of R142, `CNT[p] < TGT[p]`. -/
def binOpen (tgt cnt : Table 32) (p : Byte) : Except Fault Bool :=
  match readEntry .cnt cnt p.toNat with
  | .error e => .error e
  | .ok c =>
    match readEntry .tgt tgt p.toNat with
    | .error e => .error e
    | .ok t => .ok (decide (c.toNat < t.toNat))

/-- The branches of R142 for pixel `k` of level `v` in bin `p`. -/
def remapLevel (tgt : Table 32) (right : Table 8) (k : Nat) (v p : Byte) (st : Remap) : Except Fault Remap :=
  match binOpen tgt st.cnt p with
  | .error e => .error e
  | .ok true => emitBin k p st
  | .ok false =>
    match readEntry .right right v.toNat with
    | .error e => .error e
    | .ok q => emitBin k (nextBin p q) { st with left := Table.put st.left v.toNat (nextBin p q) }

/-- One pixel of `XREMAP` (R142). -/
def remapPixel (src : Memory) (tgt : Table 32) (right : Table 8) (st : Remap) (k : Nat) : Except Fault Remap :=
  match readByte .src src k with
  | .error e => .error e
  | .ok v =>
    match readEntry .left st.left v.toNat with
    | .error e => .error e
    | .ok p => remapLevel tgt right k v p st

/-- The scan of `XREMAP` in increasing row-major index (R142, R143). -/
def remap (src : Memory) (tgt : Table 32) (right : Table 8) (n : Nat) (st : Remap) : Except Fault Remap :=
  forRange (remapPixel src tgt right) (List.range n) st

/-- The body of `XREMAP` (R142): the counters start from zero. -/
def xremapBody (g : Geom) (s : State) : Except Fault State :=
  match remap s.src s.tgt s.right g.n { left := s.left, cnt := Table.ofFun fun _ => 0, dst := s.dst } with
  | .ok r => .ok { s with left := r.left, cnt := r.cnt, dst := r.dst }
  | .error e => .error e

/-- `XREMAP` (R142). -/
def execXremap (s : State) : Host.Outcome State Fault Refusal := runCommand .xremap xremapBody s

/-- Two bodies in order, on the same latched geometry (R108). -/
def andThen (a b : Geom → State → Except Fault State) (g : Geom) (s : State) : Except Fault State :=
  match a g s with
  | .ok t => b g t
  | .error e => .error e

/-- The components of `MATCHX` in order, the rescale with policy `LAST` (R145, R108). -/
def matchxBody : Geom → State → Except Fault State :=
  andThen histBody (andThen shapeBody (andThen (rescaleBody .last) (andThen ivbuildBody xremapBody)))

/-- `MATCHX` (R145). -/
def execMatchx (s : State) : Host.Outcome State Fault Refusal := runCommand .matchx matchxBody s

end Sys2Proof.Machine
end

