-- ==== Sys2Proof/Machine/Approx.lean ====
section
/-! DEFINITION. The approximate histogram matcher (43_cdf_matcher R160 to R164), in the exact integer form of R161. -/

namespace Sys2Proof.Machine

/-- The entries of `H1` and `TGT` from level `i` on, read pair by pair in the order of R160. -/
def readPairsFrom : Nat → List (Option Word) → List (Option Word) → Except Fault (List (Nat × Nat))
  | i, none :: _, _ :: _ => .error (.unwrittenRead (.table .h1 i))
  | i, some _ :: _, none :: _ => .error (.unwrittenRead (.table .tgt i))
  | i, some h :: hs, some t :: ts =>
    match readPairsFrom (i + 1) hs ts with
    | .ok ps => .ok ((h.toNat, t.toNat) :: ps)
    | .error e => .error e
  | _, [], _ => .ok []
  | _, _ :: _, [] => .ok []

/-- The running sums of a list, from `acc`: `cHs` and `cTs` of R160. -/
def runningSums : List Nat → Nat → List Nat
  | [], _ => []
  | x :: xs, acc => (acc + x) :: runningSums xs (acc + x)

/-- The `while` of R160: the shared pointer, moved while `j < 255` and `cTs[j] < x`. The first argument bounds the moves; 255
are always enough. -/
def advancePointer (cTs : List Nat) (x : Nat) : Nat → Nat → Nat
  | 0, j => j
  | f + 1, j => if j < 255 ∧ cTs.getD j 0 < x then advancePointer cTs x f (j + 1) else j

/-- The output level at pointer `j` (R160): 0 at `j = 0`, else the nearer of `j-1` and `j`, a tie to `j-1`. DEDUCED (log 25):
where R160's corner cases 4 and 5 say otherwise (a target all in bin 255 and a level with `0 < 2*cHs ≤ N`; `N = 0` with tables
that are not of `N = 0`), the pseudocode is followed. -/
def chooseLevel (cTs : List Nat) (x j : Nat) : Nat :=
  if j = 0 then 0
  else if absDiff (cTs.getD (j - 1) 0) x ≤ absDiff (cTs.getD j 0) x then j - 1
  else j

/-- The second `for` of R160 over the remaining `cHs`, from pointer `j`. -/
def matchLevels (cTs : List Nat) : List Nat → Nat → List Nat
  | [], _ => []
  | x :: xs, j => chooseLevel cTs x (advancePointer cTs x 255 j) :: matchLevels cTs xs (advancePointer cTs x 255 j)

/-- The lookup table of two histograms (R160). -/
def cdfMatch (h t : List Nat) : List Nat := matchLevels (runningSums t 0) (runningSums h 0) 0

/-- The body of `CDFLUT` (R160). -/
def cdflutBody (_ : Geom) (s : State) : Except Fault State :=
  match readPairsFrom 0 s.h1.toList s.tgt.toList with
  | .ok ps => .ok { s with lut := Table.ofList ((cdfMatch (ps.map Prod.fst) (ps.map Prod.snd)).map (BitVec.ofNat 8)) }
  | .error e => .error e

/-- `CDFLUT` (R160). -/
def execCdflut (s : State) : Host.Outcome State Fault Refusal := runCommand .cdflut cdflutBody s

/-- One pixel of `LUTAPPLY`: `DST[k] <- LUT[SRC[k]]` (R163). -/
def applyPixel (src : Memory) (lut : Table 8) (dst : Memory) (k : Nat) : Except Fault Memory :=
  match readByte .src src k with
  | .error e => .error e
  | .ok v =>
    match readEntry .lut lut v.toNat with
    | .error e => .error e
    | .ok q => .ok (Memory.write dst k q)

/-- The body of `LUTAPPLY` (R163). -/
def lutapplyBody (g : Geom) (s : State) : Except Fault State :=
  match forRange (applyPixel s.src s.lut) (List.range g.n) s.dst with
  | .ok d => .ok { s with dst := d }
  | .error e => .error e

/-- `LUTAPPLY` (R163). -/
def execLutapply (s : State) : Host.Outcome State Fault Refusal := runCommand .lutapply lutapplyBody s

/-- The components of `MATCHA` in order, the rescale with policy `LAST_NONZERO` (R164, R108). -/
def matchaBody : Geom → State → Except Fault State :=
  andThen histBody (andThen shapeBody (andThen (rescaleBody .lastNonzero) (andThen cdflutBody lutapplyBody)))

/-- `MATCHA` (R164). -/
def execMatcha (s : State) : Host.Outcome State Fault Refusal := runCommand .matcha matchaBody s

end Sys2Proof.Machine
end

