-- ==== Sys2Proof/Machine/Control.lean ====
section
/-! DEFINITION. The command without data effect (40_control R105). -/

namespace Sys2Proof.Machine

/-- `skip` (R105). -/
def nopBody (_ : Geom) (s : State) : Except Fault State := .ok s

/-- `NOP` (R105). -/
def execNop (s : State) : Host.Outcome State Fault Refusal := runCommand .nop nopBody s

end Sys2Proof.Machine
end

