-- ==== Sys2Proof/Machine/GammaFn.lean ====
section
/-! DEFINITION. The gamma function of 44_error_diffusion R181: `255*(v/255)^g` correctly rounded, for the exponents that a
binary64 pattern can hold (R182), computed in exact integer arithmetic; and the `gammaFn` of an instance (R8, log 4). -/

namespace Sys2Proof.Machine

/-- An effective gamma exponent (R182): `+inf`, or the positive number `m * 2^e`. -/
inductive Exponent where
  | infinite
  | dyadic (m : Nat) (e : Int)
deriving DecidableEq, Repr

/-- `m * 2^e` with factors of two moved from `m` into a negative `e`; the value is the same. -/
def trimExponent : Nat → Nat → Int → Exponent
  | 0, m, e => .dyadic m e
  | f + 1, m, e => if e < 0 ∧ m % 2 = 0 then trimExponent f (m / 2) (e + 1) else .dyadic m e

/-- `effGamma(G)` of R182 on the binary64 layout: bit 63 sign, bits 62:52 biased exponent, bits 51:0 fraction. NaN, zeros,
negative numbers and `-inf` give 1. -/
def effGamma (g : DWord) : Exponent :=
  let neg := g.getLsbD 63
  let ex := (g.extractLsb' 52 11).toNat
  let fr := (g.extractLsb' 0 52).toNat
  if ex = 2047 then (if fr = 0 ∧ neg = false then .infinite else .dyadic 1 0)
  else if neg = true ∨ (ex = 0 ∧ fr = 0) then .dyadic 1 0
  else if ex = 0 then trimExponent 1100 fr (-1074)
  else trimExponent 1100 (2 ^ 52 + fr) (ex - 1075)

/-- R181 word for word, in integers. With `g = p/q` the rounded value is the number of `r` in 1..255 with
`r - 1/2 ≤ 255*(v/255)^(p/q)`, that is `(2r-1)^q * 255^p ≤ v^p * 510^q`; no tie can occur. -/
def gammaExact (m : Nat) (e : Int) (v : Nat) : Nat :=
  let p := m * 2 ^ e.toNat
  let q := 2 ^ (-e).toNat
  (List.range 255).countP fun r => decide ((2 * r + 1) ^ q * 255 ^ p ≤ v ^ p * 510 ^ q)

/-- The scale of the fixed-point bounds of `gammaFn`: a real `x` in [0, 1] lies between two integers over the scale. -/
def gammaScale : Nat := 2 ^ 192

/-- `k x`, written so that the kernel evaluates `x` to a numeral before it goes on (`withNumeral_eq` in Laws). -/
def withNumeral (x : Nat) (k : Nat → Nat) : Nat :=
  match x with
  | 0 => k 0
  | n + 1 => k (n + 1)

/-- Newton's iteration from above for an integer square root; its result is checked by its callers. -/
def newtonRoot : Nat → Nat → Nat → Nat
  | 0, _, x => x
  | f + 1, n, x =>
    let y := (x + n / x) / 2
    if y < x then newtonRoot f n y else x

/-- A guess of the integer square root of `n`. -/
def rootGuess (n : Nat) : Nat := newtonRoot 64 n (2 ^ (Nat.log2 n / 2 + 1))

/-- A number whose square is at most `n`. -/
def rootDown (n : Nat) : Nat := if rootGuess n * rootGuess n ≤ n then rootGuess n else 0

/-- A number whose square is at least `n`. -/
def rootUp (n : Nat) : Nat :=
  if n ≤ rootGuess n * rootGuess n then rootGuess n
  else if n ≤ (rootGuess n + 1) * (rootGuess n + 1) then rootGuess n + 1
  else n

/-- A bound of the square root of a number of scale `s`, from above if `up`. -/
def boundRoot (s : Nat) (up : Bool) (x : Nat) : Nat := if up then rootUp (x * s) else rootDown (x * s)

/-- A bound of the product of two numbers of scale `s`, from above if `up`. -/
def boundMul (s : Nat) (up : Bool) (x y : Nat) : Nat := if up then (x * y + (s - 1)) / s else x * y / s

/-- `k` square roots. -/
def boundRoots (s : Nat) (up : Bool) : Nat → Nat → Nat
  | 0, x => x
  | k + 1, x => withNumeral (boundRoot s up x) fun y => boundRoots s up k y

/-- `k` squarings. -/
def boundSquares (s : Nat) (up : Bool) : Nat → Nat → Nat
  | 0, x => x
  | k + 1, x => withNumeral (boundMul s up x x) fun y => boundSquares s up k y

/-- A bound of `acc * x^m`, for numbers of [0, 1] of scale `s`, by repeated squaring. -/
def boundPow (s : Nat) (up : Bool) : Nat → Nat → Nat → Nat → Nat
  | 0, _, _, acc => if up then acc else 0
  | f + 1, x, m, acc =>
    if m = 0 then acc
    else withNumeral (boundMul s up x x) fun y =>
      withNumeral (if m % 2 = 1 then boundMul s up acc x else acc) fun a =>
        withNumeral (m / 2) fun k => boundPow s up f y k a

/-- A bound of `v/255` at scale `s`. -/
def boundBase (s : Nat) (up : Bool) (v : Nat) : Nat := if up then (v * s + 254) / 255 else v * s / 255

/-- A bound of `(v/255)^(m * 2^e)` at scale `s`, from above if `up`. -/
def boundGamma (s : Nat) (up : Bool) (m : Nat) (e : Int) (v : Nat) : Nat :=
  withNumeral (boundSquares s up e.toNat (boundRoots s up (-e).toNat (boundBase s up v))) fun x => boundPow s up 64 x m s

/-- `255*x` rounded to the nearest integer, for an `x` of scale `s`. -/
def roundScaled (s x : Nat) : Nat := (510 * x + s) / (2 * s)

/-- `gammaFn(g, v)` for a finite exponent, with bounds of scale `s`: where the two bounds round to one integer, that integer is
the result, found with small numbers only; else `gammaExact` is. The obligation `GammaFnRoundsRealPower` says that this is R181. -/
def gammaBounded (s m : Nat) (e : Int) (v : Nat) : Nat :=
  withNumeral (roundScaled s (boundGamma s false m e v)) fun r =>
    if roundScaled s (boundGamma s true m e v) = r then r else gammaExact m e v

/-- `gammaFn(g, v)` as R181 defines it, the correctly rounded power. -/
def gammaFn (g : Exponent) (v : Nat) : Nat :=
  match g with
  | .infinite => if v < 255 then 0 else 255
  | .dyadic m e => gammaBounded gammaScale m e v

/-- The exponent of a row. -/
def rowExponent (r : GammaRow) : Exponent := .dyadic r.num (-(r.shift : Int))

/-- `gammaFn(g, v)` of the instance (R8): the value of its row at `g`, or of R181 where it has none. -/
def gammaOf (p : Params) (g : Exponent) (v : Nat) : Nat :=
  match p.gammaRows.find? fun r => decide (rowExponent r = g) with
  | some r => r.levels.getD v 0
  | none => gammaFn g v

end Sys2Proof.Machine
end

