-- ==== Sys2Proof/Machine/Operands.lean ====
section
/-! DEFINITION. The operands of commands that are not plain reads of a table or a plane: the effective gamma exponent of the
register pair (44_error_diffusion R182), the kernel a method selects (R183 to R186) and the direction of a row (R190). -/

namespace Sys2Proof.Machine

/-- `G = GAMMA_HI ++ GAMMA_LO` (R28). -/
def gammaPair (s : State) : DWord := s.gammaHi ++ s.gammaLo

/-- An error-diffusion kernel: its taps, denominator `D`, horizontal radius `rx` and buffer row count `R` (R183, R186). -/
structure Kernel where
  taps : List Tap
  den : Nat
  rx : Nat
  rows : Nat
deriving DecidableEq, Repr

/-- Kernel 0 (R184). -/
def kernel0 : Kernel := { taps := [⟨1, 0, 7⟩, ⟨-1, 1, 3⟩, ⟨0, 1, 5⟩, ⟨1, 1, 1⟩], den := 16, rx := 1, rows := 2 }

/-- Kernel 1 (R185) with the parameter `KERNEL1_TAPS` of R8. -/
def kernel1 (p : Params) : Kernel := { taps := p.kernel1Taps, den := 48, rx := 2, rows := 3 }

/-- `kernel(METH)` (R183, R194). -/
def kernelOf (p : Params) : Method → Kernel
  | .m0 => kernel0
  | .m1 => kernel1 p

/-- `rev(y)`: row `y` is scanned right to left (R190). -/
def rowReversed (c : Scan) (y : Nat) : Bool :=
  match c with
  | .raster => false
  | .serpentine => y % 2 == 1

/-- `sgn(y)` (R190). -/
def rowSign (c : Scan) (y : Nat) : Int := if rowReversed c y then -1 else 1

/-- The column of the n-th pixel scanned in row `y` of width `w` (R190, R194). -/
def scanColumn (c : Scan) (w y n : Nat) : Nat := if rowReversed c y then w - 1 - n else n

end Sys2Proof.Machine
end

