-- ==== Sys2Proof/Machine/Diffusion.lean ====
section
/-! DEFINITION. The error-diffusion engine (44_error_diffusion R180 to R197): the gamma table, the rolling buffer, the scan and
the tap distribution. -/

namespace Sys2Proof.Machine

/-- The gamma table of an exponent, by the instance's `gammaFn` (R180, R8). -/
def gammaTable (p : Params) (g : Exponent) : Table 8 := Table.ofFun fun v => BitVec.ofNat 8 (gammaOf p g v)

/-- The body of `GAMMA` (R180). -/
def gammaBody (_ : Geom) (s : State) : Except Fault State :=
  .ok { s with glut := gammaTable s.params (effGamma (gammaPair s)) }

/-- `GAMMA` (R180). -/
def execGamma (s : State) : Host.Outcome State Fault Refusal := runCommand .gamma gammaBody s

/-- `GLUT[SRC[k]]` (R188). -/
def correctedSample (src : Memory) (glut : Table 8) (k : Nat) : Except Fault Int :=
  match readByte .src src k with
  | .error e => .error e
  | .ok v =>
    match readEntry .glut glut v.toNat with
    | .error e => .error e
    | .ok q => .ok (q.toNat : Int)

/-- `rowL(y)` (R188): a buffer row with its zero padding, all zero past the bottom of the image. -/
def loadRow (kr : Kernel) (w h : Nat) (src : Memory) (glut : Table 8) (y : Nat) : Except Fault (List Int) :=
  if y < h then
    match collect (fun c => correctedSample src glut (y * w + c)) (List.range w) with
    | .ok px => .ok (List.replicate kr.rx 0 ++ px ++ List.replicate kr.rx 0)
    | .error e => .error e
  else .ok (List.replicate (w + 2 * kr.rx) 0)

/-- `RB[s][c]`, the column given as its position in the row, padding included (R187). -/
def readCell (rb : List (List Int)) (slot pos : Nat) : Int := (rb.getD slot []).getD pos 0

/-- `RB[s][c] <- sat16(RB[s][c] + d)` (R192). -/
def addToCell (rb : List (List Int)) (slot pos : Nat) (d : Int) : List (List Int) :=
  rb.modify slot fun row => row.modify pos fun c => sat16 (c + d)

/-- One tap of the distribution of R192 from pixel `(x, y)` with residual `e`. -/
def applyTap (kr : Kernel) (sg : Int) (x y : Nat) (e : Int) (rb : List (List Int)) (t : Tap) : List (List Int) :=
  addToCell rb ((y + t.dy) % kr.rows) (x + sg * t.dx + kr.rx).toNat (roundHalfAway (e * t.w) kr.den)

/-- The distribution of a residual over the taps of the kernel (R192). -/
def distribute (kr : Kernel) (sg : Int) (x y : Nat) (e : Int) (rb : List (List Int)) : List (List Int) :=
  kr.taps.foldl (applyTap kr sg x y e) rb

/-- What the scan of `DIFFUSE` changes (R194). -/
structure Diffusing where
  rb : List (List Int)
  dst : Memory
deriving DecidableEq, Repr

/-- The accumulated value of pixel `(x, y)` (R194). -/
def accumulated (kr : Kernel) (rb : List (List Int)) (x y : Nat) : Int := readCell rb (y % kr.rows) (x + kr.rx)

/-- Pixel `(x, y)` of the scan of R194. -/
def diffusePixel (kr : Kernel) (sg : Int) (w x y : Nat) (st : Diffusing) : Diffusing :=
  { rb := distribute kr sg x y (residual (accumulated kr st.rb x y)) st.rb
    dst := Memory.write st.dst (y * w + x) (quantize (accumulated kr st.rb x y)) }

/-- The pixels of row `y` in the column order of R190. -/
def diffuseRow (kr : Kernel) (c : Scan) (w y : Nat) (st : Diffusing) : Diffusing :=
  (List.range w).foldl (fun st n => diffusePixel kr (rowSign c y) w (scanColumn c w y n) y st) st

/-- Row `y` and the ring advance after it: `RB[y mod R] <- rowL(y + R)` (R193, R194). -/
def diffuseLine (kr : Kernel) (c : Scan) (w h : Nat) (src : Memory) (glut : Table 8) (st : Diffusing) (y : Nat) :
    Except Fault Diffusing :=
  match loadRow kr w h src glut (y + kr.rows) with
  | .ok row => .ok { diffuseRow kr c w y st with rb := (diffuseRow kr c w y st).rb.set (y % kr.rows) row }
  | .error e => .error e

/-- The initial buffer: `RB[s] <- rowL(s)` for every slot (R189). -/
def initialRing (kr : Kernel) (w h : Nat) (src : Memory) (glut : Table 8) : Except Fault (List (List Int)) :=
  collect (loadRow kr w h src glut) (List.range kr.rows)

/-- The whole scan of R194. -/
def diffuseImage (kr : Kernel) (c : Scan) (w h : Nat) (src : Memory) (glut : Table 8) (dst : Memory) :
    Except Fault Diffusing :=
  match initialRing kr w h src glut with
  | .ok rb => forRange (diffuseLine kr c w h src glut) (List.range h) { rb := rb, dst := dst }
  | .error e => .error e

/-- The body of `DIFFUSE` (R194). -/
def diffuseBody (m : Method) (c : Scan) (g : Geom) (s : State) : Except Fault State :=
  match diffuseImage (kernelOf s.params m) c g.w g.h s.src s.glut s.dst with
  | .ok r => .ok { s with rb := r.rb, dst := r.dst }
  | .error e => .error e

/-- `DIFFUSE` (R194). -/
def execDiffuse (m : Method) (c : Scan) (s : State) : Host.Outcome State Fault Refusal :=
  runCommand (.diffuse m c) (diffuseBody m c) s

/-- The components of `DITHER` in order (R195, R108). -/
def ditherBody (m : Method) (c : Scan) : Geom → State → Except Fault State := andThen gammaBody (diffuseBody m c)

/-- `DITHER` (R195). -/
def execDither (m : Method) (c : Scan) (s : State) : Host.Outcome State Fault Refusal :=
  runCommand (.dither m c) (ditherBody m c) s

end Sys2Proof.Machine
end

