-- ==== Sys2Proof/Machine/Dispatch.lean ====
section
/-! DEFINITION. One arm per command, each a direct call of its meaning (30_encoding R83). -/

namespace Sys2Proof.Machine

def exec (i : Instr) (s : State) : Host.Outcome State Fault Refusal :=
  match i with
  | .nop => Sys2Proof.Machine.execNop s
  | .hist => Sys2Proof.Machine.execHist s
  | .shape => Sys2Proof.Machine.execShape s
  | .rescale pol => Sys2Proof.Machine.execRescale pol s
  | .ivbuild => Sys2Proof.Machine.execIvbuild s
  | .xremap => Sys2Proof.Machine.execXremap s
  | .cdflut => Sys2Proof.Machine.execCdflut s
  | .lutapply => Sys2Proof.Machine.execLutapply s
  | .gamma => Sys2Proof.Machine.execGamma s
  | .diffuse meth serp => Sys2Proof.Machine.execDiffuse meth serp s
  | .matchx => Sys2Proof.Machine.execMatchx s
  | .matcha => Sys2Proof.Machine.execMatcha s
  | .dither meth serp => Sys2Proof.Machine.execDither meth serp s

end Sys2Proof.Machine
end

