-- ==== Sys2Proof/Decode.lean ====
section
/-! DEFINITION. Decoding and encoding of command words (30_encoding R80 to R87). The decoder follows R86: the rows of R84 in
order, the first whose masked word equals its match. It is total on all 2^32 words and rejects by name. -/

namespace Sys2Proof

/-- Why a word is illegal (R85). All three have the one effect `ERR_ILL` (R251); the name is the model's (log 17). -/
inductive Illegal where
  /-- A bit of `RSVD`, 31:11, is set. -/
  | reservedBits
  /-- `OP` is not in the map of R83. -/
  | reservedOpcode
  /-- A field bit is set that the opcode does not use. -/
  | unusedField
deriving DecidableEq, Repr

/-- A row of R84. -/
structure Row where
  pattern : Word
  mask : Word
deriving DecidableEq, Repr

/-- `w & mask(M) = match(M)` (R84). -/
def Row.selects (r : Row) (w : Word) : Bool := w &&& r.mask == r.pattern

/-- `POL = w[8]` (R82). -/
def polOf (w : Word) : Policy := if w.getLsbD 8 then .lastNonzero else .last

/-- `METH = w[9]` (R82). -/
def methOf (w : Word) : Method := if w.getLsbD 9 then .m1 else .m0

/-- `SERP = w[10]` (R82). -/
def serpOf (w : Word) : Scan := if w.getLsbD 10 then .serpentine else .raster

/-- The rows of R84, each with the command its words stand for, fields read as in R86. -/
def decodeRows (w : Word) : List (Row × Instr) :=
  [(⟨0x00000000, 0xFFFFFFFF⟩, .nop),
   (⟨0x00000001, 0xFFFFFFFF⟩, .hist),
   (⟨0x00000002, 0xFFFFFFFF⟩, .shape),
   (⟨0x00000003, 0xFFFFFEFF⟩, .rescale (polOf w)),
   (⟨0x00000004, 0xFFFFFFFF⟩, .ivbuild),
   (⟨0x00000005, 0xFFFFFFFF⟩, .xremap),
   (⟨0x00000006, 0xFFFFFFFF⟩, .cdflut),
   (⟨0x00000007, 0xFFFFFFFF⟩, .lutapply),
   (⟨0x00000008, 0xFFFFFFFF⟩, .gamma),
   (⟨0x00000009, 0xFFFFF9FF⟩, .diffuse (methOf w) (serpOf w)),
   (⟨0x00000010, 0xFFFFFFFF⟩, .matchx),
   (⟨0x00000011, 0xFFFFFFFF⟩, .matcha),
   (⟨0x00000012, 0xFFFFF9FF⟩, .dither (methOf w) (serpOf w))]

/-- Which of the reasons of R85 to give for a word that no row selects. -/
def illegalReason (w : Word) : Illegal :=
  if reservedZero w then (if opKnown (opField w) then .unusedField else .reservedOpcode) else .reservedBits

/-- R86. -/
def decode (w : Word) : Except Illegal Instr :=
  match (decodeRows w).find? (fun r => r.1.selects w) with
  | some r => .ok r.2
  | none => .error (illegalReason w)

/-- The word of R80 with the given opcode and fields. -/
def commandWord (op : Byte) (pol meth serp : Bool) : Word :=
  0#21 ++ BitVec.ofBool serp ++ BitVec.ofBool meth ++ BitVec.ofBool pol ++ op

/-- The value of field `POL` for a policy (R82). -/
def polBit : Policy → Bool
  | .last => false
  | .lastNonzero => true

/-- The value of field `METH` for a method (R82). -/
def methBit : Method → Bool
  | .m0 => false
  | .m1 => true

/-- The value of field `SERP` for a scan order (R82). -/
def serpBit : Scan → Bool
  | .raster => false
  | .serpentine => true

/-- The command word of a command (R80, R83). -/
def encode : Instr → Word
  | .nop => commandWord 0x00 false false false
  | .hist => commandWord 0x01 false false false
  | .shape => commandWord 0x02 false false false
  | .rescale p => commandWord 0x03 (polBit p) false false
  | .ivbuild => commandWord 0x04 false false false
  | .xremap => commandWord 0x05 false false false
  | .cdflut => commandWord 0x06 false false false
  | .lutapply => commandWord 0x07 false false false
  | .gamma => commandWord 0x08 false false false
  | .diffuse m c => commandWord 0x09 false (methBit m) (serpBit c)
  | .matchx => commandWord 0x10 false false false
  | .matcha => commandWord 0x11 false false false
  | .dither m c => commandWord 0x12 false (methBit m) (serpBit c)

/-- The 20 legal command words with their spellings (R84, R87). -/
def assemblerTable : List (String × Instr) :=
  [("NOP", .nop), ("HIST", .hist), ("SHAPE", .shape),
   ("RESCALE.LAST", .rescale .last), ("RESCALE.LASTNZ", .rescale .lastNonzero),
   ("IVBUILD", .ivbuild), ("XREMAP", .xremap), ("CDFLUT", .cdflut), ("LUTAPPLY", .lutapply), ("GAMMA", .gamma),
   ("DIFFUSE.M0", .diffuse .m0 .raster), ("DIFFUSE.M1", .diffuse .m1 .raster),
   ("DIFFUSE.M0.SERP", .diffuse .m0 .serpentine), ("DIFFUSE.M1.SERP", .diffuse .m1 .serpentine),
   ("MATCHX", .matchx), ("MATCHA", .matcha),
   ("DITHER.M0", .dither .m0 .raster), ("DITHER.M1", .dither .m1 .raster),
   ("DITHER.M0.SERP", .dither .m0 .serpentine), ("DITHER.M1.SERP", .dither .m1 .serpentine)]

/-- The bare spellings of R87: `RESCALE` is `RESCALE.LAST`, `DIFFUSE` is `DIFFUSE.M0`, and `DITHER` likewise. -/
def bareSpellings : List (String × Instr) :=
  [("RESCALE", .rescale .last), ("DIFFUSE", .diffuse .m0 .raster), ("DITHER", .dither .m0 .raster)]

/-- The command that an assembler spelling of R87 stands for. -/
def assemble (text : String) : Option Instr :=
  ((assemblerTable ++ bareSpellings).find? fun r => r.1 == text).map Prod.snd

/-- The instruction the decoder reads from the bits `w` of a table row of `nbits` bits. A command is one 32-bit word (R81), so
bits from `nbits` up are zero and no byte order is involved: the word is the data of a 32-bit `CMD` write. -/
def decodeTableWord (nbits w : Nat) : Option Instr :=
  match decode (BitVec.ofNat 32 (w % 2 ^ nbits)) with
  | .ok i => some i
  | .error _ => none

end Sys2Proof
end

