-- ==== Sys2Proof/Machine/HostPort.lean ====
section
/-! DEFINITION. The host window: its map (20_memory R60 to R62), widths and alignment (R64), byte order (R63), host reads and
writes idle and busy (R65, R69, R70, 10_state R22 to R29), and bus faults (60_exceptions R258). -/

namespace Sys2Proof.Machine

/-- The registers of R22. -/
inductive Reg where
  | cmd | status | width | height | reflen | gammaLo | gammaHi
deriving DecidableEq, Repr

/-- What stands at an offset of the window (R61): a register, an entry of a table, a byte of a plane, or nothing (R62). -/
inductive Target where
  | reg (r : Reg)
  | table (t : TableId) (i : Nat)
  | plane (p : PlaneId) (k : Nat)
  | hole
deriving DecidableEq, Repr

/-- The plane whose 2^24-byte window holds the offset (R61). -/
def planeWindow (off : Word) : Option PlaneId :=
  match off.toNat / 0x1000000 with
  | 1 => some .src
  | 2 => some .dst
  | 3 => some .ref
  | _ => none

/-- The table at an offset of 0x1000 to 0x2FFF (R29). -/
def tableAt (off : Nat) : Option TableId :=
  match off / 0x400 with
  | 4 => some .h1
  | 5 => some .shape
  | 6 => some .tgt
  | 7 => some .left
  | 8 => some .right
  | 9 => some .cnt
  | 10 => some .lut
  | 11 => some .glut
  | _ => none

/-- The register at a 4-aligned offset below 0x20 (R22). -/
def regAt (off : Nat) : Option Reg :=
  match off / 4 with
  | 0 => some .cmd
  | 1 => some .status
  | 2 => some .width
  | 3 => some .height
  | 4 => some .reflen
  | 6 => some .gammaLo
  | 7 => some .gammaHi
  | _ => none

/-- The window map (R61, R62); a register or an entry covers the four offsets of its word. -/
def target (p : Params) (off : Word) : Target :=
  match planeWindow off with
  | some q => if off.toNat % 0x1000000 < p.maxPix then .plane q (off.toNat % 0x1000000) else .hole
  | none =>
    match tableAt off.toNat with
    | some t => .table t (off.toNat % 0x400 / 4)
    | none =>
      match regAt off.toNat with
      | some r => .reg r
      | none => .hole

/-- The bus fault of an access, if it has one (R62, R64, R258); `BUS_ALIGN` is decided first. 8-bit accesses exist only in the
plane windows (log 9), and a word that straddles `MAX_PIX` is `BUS_ALIGN` (log 10). -/
def busCheck (p : Params) (width : Width) (off : Word) : Option BusKind :=
  match width with
  | .b16 => some .align
  | .b64 => some .align
  | .b8 =>
    match planeWindow off with
    | none => some .align
    | some _ => if target p off = .hole then some .unmapped else none
  | .b32 =>
    if off.toNat % 4 ≠ 0 then some .align
    else
      match target p off with
      | .hole => some .unmapped
      | .plane _ k => if k + 3 < p.maxPix then none else some .align
      | _ => none

/-- The plane of a name (R39). -/
def planeOf (p : PlaneId) (s : State) : Memory :=
  match p with
  | .src => s.src
  | .dst => s.dst
  | .ref => s.ref

/-- The state with a plane replaced. -/
def setPlane (p : PlaneId) (m : Memory) (s : State) : State :=
  match p with
  | .src => { s with src := m }
  | .dst => { s with dst := m }
  | .ref => { s with ref := m }

/-- The 32-bit view of a table entry (R29): a `u8` entry is zero-extended. -/
def tableWord (t : TableId) (i : Nat) (s : State) : Option Word :=
  match t with
  | .h1 => Table.get s.h1 i
  | .shape => Table.get s.shape i
  | .tgt => Table.get s.tgt i
  | .left => (Table.get s.left i).map (BitVec.setWidth 32)
  | .right => (Table.get s.right i).map (BitVec.setWidth 32)
  | .cnt => Table.get s.cnt i
  | .lut => (Table.get s.lut i).map (BitVec.setWidth 32)
  | .glut => (Table.get s.glut i).map (BitVec.setWidth 32)

/-- A host write of a table entry (R29): a `u8` entry stores bits 7:0. -/
def setTableWord (t : TableId) (i : Nat) (v : Word) (s : State) : State :=
  match t with
  | .h1 => { s with h1 := Table.put s.h1 i v }
  | .shape => { s with shape := Table.put s.shape i v }
  | .tgt => { s with tgt := Table.put s.tgt i v }
  | .left => { s with left := Table.put s.left i (v.setWidth 8) }
  | .right => { s with right := Table.put s.right i (v.setWidth 8) }
  | .cnt => { s with cnt := Table.put s.cnt i v }
  | .lut => { s with lut := Table.put s.lut i (v.setWidth 8) }
  | .glut => { s with glut := Table.put s.glut i (v.setWidth 8) }

/-- What a read of a register returns (R22): `CMD` reads 0 (R23). -/
def readReg (r : Reg) (s : State) : Word :=
  match r with
  | .cmd => 0
  | .status => statusWord s
  | .width => s.width
  | .height => s.height
  | .reflen => s.reflen
  | .gammaLo => s.gammaLo
  | .gammaHi => s.gammaHi

/-- A host write of a register while idle (R22, R25 to R28). A write to `CMD` is a submission, which `hostTurn` makes. -/
def writeReg (r : Reg) (v : Word) (s : State) : State :=
  match r with
  | .cmd => s
  | .status => clearStatus v s
  | .width => { s with width := v }
  | .height => { s with height := v }
  | .reflen => { s with reflen := v }
  | .gammaLo => { s with gammaLo := v }
  | .gammaHi => { s with gammaHi := v }

/-- The little-endian word of four bytes (R63): the byte at the lowest offset is bits 7:0. -/
def wordOfBytes (b0 b1 b2 b3 : Byte) : Word := b3 ++ b2 ++ b1 ++ b0

/-- The bytes `k`, `k+1`, ... of a plane that an access of the given width covers, as a word (R63): the fault of R259 at the
lowest unwritten one. -/
def readPlaneWord (p : PlaneId) (width : Width) (m : Memory) (k : Nat) : Except Fault Word :=
  match width with
  | .b8 =>
    match readByte p m k with
    | .ok b => .ok (b.setWidth 32)
    | .error e => .error e
  | _ =>
    match collect (readByte p m) [k, k + 1, k + 2, k + 3] with
    | .ok bs => .ok (wordOfBytes (bs.getD 0 0) (bs.getD 1 0) (bs.getD 2 0) (bs.getD 3 0))
    | .error e => .error e

/-- Byte `n` of a word, `n = 0` being bits 7:0 (R63). -/
def byteOfWord (v : Word) (n : Nat) : Byte := v.extractLsb' (8 * n) 8

/-- A host write to a plane (R63). -/
def writePlaneWord (width : Width) (m : Memory) (k : Nat) (v : Word) : Memory :=
  match width with
  | .b8 => Memory.write m k (byteOfWord v 0)
  | _ =>
    Memory.write (Memory.write (Memory.write (Memory.write m k (byteOfWord v 0)) (k + 1) (byteOfWord v 1))
      (k + 2) (byteOfWord v 2)) (k + 3) (byteOfWord v 3)

/-- The draw that a busy read of the given width returns (R69(c)); an 8-bit read returns a byte. -/
def drawValue (width : Width) (n : Nat) : Word :=
  match width with
  | .b8 => (Config.busyDraw n).setWidth 8 |>.setWidth 32
  | _ => Config.busyDraw n

/-- What a read of written storage with value `v` returns: `v` while idle, a draw while busy (R69(c)). -/
def storageRead (width : Width) (v : Word) (s : State) : Word × State :=
  if busy s then (drawValue width s.draws, { s with draws := s.draws + 1 }) else (v, s)

/-- A host read that has no bus fault (R65, R69, R259): registers return their value whether or not the block is busy; an
unwritten entry or byte is `UNWRITTEN_READ` whether or not it is busy. -/
def hostRead (width : Width) (off : Word) (s : State) : Except Fault (Word × State) :=
  match target s.params off with
  | .reg r => .ok (readReg r s, s)
  | .table t i =>
    match tableWord t i s with
    | some v => .ok (storageRead width v s)
    | none => .error (.unwrittenRead (.table t i))
  | .plane p k =>
    match readPlaneWord p width (planeOf p s) k with
    | .ok v => .ok (storageRead width v s)
    | .error e => .error e
  | .hole => .ok (0, s)

/-- A host write that has no bus fault and submits no command. While busy it is dropped with `ERR_BUSYWR`, unless it is to
`STATUS` (R70, R253). -/
def hostWrite (width : Width) (off : Word) (v : Word) (s : State) : State :=
  match target s.params off with
  | .reg .status => clearStatus v s
  | .reg r => if busy s then raiseError .busyWrite s else writeReg r v s
  | .table t i => if busy s then raiseError .busyWrite s else setTableWord t i v s
  | .plane p k =>
    if busy s then raiseError .busyWrite s else setPlane p (writePlaneWord width (planeOf p s) k v) s
  | .hole => s

/-- The answer of an access, added to those of earlier ones (R258). -/
def answer (r : Reply) (s : State) : State := { s with replies := r :: s.replies }

end Sys2Proof.Machine
end

