-- ==== Sys2Proof/Machine/Fetch.lean ====
section
/-! DEFINITION. What the next event of the agenda does (log 1): host accesses (20_memory R69), the submission of a command word
(40_control R100), the engine's turn (R101) and reset (70_reset_and_hazards R280). -/

namespace Sys2Proof.Machine

/-- What one transition is: the engine runs a command to completion from a state, or the transition is settled without it. -/
inductive Turn where
  | run (i : Instr) (s : State)
  | settled (o : Except Fault State)
deriving Repr

/-- No host access and no reset lands before the engine's next turn. -/
def engineNext : List Event → Bool
  | [] => true
  | .engine :: _ => true
  | .host _ :: _ => false
  | .reset :: _ => false

/-- The submission of word `w` to `CMD` while idle (R100, R251). An accepted command whose busy window no access enters runs
to completion in this transition (R101); else it is latched and runs at the engine's turn (log 2). -/
def submitWord (w : Word) (s : State) : Turn :=
  match decode w with
  | .error _ => .settled (.ok (rejectIllegal s))
  | .ok i => if engineNext s.agenda then .run i s else .settled (.ok (accept i s))

/-- A host access (R65, R69, R258). -/
def hostTurn (a : Access) (s : State) : Turn :=
  match a with
  | .read width off =>
    match busCheck s.params width off with
    | some k => .settled (.ok (answer (.busFault k off) s))
    | none =>
      match hostRead width off s with
      | .ok (v, t) => .settled (.ok (answer (.value v) t))
      | .error e => .settled (.error e)
  | .write width off v =>
    match busCheck s.params width off with
    | some k => .settled (.ok (answer (.busFault k off) s))
    | none =>
      if target s.params off = .reg .cmd ∧ busy s = false then submitWord v (answer .ack s)
      else .settled (.ok (answer .ack (hostWrite width off v s)))

/-- The engine's turn: a command in progress completes; an idle engine does nothing. -/
def engineTurn (s : State) : Turn :=
  match s.job with
  | some j => .run j.cmd s
  | none => .settled (.ok s)

/-- Reset (R280): registers take the values of R44, a command in progress is abandoned and storage becomes unwritten. The
instance's parameters and the host's side of the window are not the block's to reset (log 14). -/
def assertReset (s : State) : State :=
  { State.resetWith s.params with agenda := s.agenda, replies := s.replies, draws := s.draws }

/-- The next transition. With nothing left on the agenda the engine completes its command, if it has one (R104, R290), and an
idle block stays as it is (log 15). -/
def nextTurn (s : State) : Turn :=
  match s.agenda with
  | [] => engineTurn s
  | .host a :: rest => hostTurn a { s with agenda := rest }
  | .engine :: rest => engineTurn { s with agenda := rest }
  | .reset :: rest => .settled (.ok (assertReset { s with agenda := rest }))

/-- The state in which the host's next access writes `w` to `CMD` of an idle block, with nothing after it: where the block
takes its next command from (R73, R100). -/
def placeCommand (w : Word) (s : State) : State :=
  { s with job := none, agenda := [.host (.write .b32 0x00000000 w)] }

end Sys2Proof.Machine
end

