-- ==== Sys2Proof/Machine/Step.lean ====
section
/-! DEFINITION. One step of the machine: the next event of the agenda (`nextTurn`), and `exec` for the command that the engine
runs in it. -/

namespace Sys2Proof.Machine

/-- A transition without a command, as an outcome. -/
def settle (o : Except Fault State) : Host.Outcome State Fault Refusal :=
  match o with
  | .ok s => .next s
  | .error f => .fault f

/-- A transition, as an outcome. -/
def runTurn (t : Turn) : Host.Outcome State Fault Refusal :=
  match t with
  | .run i s => exec i s
  | .settled o => settle o

/-- One step. -/
def step (s : State) : Host.Outcome State Fault Refusal := runTurn (nextTurn s)

/-- `s` with the command word `w` as the host's next write to `CMD`, the engine idle (log 1). A command is one word of 32 bits
(R81), so bits from `nbits` up are zero. -/
def State.withFetchWord (s : State) (nbits w : Nat) : State := placeCommand (BitVec.ofNat 32 (w % 2 ^ nbits)) s

end Sys2Proof.Machine
end

