-- ==== Sys2Proof/Machine/HostProgram.lean ====
section
/-! DEFINITION. The host program notation of 30_encoding R88, as lists of events for the agenda. -/

namespace Sys2Proof.Machine

/-- `wr OFF, V` (R88). -/
def wr (off v : Word) : Event := .host (.write .b32 off v)

/-- `wrb OFF, V` (R88). -/
def wrb (off v : Word) : Event := .host (.write .b8 off v)

/-- `rd OFF` (R88). -/
def rd (off : Word) : Event := .host (.read .b32 off)

/-- `rdb OFF` (R88). -/
def rdb (off : Word) : Event := .host (.read .b8 off)

/-- `cmd M` (R88). -/
def cmd (i : Instr) : List Event := [wr 0x0000 (encode i)]

/-- `wait` (R88): polls of `STATUS`, of which `n` land while the block is busy and the last after the engine's turn. -/
def waitIdle (n : Nat) : List Event := List.replicate n (rd 0x0004) ++ [.engine, rd 0x0004]

/-- `run M` (R88), with `n` polls in the busy window. -/
def runPolled (i : Instr) (n : Nat) : List Event := cmd i ++ waitIdle n

/-- `geom W, H` (R88). -/
def geom (w h : Word) : List Event := [wr 0x0008 w, wr 0x000C h]

/-- `gamma G` (R88), on the binary64 bits of `G`. -/
def setGamma (g : DWord) : List Event := [wr 0x0018 (g.extractLsb' 0 32), wr 0x001C (g.extractLsb' 32 32)]

/-- `clrstat` (R88). -/
def clrstat : List Event := [wr 0x0004 0x0000001E]

end Sys2Proof.Machine
end

