-- ==== Sys2Proof/Safety.lean ====
section
/-! DEFINITION. The terms in which statements speak of good states and good runs: the invariant of the block, what must be
written before a command can run (70_reset_and_hazards R282), commands in sequence, and a run without a fault. -/

namespace Sys2Proof.Machine

/-- A plane in canonical form whose bytes lie below `MAX_PIX` (R39). -/
def planeWf (p : Params) (m : Memory) : Prop := Memory.wf m ∧ ∀ c ∈ m, c.1 < p.maxPix

/-- A buffer row within the capacity of R40 whose cells are in the signed 16-bit range (R14, R187). -/
def ringRowWf (p : Params) (row : List Int) : Prop :=
  row.length ≤ p.maxW + 4 ∧ ∀ c ∈ row, -32768 ≤ c ∧ c ≤ 32767

/-- The invariant of the block: a legal instance (R8), canonical planes within `MAX_PIX` (R39), a rolling buffer of at most three
rows within its capacity and range (R14, R40), and a command in progress that passed its checks, whose latched geometry equals
the registers (R102, R107) and during which `DONE` is 0 (R291). -/
structure Inv (s : State) : Prop where
  params : s.params.wf = true
  src : planeWf s.params s.src
  dst : planeWf s.params s.dst
  ref : planeWf s.params s.ref
  slots : s.rb.length ≤ 3
  rows : ∀ row ∈ s.rb, ringRowWf s.params row
  jobGeom : ∀ j, s.job = some j → j.geom = latchGeom s
  jobChecked : ∀ j, s.job = some j → checksOk s.params j.cmd j.geom = true
  jobDone : ∀ j, s.job = some j → s.status.done = false

/-- Bytes `0..n-1` of a plane are written. -/
def bytesWritten (m : Memory) (n : Nat) : Prop := ∀ k < n, (Memory.read m k).isSome = true

/-- All 256 entries of a table are written. -/
def entriesWritten {w : Nat} (t : Table w) : Prop := ∀ i < 256, (Table.get t i).isSome = true

/-- The entries of a table at every value present in bytes `0..n-1` of a plane are written. -/
def levelsWritten {w : Nat} (m : Memory) (n : Nat) (t : Table w) : Prop :=
  ∀ k < n, ∀ v, Memory.read m k = some v → (Table.get t v.toNat).isSome = true

/-- `N` of the geometry registers. -/
def pixelCount (s : State) : Nat := s.width.toNat * s.height.toNat

/-- What the table of R282 asks to be written before a command, with all of `TGT` for `IVBUILD` and `XREMAP`, which read fewer
bins of it (`testedBinsWritten`, `remapReadsWritten`). -/
def ready (i : Instr) (s : State) : Prop :=
  match i with
  | .nop => True
  | .hist => bytesWritten s.src (pixelCount s)
  | .shape => bytesWritten s.ref (min s.reflen.toNat 256)
  | .rescale _ => entriesWritten s.shape
  | .ivbuild => entriesWritten s.h1 ∧ entriesWritten s.tgt
  | .xremap => bytesWritten s.src (pixelCount s) ∧ levelsWritten s.src (pixelCount s) s.left ∧
      levelsWritten s.src (pixelCount s) s.right ∧ entriesWritten s.tgt
  | .cdflut => entriesWritten s.h1 ∧ entriesWritten s.tgt
  | .lutapply => bytesWritten s.src (pixelCount s) ∧ levelsWritten s.src (pixelCount s) s.lut
  | .gamma => True
  | .diffuse _ _ => bytesWritten s.src (pixelCount s) ∧ levelsWritten s.src (pixelCount s) s.glut
  | .matchx => bytesWritten s.src (pixelCount s) ∧ bytesWritten s.ref (min s.reflen.toNat 256)
  | .matcha => bytesWritten s.src (pixelCount s) ∧ bytesWritten s.ref (min s.reflen.toNat 256)
  | .dither _ _ => bytesWritten s.src (pixelCount s)

/-- An idle block whose geometry registers pass the checks of a command: its submission is accepted (R100, R102). -/
def accepts (i : Instr) (s : State) : Prop := s.job = none ∧ checksOk s.params i (latchGeom s) = true

/-- `STATUS` after a completed command (R100): `DONE` is set, the error bits are kept. -/
def doneStatus (s : State) : Status := { s.status with done := true }

/-- The 20 legal command words, in the order of R84's list. -/
def legalWords : List Word :=
  [0x00000000, 0x00000001, 0x00000002, 0x00000003, 0x00000103, 0x00000004, 0x00000005, 0x00000006, 0x00000007, 0x00000008,
   0x00000009, 0x00000209, 0x00000409, 0x00000609, 0x00000010, 0x00000011, 0x00000012, 0x00000212, 0x00000412, 0x00000612]

/-- The value of an entry of a table, an unwritten entry counting as 0; used only where the entry is written. -/
def entryAt {w : Nat} (t : Table w) (i : Nat) : Nat := ((Table.get t i).map BitVec.toNat).getD 0

/-- The values of a table, an unwritten entry counting as 0; used only where all entries are written. -/
def tableValues {w : Nat} (t : Table w) : List Nat := (List.range 256).map (entryAt t)

/-- The level of a plane byte, an unwritten byte counting as 0; used only where the byte is written. -/
def levelAt (m : Memory) (k : Nat) : Nat := ((Memory.read m k).map BitVec.toNat).getD 0

/-- How many of bytes `0..n-1` of a plane have level `v`: an entry of the histogram of R120. -/
def occurrences (m : Memory) (n v : Nat) : Nat := ((Finset.range n).filter fun k => levelAt m k = v).card

/-- The sum of entries `0..i`: `cHs[i]` and `cTs[i]` of R160. -/
def cumulative (f : Nat → Nat) (i : Nat) : Nat := ∑ k ∈ Finset.range (i + 1), f k

/-- The least `r` with `cumulative t r` at least `cumulative h i`, at most 255: where the pointers of R140 and R160 stand after
level `i`. -/
def crossing (h t : Nat → Nat) (i : Nat) : Nat :=
  ((Finset.range 255).filter fun r => cumulative t r < cumulative h i).card

/-- The entry of `LUT` at level `i` (R160): the nearer of the crossing and the level below it, a tie to the lower.
Its corner cases 4 and 5 are followed only as far as the pseudocode gives them (log 25). -/
def nearestLevel (h t : Nat → Nat) (i : Nat) : Nat :=
  let j := crossing h t i
  let dcur := ((cumulative t j : Int) - cumulative h i).natAbs
  let dprev := ((cumulative t (j - 1) : Int) - cumulative h i).natAbs
  if j = 0 then 0 else if dprev ≤ dcur then j - 1 else j

/-- R142's scan after `n` pixels, on levels as numbers: `LEFT`, `CNT`, and the output levels in scan order. -/
def scanRemap (src left right tgt : Nat → Nat) : Nat → (Nat → Nat) × (Nat → Nat) × List Nat
  | 0 => (left, fun _ => 0, [])
  | n + 1 =>
    let (l, c, out) := scanRemap src left right tgt n
    let v := src n
    let p := if c (l v) < tgt (l v) then l v else min (l v + 1) (right v)
    (Function.update l v p, Function.update c p (c p + 1), out ++ [p])

/-- The bins of `TGT` that the `while` of R140 tests are written: those up to where the pointer ends (R282). -/
def testedBinsWritten (h1 tgt : Table 32) : Prop :=
  ∀ r ≤ crossing (entryAt h1) (entryAt tgt) 255, (Table.get tgt r).isSome = true

/-- What the scan of R142 reads at pixel `k` is written: the byte, `LEFT` at its level, `TGT` at the bin that is tested, and
`RIGHT` at the level if the bin is full. -/
def remapReadsWritten (s : State) (k : Nat) : Prop :=
  let (l, c, _) := scanRemap (levelAt s.src) (entryAt s.left) (entryAt s.right) (entryAt s.tgt) k
  let v := levelAt s.src k
  (Memory.read s.src k).isSome = true ∧ (Table.get s.left v).isSome = true ∧ (Table.get s.tgt (l v)).isSome = true ∧
    (c (l v) < entryAt s.tgt (l v) ∨ (Table.get s.right v).isSome = true)

/-- `t_k` of R125, the scaled shape value rounded half up, in numbers. -/
def scaledShape (shape : List Nat) (total k : Nat) : Nat :=
  (2 * (shape.getD k 0 * total) + shape.sum) / (2 * shape.sum)

/-- `T[k]` as the loop of R125 leaves it, in closed form (R128, 4): what remains of the total caps the scaled value. -/
def cappedShape (shape : List Nat) (total k : Nat) : Nat :=
  min (scaledShape shape total k) (total - ∑ j ∈ Finset.range k, scaledShape shape total j)

/-- `rev(y)` of R190: row `y` is scanned right to left. -/
abbrev rightToLeft (c : Scan) (y : Nat) : Prop := c = .serpentine ∧ y % 2 = 1

/-- The pixels of the image in the scan order of R190, as column and row. -/
def scanOrder (c : Scan) (w h : Nat) : List (Nat × Nat) :=
  (List.range h).flatMap fun y =>
    (if rightToLeft c y then (List.range w).reverse else List.range w).map fun x => (x, y)

/-- The taps and the denominator of R184 and R185. -/
def statedTaps (p : Params) : Method → List Tap × Nat
  | .m0 => ([⟨1, 0, 7⟩, ⟨-1, 1, 3⟩, ⟨0, 1, 5⟩, ⟨1, 1, 1⟩], 16)
  | .m1 => (p.kernel1Taps, 48)

/-- A tap of R192 on a full-image error plane (R197): column, then row, to accumulator. -/
def fullTap (den : Nat) (sg : Int) (x y : Nat) (e : Int) (acc : Int → Nat → Int) (t : Tap) : Int → Nat → Int :=
  fun cx cy =>
    if cx = x + sg * t.dx ∧ cy = y + t.dy then max (-32768) (min 32767 (acc cx cy + roundHalfAway (e * t.w) den))
    else acc cx cy

/-- A pixel of R194 on a full-image error plane: the plane after its taps, mirrored in a row scanned right to left (R190), and
the output with its level (R191). -/
def fullPixel (kr : List Tap × Nat) (c : Scan) (st : (Int → Nat → Int) × (Nat → Nat → Byte)) (p : Nat × Nat) :
    (Int → Nat → Int) × (Nat → Nat → Byte) :=
  let a := st.1 p.1 p.2
  let q : Nat := if 128 ≤ a then 255 else 0
  let sg : Int := if rightToLeft c p.2 then -1 else 1
  (kr.1.foldl (fullTap kr.2 sg p.1 p.2 (a - q)) st.1, fun x y => if x = p.1 ∧ y = p.2 then BitVec.ofNat 8 q else st.2 x y)

/-- The output of error diffusion computed on a full-image error plane (R197), from corrected samples `px`. -/
def fullDiffusion (kr : List Tap × Nat) (c : Scan) (w h : Nat) (px : Nat → Nat → Int) : Nat → Nat → Byte :=
  ((scanOrder c w h).foldl (fullPixel kr c)
    (fun x y => if 0 ≤ x ∧ x < w ∧ y < h then px x.toNat y else 0, fun _ _ => 0)).2

/-- `GLUT[SRC[y*W + x]]` as a number (R188); used only where byte and entry are written. -/
def correctedLevel (src : Memory) (glut : Table 8) (w x y : Nat) : Int := entryAt glut (levelAt src (y * w + x))

/-- The offset of a register (R22). -/
def regOffset : Reg → Word
  | .cmd => 0x00000000
  | .status => 0x00000004
  | .width => 0x00000008
  | .height => 0x0000000C
  | .reflen => 0x00000010
  | .gammaLo => 0x00000018
  | .gammaHi => 0x0000001C

/-- The base offset of a table (R29). -/
def tableBase : TableId → Nat
  | .h1 => 0x1000
  | .shape => 0x1400
  | .tgt => 0x1800
  | .left => 0x1C00
  | .right => 0x2000
  | .cnt => 0x2400
  | .lut => 0x2800
  | .glut => 0x2C00

/-- The base offset of a plane (R39). -/
def planeBase : PlaneId → Nat
  | .src => 0x01000000
  | .dst => 0x02000000
  | .ref => 0x03000000

/-- What a table keeps of a word the host writes to an entry (R29): all 32 bits, or bits 7:0, zero-extended. -/
def keptWord : TableId → Word → Word
  | .h1, v => v
  | .shape, v => v
  | .tgt, v => v
  | .left, v => v &&& 0xFF
  | .right, v => v &&& 0xFF
  | .cnt, v => v
  | .lut, v => v &&& 0xFF
  | .glut, v => v &&& 0xFF

/-- An outcome with its next state changed. -/
def mapNext (f : State → State) (o : Host.Outcome State Fault Refusal) : Host.Outcome State Fault Refusal :=
  match o with
  | .next s => .next (f s)
  | .fault e => .fault e
  | .refused r => .refused r

/-- Commands one after another, each from the state the one before it left. -/
def execAll : List Instr → State → Host.Outcome State Fault Refusal
  | [], s => .next s
  | i :: is, s =>
    match exec i s with
    | .next t => execAll is t
    | .fault f => .fault f
    | .refused r => .refused r

/-- `k` steps without a fault or a refusal. -/
def safeRun (k : Nat) (s : State) : Prop := ∃ t, Sys2Proof.core.run k s = .next t

/-- The next state of an outcome, if it is one. -/
def nextOf (o : Host.Outcome State Fault Refusal) : Option State :=
  match o with
  | .next s => some s
  | .fault _ => none
  | .refused _ => none

end Sys2Proof.Machine
end

