-- ==== Sys2Proof/Certificates/Slice0/Obligations.lean ====
section
/-! DEFINITION. The statements for the provers, from the numbered rules of spec/. -/

section
open Sys2Proof Sys2Proof.Machine

/-! Encoding -/

/-- R80, R84, R86: decoding the word of a well-formed command gives the command back, with every field at every value, and a
word that decodes is the word of the command it decodes to. -/
def Obligations.DecodeAndEncodeAgree : Prop :=
  (∀ i : Instr, i.wf = true → decode (encode i) = .ok i) ∧
  (∀ (w : Word) (i : Instr), decode w = .ok i → w = encode i)

/-- R85: the 20 listed words are the legal ones, every other word has one of the three named defects, and submitting one while
idle executes nothing and sets `ERR_ILL`. -/
def Obligations.LegalWordsAreTheTwenty : Prop :=
  legalWords.length = 20 ∧ legalWords.Nodup ∧
  (∀ w : Word, (∃ i, decode w = .ok i) ↔ w ∈ legalWords) ∧
  (∀ w : Word, w ∉ legalWords ↔
    (w.extractLsb' 11 21 ≠ 0 ∨ opKnown (w.extractLsb' 0 8) = false ∨ unusedZero w = false)) ∧
  (∀ (w : Word) (s : State), s.job = none → w ∉ legalWords →
    submitWord w s = .settled (.ok { s with status := { s.status with done := false, errIll := true } }))

/-- R84: no word matches two rows. -/
def Obligations.NoWordMatchesTwoRows : Prop :=
  ∀ w : Word, ((decodeRows w).filter fun r => r.1.selects w).length ≤ 1

/-- R84: words written out from the encoding column, one of each family, decode to their commands. -/
def Obligations.SampleWordsDecode : Prop :=
  decode 0b00000000000000000000000000000000 = .ok .nop ∧
  decode 0b00000000000000000000000100000011 = .ok (.rescale .lastNonzero) ∧
  decode 0b00000000000000000000000000000101 = .ok .xremap ∧
  decode 0b00000000000000000000000000000110 = .ok .cdflut ∧
  decode 0b00000000000000000000010000001001 = .ok (.diffuse .m0 .serpentine) ∧
  decode 0b00000000000000000000001000010010 = .ok (.dither .m1 .raster) ∧
  decode 0b00000000000000000000000100000001 = .error .unusedField

/-! The step and the lifecycle -/

/-- R100: a write of a legal word to `CMD` of an idle block is the next step's submission. If no host access enters the busy
window the step runs the decoded command; else it latches the command, or reports its geometry. `withFetchWord` places such a
write. -/
def Obligations.StepRunsTheSubmittedCommand : Prop :=
  (∀ (s : State) (w : Word) (i : Instr) (rest : List Event), s.job = none → i.wf = true → decode w = .ok i →
    s.agenda = .host (.write .b32 0x00000000 w) :: rest →
    (engineNext rest = true → step s = exec i { s with agenda := rest, replies := .ack :: s.replies }) ∧
    (engineNext rest = false → step s = .next (accept i { s with agenda := rest, replies := .ack :: s.replies }))) ∧
  (∀ (s : State) (nbits w : Nat) (i : Instr), decodeTableWord nbits w = some i →
    step (s.withFetchWord nbits w) = exec i { s with job := none, agenda := [], replies := .ack :: s.replies })

/-- R101: the engine's turn runs the latched command, also when nothing is left on the agenda. -/
def Obligations.EngineTurnRunsTheLatchedCommand : Prop :=
  ∀ (s : State) (j : Job) (rest : List Event), s.job = some j →
    (s.agenda = [] → step s = exec j.cmd s) ∧
    (s.agenda = .engine :: rest → step s = exec j.cmd { s with agenda := rest })

/-- R101: executing a command as one transition, or as a submission and a later engine's turn, is the same. -/
def Obligations.ExecAfterAcceptIsExec : Prop :=
  ∀ (i : Instr) (s : State), exec i (accept i s) = exec i s

/-- R88, R100, R101, R283: `run M` with any number of polls in the busy window ends in the state of one transition; the polls
read `BUSY = 1`, the last one `BUSY = 0` and `DONE = 1`. The agenda, the engine's turn and the replies are the model's
choices (logs 1, 2 and 12). -/
def Obligations.PolledRunIsOneTransition : Prop :=
  ∀ (i : Instr) (n : Nat) (rest : List Event) (s t : State), accepts i s → exec i s = .next t →
    Sys2Proof.core.run (n + 3) { s with agenda := runPolled i n ++ rest } =
      .next { t with
        agenda := rest
        replies := .value (statusWord t) :: (List.replicate n (.value (statusWord (accept i s))) ++ .ack :: s.replies) } ∧
    (statusWord (accept i s)).getLsbD 0 = true ∧ (statusWord t).getLsbD 0 = false ∧ (statusWord t).getLsbD 1 = true

/-- R251, with R84's list as the legal words: the write of an illegal word to `CMD` of an idle block. -/
def Obligations.IllegalWordSetsErrIll : Prop :=
  ∀ (s : State) (w : Word) (rest : List Event), s.job = none → w ∉ legalWords →
    s.agenda = .host (.write .b32 0x00000000 w) :: rest →
    step s = .next { s with agenda := rest, replies := .ack :: s.replies,
                            status := { s.status with done := false, errIll := true } }

/-- R252: which commands are checked, against what, and what a rejection does. A command that passes is latched. -/
def Obligations.BadGeometrySetsErrGeom : Prop :=
  ∀ (s : State) (w : Word) (i : Instr) (rest : List Event), s.job = none → decode w = .ok i →
    s.agenda = .host (.write .b32 0x00000000 w) :: rest →
    let geometryBad := i ≠ .nop ∧ i ≠ .shape ∧ i ≠ .ivbuild ∧ i ≠ .gamma ∧
      (s.params.maxW < s.width.toNat ∨ s.params.maxH < s.height.toNat ∨
        s.params.maxPix < s.width.toNat * s.height.toNat)
    let referenceBad := (i = .shape ∨ i = .matchx ∨ i = .matcha) ∧ s.params.maxPix < s.reflen.toNat
    (geometryBad ∨ referenceBad →
      step s = .next { s with agenda := rest, replies := .ack :: s.replies,
                              status := { s.status with done := false, errGeom := true } }) ∧
    (¬(geometryBad ∨ referenceBad) →
      accept i s = { s with job := some { cmd := i, geom := latchGeom s }, status := { s.status with done := false } })

/-- R70, R253: while busy a write other than to `STATUS` is dropped and sets `ERR_BUSYWR`, a write to `STATUS` is not, a read
sets nothing, and no step but the command's completion or a reset changes a register, a table or a plane. -/
def Obligations.BusyWriteIsDropped : Prop :=
  ∀ (s : State) (j : Job) (rest : List Event), s.job = some j →
    (∀ (width : Width) (off v : Word), s.agenda = .host (.write width off v) :: rest →
      busCheck s.params width off = none →
      (off ≠ 0x00000004 →
        step s = .next { s with agenda := rest, replies := .ack :: s.replies,
                                status := { s.status with errBusywr := true } }) ∧
      (off = 0x00000004 →
        step s = .next (clearStatus v { s with agenda := rest, replies := .ack :: s.replies }))) ∧
    (∀ (width : Width) (off : Word) (t : State), s.agenda = .host (.read width off) :: rest → step s = .next t →
      t.status = s.status) ∧
    (∀ t : State, step s = .next t → t.job = some j →
      t = { s with status := t.status, agenda := t.agenda, replies := t.replies, draws := t.draws })

/-- R24, R256: a write to `STATUS`, busy or not, clears the bits 1 to 4 that are 1 in it and nothing else. -/
def Obligations.StatusWriteClearsItsOnes : Prop :=
  ∀ (s : State) (v : Word) (rest : List Event), s.agenda = .host (.write .b32 0x00000004 v) :: rest →
    step s = .next { s with
      agenda := rest
      replies := .ack :: s.replies
      status := { done := if v.getLsbD 1 then false else s.status.done
                  errIll := if v.getLsbD 2 then false else s.status.errIll
                  errGeom := if v.getLsbD 3 then false else s.status.errGeom
                  errBusywr := if v.getLsbD 4 then false else s.status.errBusywr } }

/-- R24, R65: a read of `STATUS` shows the five bits in their places, zeros above, and changes nothing. -/
def Obligations.StatusReadShowsItsBits : Prop :=
  ∀ (s : State) (rest : List Event), s.agenda = .host (.read .b32 0x00000004) :: rest →
    ∃ v : Word, step s = .next { s with agenda := rest, replies := .value v :: s.replies } ∧
      v.getLsbD 0 = s.job.isSome ∧ v.getLsbD 1 = s.status.done ∧ v.getLsbD 2 = s.status.errIll ∧
      v.getLsbD 3 = s.status.errGeom ∧ v.getLsbD 4 = s.status.errBusywr ∧ ∀ n, 5 ≤ n → v.getLsbD n = false

/-- R255: no step but a write to `STATUS` or a reset clears an error bit. -/
def Obligations.ErrorBitsAreSticky : Prop :=
  ∀ s t : State, step s = .next t →
    (∀ rest, s.agenda ≠ .reset :: rest) → (∀ width v rest, s.agenda ≠ .host (.write width 0x00000004 v) :: rest) →
    (s.status.errIll = true → t.status.errIll = true) ∧ (s.status.errGeom = true → t.status.errGeom = true) ∧
    (s.status.errBusywr = true → t.status.errBusywr = true)

/-- R291: after a submission from an idle block has run, the block is idle and `DONE` says whether the command was accepted. -/
def Obligations.DoneTellsSuccessFromRejection : Prop :=
  ∀ (i : Instr) (s t : State), s.job = none → exec i s = .next t →
    t.job = none ∧ (t.status.done = true ↔ accepts i s) ∧ (t.status.done = false → t.status.errGeom = true)

/-- R24, R291: `DONE` is set only by the completion of an accepted command. -/
def Obligations.OnlyCompletionSetsDone : Prop :=
  ∀ s t : State, step s = .next t → s.status.done = false → t.status.done = true →
    t.job = none ∧
    ((∃ j, s.job = some j ∧ engineNext s.agenda = true) ∨
     (∃ w i rest, decode w = .ok i ∧ accepts i s ∧ s.agenda = .host (.write .b32 0x00000000 w) :: rest))

/-- R44, R280: the reset input, at any time. What `RB` and the model's own fields hold is logs 11 and 14. -/
def Obligations.ResetAbandonsAndClears : Prop :=
  ∀ (s : State) (rest : List Event), s.agenda = .reset :: rest →
    ∃ t, step s = .next t ∧ t.job = none ∧ statusWord t = 0 ∧
      t.width = 0 ∧ t.height = 0 ∧ t.reflen = 0 ∧ t.gammaHi ++ t.gammaLo = 0x3FF0000000000000#64 ∧
      (∀ id i, tableWord id i t = none) ∧ (∀ p k, Memory.read (planeOf p t) k = none) ∧
      t.params = s.params ∧ t.agenda = rest

/-! Invariants and frames -/

/-- The invariant of the block holds after reset, for every legal choice of the parameters (R8, R44). -/
def Obligations.InvariantHoldsAtReset : Prop :=
  Inv State.reset ∧ ∀ p : Params, p.wf = true → Inv (State.resetWith p)

/-- Every step keeps the invariant: canonical planes within `MAX_PIX` (R39), the rolling buffer within its capacity and range
(R14, R40), the latched command checked and equal to the registers (R102, R107), `DONE = 0` while busy (R291). -/
def Obligations.EveryStepKeepsTheInvariant : Prop :=
  ∀ s t : State, Inv s → step s = .next t → Inv t

/-- R22, R39, R68: no command writes a register other than `STATUS`, or `SRC` or `REF`, or clears an error bit; `DST` bytes from
`N` on keep their values. -/
def Obligations.CommandsKeepRegistersAndInputs : Prop :=
  ∀ (i : Instr) (s t : State), s.job = none → exec i s = .next t →
    t.params = s.params ∧ t.width = s.width ∧ t.height = s.height ∧ t.reflen = s.reflen ∧
    t.gammaLo = s.gammaLo ∧ t.gammaHi = s.gammaHi ∧ t.src = s.src ∧ t.ref = s.ref ∧
    t.agenda = s.agenda ∧ t.replies = s.replies ∧ t.draws = s.draws ∧
    t.status.errIll = s.status.errIll ∧ t.status.errBusywr = s.status.errBusywr ∧
    (s.status.errGeom = true → t.status.errGeom = true) ∧
    (∀ k, pixelCount s ≤ k → Memory.read t.dst k = Memory.read s.dst k)

/-- R39: a command reads bytes `0..N-1` of `SRC` and `0..min(L,256)-1` of `REF` only. -/
def Obligations.CommandsReadOnlyTheirBytes : Prop :=
  ∀ (i : Instr) (s : State) (src' ref' : Memory), s.job = none →
    (∀ k < pixelCount s, Memory.read src' k = Memory.read s.src k) →
    (∀ k < min s.reflen.toNat 256, Memory.read ref' k = Memory.read s.ref k) →
    exec i { s with src := src', ref := ref' } = mapNext (fun t => { t with src := src', ref := ref' }) (exec i s)

/-- R189, R196 (1): nothing of a previous command's rolling buffer survives. -/
def Obligations.DiffusionIgnoresTheOldBuffer : Prop :=
  ∀ (m : Method) (c : Scan) (s : State) (rb' : List (List Int)), accepts (.diffuse m c) s →
    exec (.diffuse m c) { s with rb := rb' } = exec (.diffuse m c) s ∧
    exec (.dither m c) { s with rb := rb' } = exec (.dither m c) s

/-- R287: `HIST`, `RESCALE`, `XREMAP` and `LUTAPPLY` see the geometry only through `N`. -/
def Obligations.MatchersSeeOnlyThePixelCount : Prop :=
  ∀ (i : Instr) (s : State) (w' h' : Word),
    (i = .hist ∨ (∃ pol, i = .rescale pol) ∨ i = .xremap ∨ i = .lutapply) →
    accepts i s → accepts i { s with width := w', height := h' } → w'.toNat * h'.toNat = pixelCount s →
    exec i { s with width := w', height := h' } = mapNext (fun t => { t with width := w', height := h' }) (exec i s)

/-- R106: with `N = 0` the pixel loops run zero times and the 256-entry loops still run. -/
def Obligations.EmptyPlaneRunsNoPixelLoop : Prop :=
  ∀ (s : State) (pol : Policy) (m : Method) (c : Scan), s.job = none → pixelCount s = 0 → accepts .hist s →
    exec .hist s = .next { s with h1 := Table.ofFun fun _ => 0, status := doneStatus s } ∧
    (entriesWritten s.shape →
      exec (.rescale pol) s = .next { s with tgt := Table.ofFun fun _ => 0, status := doneStatus s }) ∧
    exec .xremap s = .next { s with cnt := Table.ofFun fun _ => 0, status := doneStatus s } ∧
    exec .lutapply s = .next { s with status := doneStatus s } ∧
    (∃ rb, exec (.diffuse m c) s = .next { s with rb := rb, status := doneStatus s } ∧
      ∀ row ∈ rb, ∀ cell ∈ row, cell = 0) ∧
    (∀ (i : Instr) (t : State), exec i s = .next t → t.dst = s.dst)

/-! The host window -/

/-- R22, R29, R39, R61: where the registers, the table entries and the plane bytes stand, and that they can be accessed there with
the widths of R64. -/
def Obligations.WindowMapPlacesAllStorage : Prop :=
  ∀ p : Params, p.wf = true →
    (∀ r, target p (regOffset r) = .reg r ∧ busCheck p .b32 (regOffset r) = none) ∧
    (∀ id i, i < 256 → target p (BitVec.ofNat 32 (tableBase id + 4 * i)) = .table id i ∧
      busCheck p .b32 (BitVec.ofNat 32 (tableBase id + 4 * i)) = none) ∧
    (∀ q k, k < p.maxPix → target p (BitVec.ofNat 32 (planeBase q + k)) = .plane q k ∧
      busCheck p .b8 (BitVec.ofNat 32 (planeBase q + k)) = none ∧
      (k % 4 = 0 → k + 3 < p.maxPix → busCheck p .b32 (BitVec.ofNat 32 (planeBase q + k)) = none))

/-- R62, R64, R258: which accesses are faults, `BUS_ALIGN` first. The 8-bit access of an offset below the plane windows and the
word that straddles `MAX_PIX` are the model's reading (logs 9 and 10). -/
def Obligations.BusFaultsByWidthAndOffset : Prop :=
  ∀ (p : Params) (off : Word), p.wf = true →
    busCheck p .b16 off = some .align ∧ busCheck p .b64 off = some .align ∧
    (off.toNat % 4 ≠ 0 → busCheck p .b32 off = some .align) ∧
    (off.toNat < 0x01000000 ∨ 0x04000000 ≤ off.toNat → busCheck p .b8 off = some .align) ∧
    (off.toNat % 4 = 0 →
      off.toNat = 0x14 ∨ (0x20 ≤ off.toNat ∧ off.toNat < 0x1000) ∨ (0x3000 ≤ off.toNat ∧ off.toNat < 0x01000000) ∨
        0x04000000 ≤ off.toNat →
      busCheck p .b32 off = some .unmapped) ∧
    (∀ q k, p.maxPix ≤ k → k < 2 ^ 24 → off.toNat = planeBase q + k →
      busCheck p .b8 off = some .unmapped ∧ (off.toNat % 4 = 0 → busCheck p .b32 off = some .unmapped)) ∧
    (∀ q k, k < p.maxPix → p.maxPix ≤ k + 3 → off.toNat = planeBase q + k → busCheck p .b32 off = some .align)

/-- R258: a faulting access changes no state of the block, busy or not, and answers the fault. -/
def Obligations.BusFaultChangesNothing : Prop :=
  ∀ (s : State) (width : Width) (off v : Word) (k : BusKind) (rest : List Event),
    busCheck s.params width off = some k →
    s.agenda = .host (.read width off) :: rest ∨ s.agenda = .host (.write width off v) :: rest →
    step s = .next { s with agenda := rest, replies := .busFault k off :: s.replies }

/-- R22, R23, R25 to R28, R65: a register other than `CMD` and `STATUS` keeps all 32 bits of a write made while idle, and reads
back, busy or idle, without a side effect. `CMD` reads 0. -/
def Obligations.RegistersKeepAndReadBack : Prop :=
  ∀ (s : State) (v : Word) (rest : List Event),
    (∀ r, r ≠ .cmd → r ≠ .status → s.job = none → s.agenda = wr (regOffset r) v :: rd (regOffset r) :: rest →
      ∃ t, Sys2Proof.core.run 2 s = .next t ∧ t.replies = .value v :: .ack :: s.replies ∧ readReg r t = v ∧
        (∀ r', r' ≠ r → readReg r' t = readReg r' s) ∧
        t = { s with width := t.width, height := t.height, reflen := t.reflen, gammaLo := t.gammaLo,
                     gammaHi := t.gammaHi, agenda := rest, replies := t.replies }) ∧
    (∀ r, s.agenda = rd (regOffset r) :: rest →
      step s = .next { s with agenda := rest, replies := .value (readReg r s) :: s.replies }) ∧
    readReg .cmd s = 0

/-- R29, R30: an entry keeps what a write made while idle stores, 8 bits of it in a `u8` table, and reads it back zero-extended;
no other entry changes. -/
def Obligations.TableEntriesKeepAndReadBack : Prop :=
  ∀ (s : State) (id : TableId) (i : Nat) (v : Word) (rest : List Event), s.job = none → i < 256 →
    s.agenda = wr (BitVec.ofNat 32 (tableBase id + 4 * i)) v :: rd (BitVec.ofNat 32 (tableBase id + 4 * i)) :: rest →
    ∃ t, Sys2Proof.core.run 2 s = .next t ∧ t.replies = .value (keptWord id v) :: .ack :: s.replies ∧
      tableWord id i t = some (keptWord id v) ∧
      (∀ id' i', ¬(id' = id ∧ i' = i) → tableWord id' i' t = tableWord id' i' s) ∧
      t = { s with h1 := t.h1, shape := t.shape, tgt := t.tgt, left := t.left, right := t.right, cnt := t.cnt, lut := t.lut,
                   glut := t.glut, agenda := rest, replies := t.replies }

/-- R63: a 32-bit access of a plane while idle is little-endian; the write changes the four bytes and nothing else, the read
nothing. -/
def Obligations.PlaneWordsAreLittleEndian : Prop :=
  ∀ (s : State) (q : PlaneId) (k : Nat) (rest : List Event), s.params.wf = true → s.job = none →
    k % 4 = 0 → k + 3 < s.params.maxPix →
    (∀ v : Word, s.agenda = wr (BitVec.ofNat 32 (planeBase q + k)) v :: rest →
      ∃ m, step s = .next (setPlane q m { s with agenda := rest, replies := .ack :: s.replies }) ∧
        Memory.read m k = some (v.extractLsb' 0 8) ∧ Memory.read m (k + 1) = some (v.extractLsb' 8 8) ∧
        Memory.read m (k + 2) = some (v.extractLsb' 16 8) ∧ Memory.read m (k + 3) = some (v.extractLsb' 24 8) ∧
        ∀ k', k' < k ∨ k + 3 < k' → Memory.read m k' = Memory.read (planeOf q s) k') ∧
    (∀ b0 b1 b2 b3 : Byte, s.agenda = rd (BitVec.ofNat 32 (planeBase q + k)) :: rest →
      Memory.read (planeOf q s) k = some b0 → Memory.read (planeOf q s) (k + 1) = some b1 →
      Memory.read (planeOf q s) (k + 2) = some b2 → Memory.read (planeOf q s) (k + 3) = some b3 →
      step s = .next { s with agenda := rest, replies := .value (b3 ++ b2 ++ b1 ++ b0) :: s.replies })

/-- R61, R64: an 8-bit access of a plane while idle, at every offset below `MAX_PIX`. -/
def Obligations.PlaneBytesKeepAndReadBack : Prop :=
  ∀ (s : State) (q : PlaneId) (k : Nat) (v : Word) (rest : List Event), s.params.wf = true → s.job = none →
    k < s.params.maxPix →
    s.agenda = wrb (BitVec.ofNat 32 (planeBase q + k)) v :: rdb (BitVec.ofNat 32 (planeBase q + k)) :: rest →
    ∃ m, Sys2Proof.core.run 2 s = .next (setPlane q m { s with
        agenda := rest
        replies := .value (v &&& 0xFF) :: .ack :: s.replies }) ∧
      Memory.read m k = some (v.extractLsb' 0 8) ∧
      ∀ k', k' ≠ k → Memory.read m k' = Memory.read (planeOf q s) k'

/-- R69 (c): a read of a written entry or of written plane bytes while busy answers a draw, of which nothing is known, and
changes only the count of draws. The form of the draw, of which an 8-bit read gives the low byte, is log 7. -/
def Obligations.BusyTableReadIsADraw : Prop :=
  ∀ (s : State) (j : Job) (rest : List Event), s.job = some j →
    (∀ id i v, i < 256 → tableWord id i s = some v → s.agenda = rd (BitVec.ofNat 32 (tableBase id + 4 * i)) :: rest →
      step s = .next { s with agenda := rest, replies := .value (Config.busyDraw s.draws) :: s.replies, draws := s.draws + 1 }) ∧
    (∀ q k, s.params.wf = true → k % 4 = 0 → k + 3 < s.params.maxPix →
      (∀ n < 4, (Memory.read (planeOf q s) (k + n)).isSome = true) →
      s.agenda = rd (BitVec.ofNat 32 (planeBase q + k)) :: rest →
      step s = .next { s with agenda := rest, replies := .value (Config.busyDraw s.draws) :: s.replies, draws := s.draws + 1 }) ∧
    (∀ q k, s.params.wf = true → k < s.params.maxPix → (Memory.read (planeOf q s) k).isSome = true →
      s.agenda = rdb (BitVec.ofNat 32 (planeBase q + k)) :: rest →
      step s = .next { s with
        agenda := rest
        replies := .value (Config.busyDraw s.draws &&& 0xFF) :: s.replies
        draws := s.draws + 1 })

/-- R259 for host reads, idle or busy: an unwritten entry or byte stops the model. Which byte of a word is named is log 8. -/
def Obligations.UnwrittenHostReadFaults : Prop :=
  ∀ (s : State) (rest : List Event), s.params.wf = true →
    (∀ id i, i < 256 → tableWord id i s = none → s.agenda = rd (BitVec.ofNat 32 (tableBase id + 4 * i)) :: rest →
      step s = .fault (.unwrittenRead (.table id i))) ∧
    (∀ q k, k < s.params.maxPix → Memory.read (planeOf q s) k = none →
      s.agenda = rdb (BitVec.ofNat 32 (planeBase q + k)) :: rest →
      step s = .fault (.unwrittenRead (.plane q k))) ∧
    (∀ q k n, k % 4 = 0 → k + 3 < s.params.maxPix → n < 4 → Memory.read (planeOf q s) (k + n) = none →
      (∀ n' < n, (Memory.read (planeOf q s) (k + n')).isSome = true) →
      s.agenda = rd (BitVec.ofNat 32 (planeBase q + k)) :: rest →
      step s = .fault (.unwrittenRead (.plane q (k + n))))

/-! Control, histogram, shape -/

/-- R105. -/
def Obligations.NopOnlySetsDone : Prop :=
  encode .nop = 0x00000000 ∧
  (∀ s : State, s.job = none → exec .nop s = .next { s with status := { s.status with done := true } }) ∧
  (∀ (s : State) (j : Job) (rest : List Event), s.job = some j →
    s.agenda = .host (.write .b32 0x00000000 0x00000000) :: rest →
    step s = .next { s with agenda := rest, replies := .ack :: s.replies,
                            status := { s.status with errBusywr := true } })

/-- R120: the counts and their sum, the geometry error, and the fault of R259. That the fault names the FIRST unwritten byte is
read from R67's order (log 8). -/
def Obligations.HistCountsTheLevels : Prop :=
  encode .hist = 0x00000001 ∧
  ∀ s : State, s.params.wf = true → s.job = none →
    (geomOk s.params (latchGeom s) = false →
      exec .hist s = .next { s with status := { s.status with done := false, errGeom := true } }) ∧
    (geomOk s.params (latchGeom s) = true → bytesWritten s.src (pixelCount s) →
      exec .hist s = .next { s with
        h1 := Table.ofFun fun v => BitVec.ofNat 32 (occurrences s.src (pixelCount s) v)
        status := doneStatus s } ∧
      (∀ v, occurrences s.src (pixelCount s) v < 2 ^ 32) ∧
      ∑ v ∈ Finset.range 256, occurrences s.src (pixelCount s) v = pixelCount s) ∧
    (∀ k, geomOk s.params (latchGeom s) = true → k < pixelCount s → bytesWritten s.src k → Memory.read s.src k = none →
      exec .hist s = .fault (.unwrittenRead (.plane .src k)))

/-- R121: the samples zero-extended, the padding, the geometry error, and the fault of R259. That the fault names the FIRST
unwritten sample is read from R67's order (log 8). -/
def Obligations.ShapeCopiesTheSamples : Prop :=
  encode .shape = 0x00000002 ∧
  ∀ s : State, s.job = none →
    (s.params.maxPix < s.reflen.toNat →
      exec .shape s = .next { s with status := { s.status with done := false, errGeom := true } }) ∧
    (s.reflen.toNat ≤ s.params.maxPix → bytesWritten s.ref (min s.reflen.toNat 256) →
      exec .shape s = .next { s with
        shape := Table.ofFun fun k => if k < s.reflen.toNat then BitVec.ofNat 32 (levelAt s.ref k) else 0
        status := doneStatus s }) ∧
    (∀ k, s.reflen.toNat ≤ s.params.maxPix → k < min s.reflen.toNat 256 → bytesWritten s.ref k → Memory.read s.ref k = none →
      exec .shape s = .fault (.unwrittenRead (.plane .ref k)))

/-! The rescaler -/

/-- R124: the flat path, whatever the policy. -/
def Obligations.ZeroShapeRescalesFlat : Prop :=
  ∀ (shape : List Nat) (total : Nat) (pol : Policy), shape.length = 256 → shape.sum ≤ 0 →
    (rescale shape total pol).length = 256 ∧
    ∀ k < 256, (rescale shape total pol).getD k 0 = total / 256 + if k < total % 256 then 1 else 0

/-- R125, R126: the scaled path in closed form. Bin `k` holds the scaled value capped by what remains of the total; a shortfall
goes to bin 255, or under `LAST_NONZERO` to the last bin the loop left nonzero if there is one. -/
def Obligations.PositiveShapeRescalesScaled : Prop :=
  ∀ (shape : List Nat) (total : Nat) (pol : Policy) (b : Nat), shape.length = 256 → 0 < shape.sum → b < 256 →
    (match pol with
     | .last => b = 255
     | .lastNonzero => (0 < cappedShape shape total b ∧ ∀ k, b < k → k < 256 → cappedShape shape total k = 0) ∨
         (b = 255 ∧ ∀ k < 256, cappedShape shape total k = 0)) →
    (rescale shape total pol).length = 256 ∧
    ∀ k < 256, (rescale shape total pol).getD k 0 =
      cappedShape shape total k +
        if k = b then total - ∑ j ∈ Finset.range 256, cappedShape shape total j else 0

/-- R128: sum, range, zero total, the capped form of the loop, and when the policies agree. -/
def Obligations.RescalePreservesTheTotal : Prop :=
  ∀ (shape : List Nat) (total : Nat) (pol : Policy), shape.length = 256 →
    (rescale shape total pol).sum = total ∧
    (∀ x ∈ rescale shape total pol, x ≤ total) ∧
    (∀ x ∈ rescale shape 0 pol, x = 0) ∧
    (0 < shape.sum → ∀ k < 256,
      (rescaleLoop total shape.sum shape 0 false).1.getD k 0 =
        min (scaleBin total shape.sum (shape.getD k 0))
          (total - ((rescaleLoop total shape.sum shape 0 false).1.take k).sum)) ∧
    (shape.sum = 0 ∨ (rescaleLoop total shape.sum shape 0 false).2 = total →
      rescale shape total .last = rescale shape total .lastNonzero) ∧
    (rescale shape total .last ≠ rescale shape total .lastNonzero →
      (rescaleLoop total shape.sum shape 0 false).2 < total ∧
      lastNonzeroFrom (rescaleLoop total shape.sum shape 0 false).1 0 255 ≠ 255)

/-- R127, corner case: multiplying every entry of the shape by one positive integer changes nothing. -/
def Obligations.RescaleIgnoresTheShapesScale : Prop :=
  ∀ (shape : List Nat) (total c : Nat) (pol : Policy), 0 < c →
    rescale (shape.map (c * ·)) total pol = rescale shape total pol

/-- R127: the command writes the rescaled shape to `TGT` with `N` as the total, and every value fits its entry. R259: an
unwritten entry of `SHAPE` stops it. -/
def Obligations.RescaleWritesTheTarget : Prop :=
  ∀ (pol : Policy) (s : State), s.params.wf = true → accepts (.rescale pol) s →
    (entriesWritten s.shape →
      exec (.rescale pol) s = .next { s with
        tgt := Table.ofFun fun k => BitVec.ofNat 32 ((rescale (tableValues s.shape) (pixelCount s) pol).getD k 0)
        status := doneStatus s } ∧
      ∀ k < 256, (rescale (tableValues s.shape) (pixelCount s) pol).getD k 0 < 2 ^ 32) ∧
    (¬entriesWritten s.shape →
      ∃ k < 256, Table.get s.shape k = none ∧ exec (.rescale pol) s = .fault (.unwrittenRead (.table .shape k)))

/-! The exact matcher -/

/-- R140 in closed form: `RIGHT[i]` is the least bin whose cumulative target reaches the cumulative source at `i`, at most 255,
and `LEFT[i]` is `RIGHT[i-1]`, or 0 for the first level. No geometry is checked. R282, R259: it needs `H1` and the bins of
`TGT` that the loop tests, and an unwritten one of these stops it. -/
def Obligations.IvbuildPlacesTheCrossings : Prop :=
  ∀ s : State, s.job = none →
    (entriesWritten s.h1 → testedBinsWritten s.h1 s.tgt →
      exec .ivbuild s = .next { s with
        left := Table.ofFun fun i => if i = 0 then 0 else BitVec.ofNat 8 (crossing (entryAt s.h1) (entryAt s.tgt) (i - 1))
        right := Table.ofFun fun i => BitVec.ofNat 8 (crossing (entryAt s.h1) (entryAt s.tgt) i)
        status := doneStatus s }) ∧
    (¬(entriesWritten s.h1 ∧ testedBinsWritten s.h1 s.tgt) →
      ∃ k < 256, (Table.get s.h1 k = none ∧ exec .ivbuild s = .fault (.unwrittenRead (.table .h1 k))) ∨
        (Table.get s.tgt k = none ∧ exec .ivbuild s = .fault (.unwrittenRead (.table .tgt k))))

/-- R141, for whatever `H1` and `TGT` hold. -/
def Obligations.IntervalTableIsContiguous : Prop :=
  ∀ s t : State, exec .ivbuild s = .next t → entriesWritten t.left ∧ entriesWritten t.right ∧
    entryAt t.left 0 = 0 ∧
    (∀ i < 256, entryAt t.left i ≤ entryAt t.right i) ∧
    (∀ i < 255, entryAt t.right i = entryAt t.left (i + 1)) ∧
    (∀ i j, i ≤ j → j < 256 → entryAt t.left i ≤ entryAt t.left j ∧ entryAt t.right i ≤ entryAt t.right j) ∧
    (∀ i < 256, entryAt t.left i ≤ 255 ∧ entryAt t.right i ≤ 255)

/-- R142, R143: `XREMAP` is the sequential scan over levels as numbers. R282, R259: it needs what the scan reads, of `TGT` the
bins reached only, and an unwritten byte or entry among these stops it. -/
def Obligations.XremapFollowsTheScan : Prop :=
  ∀ s : State, s.params.wf = true → accepts .xremap s →
    ((∀ k < pixelCount s, remapReadsWritten s k) →
      let scan := scanRemap (levelAt s.src) (entryAt s.left) (entryAt s.right) (entryAt s.tgt) (pixelCount s)
      ∃ left' dst', exec .xremap s = .next { s with
          left := left', cnt := Table.ofFun fun b => BitVec.ofNat 32 (scan.2.1 b), dst := dst', status := doneStatus s } ∧
        (∀ v, Table.get left' v = (Table.get s.left v).map fun _ => BitVec.ofNat 8 (scan.1 v)) ∧
        (∀ v, scan.1 v < 256) ∧ (∀ b, scan.2.1 b < 2 ^ 32) ∧
        (∀ k, Memory.read dst' k =
          if k < pixelCount s then some (BitVec.ofNat 8 (scan.2.2.getD k 0)) else Memory.read s.dst k)) ∧
    (ready .xremap s → ∀ k < pixelCount s, remapReadsWritten s k) ∧
    (¬(∀ k < pixelCount s, remapReadsWritten s k) →
      (∃ k < pixelCount s, (Memory.read s.src k = none ∧ exec .xremap s = .fault (.unwrittenRead (.plane .src k))) ∨
        ∃ v, Memory.read s.src k = some v ∧
          ((Table.get s.left v.toNat = none ∧ exec .xremap s = .fault (.unwrittenRead (.table .left v.toNat))) ∨
           (Table.get s.right v.toNat = none ∧ exec .xremap s = .fault (.unwrittenRead (.table .right v.toNat))))) ∨
      ∃ b < 256, Table.get s.tgt b = none ∧ exec .xremap s = .fault (.unwrittenRead (.table .tgt b)))

/-- R144 (1) to (3): the range of the outputs, the motion of `LEFT`, and the counts, for a table with `LEFT ≤ RIGHT`. -/
def Obligations.XremapStaysInItsIntervals : Prop :=
  ∀ s t : State, s.params.wf = true → accepts .xremap s → exec .xremap s = .next t →
    (∀ k < pixelCount s, entryAt s.left (levelAt s.src k) ≤ entryAt s.right (levelAt s.src k)) →
    (∀ k < pixelCount s, entryAt s.left (levelAt s.src k) ≤ levelAt t.dst k ∧
      levelAt t.dst k ≤ entryAt s.right (levelAt s.src k)) ∧
    (∀ k < pixelCount s, entryAt s.left (levelAt s.src k) ≤ entryAt t.left (levelAt s.src k) ∧
      entryAt t.left (levelAt s.src k) ≤ entryAt s.right (levelAt s.src k) ∧
      entryAt t.left (levelAt s.src k) ≤
        entryAt s.left (levelAt s.src k) + occurrences s.src (pixelCount s) (levelAt s.src k)) ∧
    (∀ b < 256, entryAt t.cnt b = occurrences t.dst (pixelCount s) b) ∧
    ∑ b ∈ Finset.range 256, entryAt t.cnt b = pixelCount s

/-! The approximate matcher -/

/-- R160, R161 in closed form: the entry at a level is the nearer of the crossing bin and the bin below, a tie to the lower.
R259: an unwritten entry of `H1` or `TGT` stops it. Where R160's corner cases 4 and 5 contradict its pseudocode, this is
the pseudocode, which is the model's reading (log 25). -/
def Obligations.CdflutPicksTheNearestLevel : Prop :=
  ∀ s : State, accepts .cdflut s →
    (ready .cdflut s →
      exec .cdflut s = .next { s with
        lut := Table.ofFun fun i => BitVec.ofNat 8 (nearestLevel (entryAt s.h1) (entryAt s.tgt) i)
        status := doneStatus s }) ∧
    (¬ready .cdflut s →
      ∃ k < 256, (Table.get s.h1 k = none ∧ exec .cdflut s = .fault (.unwrittenRead (.table .h1 k))) ∨
        (Table.get s.tgt k = none ∧ exec .cdflut s = .fault (.unwrittenRead (.table .tgt k))))

/-- R162: the table is non-decreasing for every `H1` and `TGT`, and it need not be injective. -/
def Obligations.LutIsNonDecreasing : Prop :=
  (∀ s t : State, accepts .cdflut s → exec .cdflut s = .next t → entriesWritten t.lut ∧
    ∀ i j, i ≤ j → j < 256 → entryAt t.lut i ≤ entryAt t.lut j) ∧
  (∃ s t : State, accepts .cdflut s ∧ exec .cdflut s = .next t ∧ ∃ i < 256, ∃ j < 256, i ≠ j ∧ entryAt t.lut i = entryAt t.lut j)

/-- R163: each output byte is the entry of its source byte's level; what is not ready faults. -/
def Obligations.LutapplyMapsEachByte : Prop :=
  encode .lutapply = 0x00000007 ∧
  ∀ s : State, s.job = none →
    (geomOk s.params (latchGeom s) = false →
      exec .lutapply s = .next { s with status := { s.status with done := false, errGeom := true } }) ∧
    (geomOk s.params (latchGeom s) = true → ready .lutapply s →
      ∃ dst', exec .lutapply s = .next { s with dst := dst', status := doneStatus s } ∧
        ∀ k, Memory.read dst' k =
          if k < pixelCount s then some (BitVec.ofNat 8 (entryAt s.lut (levelAt s.src k))) else Memory.read s.dst k) ∧
    (geomOk s.params (latchGeom s) = true → ¬ready .lutapply s →
      ∃ k < pixelCount s, (Memory.read s.src k = none ∧ exec .lutapply s = .fault (.unwrittenRead (.plane .src k))) ∨
        ∃ v, Memory.read s.src k = some v ∧ Table.get s.lut v.toNat = none ∧
          exec .lutapply s = .fault (.unwrittenRead (.table .lut v.toNat)))

/-! The error-diffusion engine -/

/-- R13: the nearest integer to `n/d`, a tie away from zero. -/
def Obligations.RoundingIsNearestTiesAway : Prop :=
  ∀ (n : Int) (d : Nat), 0 < d →
    2 * |n - roundHalfAway n d * d| ≤ d ∧
    (2 * |n - roundHalfAway n d * d| = d → |n| < |roundHalfAway n d * d|)

/-- R181, with its laws L1 to L6, for the exponents that a binary64 pattern can give (R182): `+inf` and `m * 2^e`. `gammaFn` is
the function that R181 defines; what an instance may take in its place (R8, log 4) is in `GammaWritesItsTable`. -/
def Obligations.GammaFnRoundsRealPower : Prop :=
  (∀ (m : Nat) (e : Int) (v : Nat), 0 < m → v ≤ 255 →
    gammaFn (.dyadic m e) v = ⌊255 * ((v : ℝ) / 255) ^ ((m : ℝ) * (2 : ℝ) ^ e) + 1 / 2⌋₊) ∧
  (∀ v ≤ 255, gammaFn .infinite v = if v < 255 then 0 else 255) ∧
  (∀ v ≤ 255, gammaFn (.dyadic 1 0) v = v) ∧
  (∀ n v : Nat, 0 < n → v ≤ 255 → (gammaFn (.dyadic n 0) v : Int) = roundHalfAway ((v ^ n : Nat) : Int) (255 ^ (n - 1))) ∧
  (∀ g : Exponent, (∀ e, g ≠ .dyadic 0 e) →
    gammaFn g 0 = 0 ∧ gammaFn g 255 = 255 ∧ (∀ v ≤ 255, gammaFn g v ≤ 255) ∧
    ∀ u v, u ≤ v → v ≤ 255 → gammaFn g u ≤ gammaFn g v)

/-- R182: the effective exponent of every bit pattern, a positive number; a negative power of two stands beside an odd `m`, so
that the integers are the exponents with `0 ≤ e`. The layout with bias 1023 and least exponent -1022 is general knowledge, as
the rule itself marks it (log 21). -/
def Obligations.EffectiveGammaIsSanitized : Prop :=
  ∀ g : DWord,
    let ex := (g.extractLsb' 52 11).toNat
    let fr := (g.extractLsb' 0 52).toNat
    (ex = 2047 ∧ fr ≠ 0 → effGamma g = .dyadic 1 0) ∧
    (g.getLsbD 63 = true ∨ (ex = 0 ∧ fr = 0) → effGamma g = .dyadic 1 0) ∧
    (g = 0x7FF0000000000000#64 → effGamma g = .infinite) ∧
    (g.getLsbD 63 = false → 0 < ex → ex < 2047 →
      ∃ m e, effGamma g = .dyadic m e ∧ (m : ℚ) * 2 ^ e = (1 + (fr : ℚ) / 2 ^ 52) * 2 ^ ((ex : Int) - 1023)) ∧
    (g.getLsbD 63 = false → ex = 0 → fr ≠ 0 →
      ∃ m e, effGamma g = .dyadic m e ∧ (m : ℚ) * 2 ^ e = (fr : ℚ) / 2 ^ 52 * 2 ^ (-1022 : Int)) ∧
    (∀ m e, effGamma g = .dyadic m e → 0 < m ∧ (e < 0 → m % 2 = 1))

/-- R180, R8: the table of the effective exponent by the instance's `gammaFn`; no other state is read or written. That function
is R181's, or at a non-integer exponent one that obeys L1, L2, L4 and L6; every function that obeys them is some instance's
there, and other exponents are not touched by the choice. The form of the parameter is log 4. -/
def Obligations.GammaWritesItsTable : Prop :=
  encode .gamma = 0x00000008 ∧
  (∀ s : State, s.job = none →
    exec .gamma s = .next { s with
      glut := Table.ofFun fun v => BitVec.ofNat 8 (gammaOf s.params (effGamma (s.gammaHi ++ s.gammaLo)) v)
      status := doneStatus s }) ∧
  (∀ (p : Params) (g : Exponent), p.wf = true →
    gammaOf p g = gammaFn g ∨
    ∃ num shift : Nat, num % 2 = 1 ∧ 0 < shift ∧ g = .dyadic num (-(shift : Int)) ∧
      gammaOf p g 0 = 0 ∧ gammaOf p g 255 = 255 ∧ (∀ v ≤ 255, gammaOf p g v ≤ 255) ∧
      ∀ u v, u ≤ v → v ≤ 255 → gammaOf p g u ≤ gammaOf p g v) ∧
  (∀ (p : Params) (num shift : Nat) (f : Nat → Nat), p.wf = true → num % 2 = 1 → 0 < shift →
    f 0 = 0 → f 255 = 255 → (∀ u v, u ≤ v → v ≤ 255 → f u ≤ f v) →
    ∃ rows, ({ p with gammaRows := rows } : Params).wf = true ∧
      (∀ v ≤ 255, gammaOf { p with gammaRows := rows } (.dyadic num (-(shift : Int))) v = f v) ∧
      ∀ g, g ≠ .dyadic num (-(shift : Int)) → gammaOf { p with gammaRows := rows } g = gammaOf p g) ∧
  (∀ p : Params, p.gammaRows = [] → gammaOf p = gammaFn)

/-- R183 to R186: `METH = 0` selects the four taps of R184 and `METH = 1` the tap table of the instance, with the denominators,
radii and buffer rows of R184 to R186; the default table is R185's, which the rule marks as general knowledge (logs 3 and 5).
Under every legal choice of the table the weights sum to the denominator, the taps are distinct and on later pixels only, and
the extents are those of the taps. -/
def Obligations.KernelsHaveTheirExtents : Prop :=
  (∀ p : Params,
    kernelOf p .m0 = { taps := [⟨1, 0, 7⟩, ⟨-1, 1, 3⟩, ⟨0, 1, 5⟩, ⟨1, 1, 1⟩], den := 16, rx := 1, rows := 2 } ∧
    kernelOf p .m1 = { taps := p.kernel1Taps, den := 48, rx := 2, rows := 3 }) ∧
  State.reset.params.kernel1Taps =
    [⟨1, 0, 7⟩, ⟨2, 0, 5⟩, ⟨-2, 1, 3⟩, ⟨-1, 1, 5⟩, ⟨0, 1, 7⟩, ⟨1, 1, 5⟩, ⟨2, 1, 3⟩,
     ⟨-2, 2, 1⟩, ⟨-1, 2, 3⟩, ⟨0, 2, 5⟩, ⟨1, 2, 3⟩, ⟨2, 2, 1⟩] ∧
  (∀ (p : Params) (m : Method), p.wf = true →
    let kr := kernelOf p m
    (kr.taps.map Tap.w).sum = kr.den ∧ (kr.taps.map fun t => (t.dx, t.dy)).Nodup ∧
    (∀ t ∈ kr.taps, t.dx.natAbs ≤ kr.rx ∧ t.dy + 1 ≤ kr.rows ∧ (t.dy = 0 → 0 < t.dx)) ∧
    (∃ t ∈ kr.taps, t.dx.natAbs = kr.rx) ∧ (∃ t ∈ kr.taps, t.dy + 1 = kr.rows))

/-- R191. -/
def Obligations.QuantizerThresholdIs128 : Prop :=
  ∀ a : Int, (128 ≤ a → quantize a = 255) ∧ (a < 128 → quantize a = 0)

/-- R190, R192, R14: the direction of a row, the residual, the saturation; and one pixel's taps write distinct cells, each once,
saturated, and no other cell; the order of the taps does not matter. -/
def Obligations.TapsWriteDistinctCells : Prop :=
  (∀ (c : Scan) (y : Nat), rowSign c y = if c = .serpentine ∧ y % 2 = 1 then -1 else 1) ∧
  (∀ (c : Scan) (w y : Nat), (List.range w).map (scanColumn c w y) =
    if c = .serpentine ∧ y % 2 = 1 then (List.range w).reverse else List.range w) ∧
  (∀ a : Int, Sys2Proof.Machine.residual a = a - if 128 ≤ a then 255 else 0) ∧
  (∀ v : Int, sat16 v = max (-32768) (min 32767 v)) ∧
  ∀ (p : Params) (m : Method) (sg : Int) (w x y : Nat) (e : Int) (rb : List (List Int)), p.wf = true → sg = 1 ∨ sg = -1 →
    x < w → rb.length = (kernelOf p m).rows → (∀ row ∈ rb, row.length = w + 2 * (kernelOf p m).rx) →
    let kr := kernelOf p m
    (∀ t ∈ kr.taps, readCell (distribute kr sg x y e rb) ((y + t.dy) % kr.rows) (x + sg * t.dx + kr.rx).toNat =
      sat16 (readCell rb ((y + t.dy) % kr.rows) (x + sg * t.dx + kr.rx).toNat + roundHalfAway (e * t.w) kr.den)) ∧
    (∀ slot pos : Nat, (∀ t ∈ kr.taps, ¬(slot = (y + t.dy) % kr.rows ∧ (pos : Int) = x + sg * t.dx + kr.rx)) →
      readCell (distribute kr sg x y e rb) slot pos = readCell rb slot pos) ∧
    (∀ taps', taps'.Perm kr.taps → distribute { kr with taps := taps' } sg x y e rb = distribute kr sg x y e rb)

/-- R194, R197: the ring computes the output of error diffusion over a full-image error plane, for both kernels and scans; the
scan, the taps, the residual and the saturation of that plane are written from R184, R185, R190 to R192 and R14. R259: an
unwritten byte of `SRC`, or entry of `GLUT` at its level, stops it. -/
def Obligations.DiffuseEqualsFullImage : Prop :=
  ∀ (m : Method) (c : Scan) (s : State), s.params.wf = true → accepts (.diffuse m c) s →
    (ready (.diffuse m c) s →
      ∃ rb' dst', exec (.diffuse m c) s = .next { s with rb := rb', dst := dst', status := doneStatus s } ∧
        (∀ x y, x < s.width.toNat → y < s.height.toNat →
          Memory.read dst' (y * s.width.toNat + x) =
            some (fullDiffusion (statedTaps s.params m) c s.width.toNat s.height.toNat
              (correctedLevel s.src s.glut s.width.toNat) x y)) ∧
        (∀ k, pixelCount s ≤ k → Memory.read dst' k = Memory.read s.dst k)) ∧
    (¬ready (.diffuse m c) s →
      ∃ k < pixelCount s, (Memory.read s.src k = none ∧ exec (.diffuse m c) s = .fault (.unwrittenRead (.plane .src k))) ∨
        ∃ v, Memory.read s.src k = some v ∧ Table.get s.glut v.toNat = none ∧
          exec (.diffuse m c) s = .fault (.unwrittenRead (.table .glut v.toNat)))

/-- R194 (5), R196 (2): the output is bi-level, and bytes from `N` on are kept. -/
def Obligations.DiffusionOutputIsBilevel : Prop :=
  ∀ (m : Method) (c : Scan) (s t : State), accepts (.diffuse m c) s → exec (.diffuse m c) s = .next t →
    (∀ k < pixelCount s, Memory.read t.dst k = some 0 ∨ Memory.read t.dst k = some 255) ∧
    (∀ k, pixelCount s ≤ k → Memory.read t.dst k = Memory.read s.dst k) ∧
    t = { s with rb := t.rb, dst := t.dst, status := doneStatus s }

/-! Composites and completion -/

/-- R108: a composite is its components in order, and its checks are the union of theirs. -/
def Obligations.CompositesAreTheirComponents : Prop :=
  (∀ (p : Params) (g : Geom) (m : Method) (c : Scan),
    (checksOk p .matchx g = true ↔ ∀ i ∈ [.hist, .shape, .rescale .last, .ivbuild, .xremap], checksOk p i g = true) ∧
    (checksOk p .matcha g = true ↔
      ∀ i ∈ [.hist, .shape, .rescale .lastNonzero, .cdflut, .lutapply], checksOk p i g = true) ∧
    (checksOk p (.dither m c) g = true ↔ ∀ i ∈ [.gamma, .diffuse m c], checksOk p i g = true)) ∧
  (∀ s : State, accepts .matchx s → exec .matchx s = execAll [.hist, .shape, .rescale .last, .ivbuild, .xremap] s) ∧
  (∀ s : State, accepts .matcha s → exec .matcha s = execAll [.hist, .shape, .rescale .lastNonzero, .cdflut, .lutapply] s) ∧
  (∀ (m : Method) (c : Scan) (s : State), accepts (.dither m c) s →
    exec (.dither m c) s = execAll [.gamma, .diffuse m c] s)

/-- R104, R250, R282: a command that is accepted, with what R282 lists written before it, completes; what it can write is the
tables, `DST`, the buffer and `DONE`. -/
def Obligations.ReadyCommandsComplete : Prop :=
  ∀ (i : Instr) (s : State), accepts i s → ready i s →
    ∃ t, exec i s = .next t ∧ t.job = none ∧ t.status = doneStatus s ∧
      t = { s with h1 := t.h1, shape := t.shape, tgt := t.tgt, left := t.left, right := t.right, cnt := t.cnt, lut := t.lut,
                   glut := t.glut, dst := t.dst, rb := t.rb, status := doneStatus s }

/-- R250, R259: an accepted command raises no error and is never refused; the one way it can stop is `UNWRITTEN_READ` of a place
that is unwritten before the command. -/
def Obligations.OnlyUnwrittenReadsStopACommand : Prop :=
  ∀ (i : Instr) (s : State), accepts i s →
    (∃ t, exec i s = .next t ∧ t.status = doneStatus s) ∨
    (∃ id k, exec i s = .fault (.unwrittenRead (.table id k)) ∧ tableWord id k s = none) ∨
    (∃ q k, exec i s = .fault (.unwrittenRead (.plane q k)) ∧ Memory.read (planeOf q s) k = none)

end
end

