-- ==== Sys2Proof/Laws/Arith.lean ====
section
/-! SUPPORT. The laws of rounding, saturation and quantizing. -/

namespace Sys2Proof.Machine

theorem roundHalfAway_of_nonneg {n : Int} (d : Nat) (h : 0 ≤ n) : roundHalfAway n d = (2 * n + d) / (2 * d) := by
  simp [roundHalfAway, h]

theorem roundHalfAway_nat (n d : Nat) : roundHalfAway (n : Int) d = (((2 * n + d) / (2 * d) : Nat) : Int) := by
  rw [roundHalfAway_of_nonneg d (Int.natCast_nonneg n)]
  push_cast
  rfl

theorem roundHalfAway_neg (n : Int) (d : Nat) (hd : 0 < d) : roundHalfAway (-n) d = -roundHalfAway n d := by
  rcases lt_trichotomy n 0 with h | h | h
  · rw [roundHalfAway, if_pos (by omega), roundHalfAway, if_neg (by omega)]; simp
  · subst h
    have : ((d : Int)) / (2 * d) = 0 := Int.ediv_eq_zero_of_lt (by omega) (by omega)
    simp [roundHalfAway, this]
  · rw [roundHalfAway, if_neg (by omega), roundHalfAway, if_pos (by omega)]; simp

theorem sat16_lower (v : Int) : -32768 ≤ sat16 v := by unfold sat16; omega

theorem sat16_upper (v : Int) : sat16 v ≤ 32767 := by unfold sat16; omega

theorem sat16_of_range {v : Int} (h1 : -32768 ≤ v) (h2 : v ≤ 32767) : sat16 v = v := by unfold sat16; omega

theorem quantize_cases (a : Int) : quantize a = 0#8 ∨ quantize a = 255#8 := by
  unfold quantize; split
  · exact .inr rfl
  · exact .inl rfl

end Sys2Proof.Machine
end

