-- ==== Sys2Proof/Laws/State.lean ====
section
/-! SUPPORT. One lemma per field for each named update of the state. -/

namespace Sys2Proof.Machine

@[simp] theorem clearStatus_params (v : Word) (s : State) : (clearStatus v s).params = s.params := rfl
@[simp] theorem clearStatus_width (v : Word) (s : State) : (clearStatus v s).width = s.width := rfl
@[simp] theorem clearStatus_height (v : Word) (s : State) : (clearStatus v s).height = s.height := rfl
@[simp] theorem clearStatus_reflen (v : Word) (s : State) : (clearStatus v s).reflen = s.reflen := rfl
@[simp] theorem clearStatus_gammaLo (v : Word) (s : State) : (clearStatus v s).gammaLo = s.gammaLo := rfl
@[simp] theorem clearStatus_gammaHi (v : Word) (s : State) : (clearStatus v s).gammaHi = s.gammaHi := rfl
@[simp] theorem clearStatus_h1 (v : Word) (s : State) : (clearStatus v s).h1 = s.h1 := rfl
@[simp] theorem clearStatus_shape (v : Word) (s : State) : (clearStatus v s).shape = s.shape := rfl
@[simp] theorem clearStatus_tgt (v : Word) (s : State) : (clearStatus v s).tgt = s.tgt := rfl
@[simp] theorem clearStatus_left (v : Word) (s : State) : (clearStatus v s).left = s.left := rfl
@[simp] theorem clearStatus_right (v : Word) (s : State) : (clearStatus v s).right = s.right := rfl
@[simp] theorem clearStatus_cnt (v : Word) (s : State) : (clearStatus v s).cnt = s.cnt := rfl
@[simp] theorem clearStatus_lut (v : Word) (s : State) : (clearStatus v s).lut = s.lut := rfl
@[simp] theorem clearStatus_glut (v : Word) (s : State) : (clearStatus v s).glut = s.glut := rfl
@[simp] theorem clearStatus_src (v : Word) (s : State) : (clearStatus v s).src = s.src := rfl
@[simp] theorem clearStatus_dst (v : Word) (s : State) : (clearStatus v s).dst = s.dst := rfl
@[simp] theorem clearStatus_ref (v : Word) (s : State) : (clearStatus v s).ref = s.ref := rfl
@[simp] theorem clearStatus_rb (v : Word) (s : State) : (clearStatus v s).rb = s.rb := rfl
@[simp] theorem clearStatus_job (v : Word) (s : State) : (clearStatus v s).job = s.job := rfl
@[simp] theorem clearStatus_agenda (v : Word) (s : State) : (clearStatus v s).agenda = s.agenda := rfl
@[simp] theorem clearStatus_replies (v : Word) (s : State) : (clearStatus v s).replies = s.replies := rfl
@[simp] theorem clearStatus_draws (v : Word) (s : State) : (clearStatus v s).draws = s.draws := rfl

@[simp] theorem clearDone_params (s : State) : (clearDone s).params = s.params := rfl
@[simp] theorem clearDone_status (s : State) : (clearDone s).status = { s.status with done := false } := rfl
@[simp] theorem clearDone_width (s : State) : (clearDone s).width = s.width := rfl
@[simp] theorem clearDone_height (s : State) : (clearDone s).height = s.height := rfl
@[simp] theorem clearDone_reflen (s : State) : (clearDone s).reflen = s.reflen := rfl
@[simp] theorem clearDone_gammaLo (s : State) : (clearDone s).gammaLo = s.gammaLo := rfl
@[simp] theorem clearDone_gammaHi (s : State) : (clearDone s).gammaHi = s.gammaHi := rfl
@[simp] theorem clearDone_h1 (s : State) : (clearDone s).h1 = s.h1 := rfl
@[simp] theorem clearDone_shape (s : State) : (clearDone s).shape = s.shape := rfl
@[simp] theorem clearDone_tgt (s : State) : (clearDone s).tgt = s.tgt := rfl
@[simp] theorem clearDone_left (s : State) : (clearDone s).left = s.left := rfl
@[simp] theorem clearDone_right (s : State) : (clearDone s).right = s.right := rfl
@[simp] theorem clearDone_cnt (s : State) : (clearDone s).cnt = s.cnt := rfl
@[simp] theorem clearDone_lut (s : State) : (clearDone s).lut = s.lut := rfl
@[simp] theorem clearDone_glut (s : State) : (clearDone s).glut = s.glut := rfl
@[simp] theorem clearDone_src (s : State) : (clearDone s).src = s.src := rfl
@[simp] theorem clearDone_dst (s : State) : (clearDone s).dst = s.dst := rfl
@[simp] theorem clearDone_ref (s : State) : (clearDone s).ref = s.ref := rfl
@[simp] theorem clearDone_rb (s : State) : (clearDone s).rb = s.rb := rfl
@[simp] theorem clearDone_job (s : State) : (clearDone s).job = s.job := rfl
@[simp] theorem clearDone_agenda (s : State) : (clearDone s).agenda = s.agenda := rfl
@[simp] theorem clearDone_replies (s : State) : (clearDone s).replies = s.replies := rfl
@[simp] theorem clearDone_draws (s : State) : (clearDone s).draws = s.draws := rfl

@[simp] theorem raiseError_params (e : CmdError) (s : State) : (raiseError e s).params = s.params := by cases e <;> rfl
@[simp] theorem raiseError_width (e : CmdError) (s : State) : (raiseError e s).width = s.width := by cases e <;> rfl
@[simp] theorem raiseError_height (e : CmdError) (s : State) : (raiseError e s).height = s.height := by cases e <;> rfl
@[simp] theorem raiseError_reflen (e : CmdError) (s : State) : (raiseError e s).reflen = s.reflen := by cases e <;> rfl
@[simp] theorem raiseError_gammaLo (e : CmdError) (s : State) : (raiseError e s).gammaLo = s.gammaLo := by cases e <;> rfl
@[simp] theorem raiseError_gammaHi (e : CmdError) (s : State) : (raiseError e s).gammaHi = s.gammaHi := by cases e <;> rfl
@[simp] theorem raiseError_h1 (e : CmdError) (s : State) : (raiseError e s).h1 = s.h1 := by cases e <;> rfl
@[simp] theorem raiseError_shape (e : CmdError) (s : State) : (raiseError e s).shape = s.shape := by cases e <;> rfl
@[simp] theorem raiseError_tgt (e : CmdError) (s : State) : (raiseError e s).tgt = s.tgt := by cases e <;> rfl
@[simp] theorem raiseError_left (e : CmdError) (s : State) : (raiseError e s).left = s.left := by cases e <;> rfl
@[simp] theorem raiseError_right (e : CmdError) (s : State) : (raiseError e s).right = s.right := by cases e <;> rfl
@[simp] theorem raiseError_cnt (e : CmdError) (s : State) : (raiseError e s).cnt = s.cnt := by cases e <;> rfl
@[simp] theorem raiseError_lut (e : CmdError) (s : State) : (raiseError e s).lut = s.lut := by cases e <;> rfl
@[simp] theorem raiseError_glut (e : CmdError) (s : State) : (raiseError e s).glut = s.glut := by cases e <;> rfl
@[simp] theorem raiseError_src (e : CmdError) (s : State) : (raiseError e s).src = s.src := by cases e <;> rfl
@[simp] theorem raiseError_dst (e : CmdError) (s : State) : (raiseError e s).dst = s.dst := by cases e <;> rfl
@[simp] theorem raiseError_ref (e : CmdError) (s : State) : (raiseError e s).ref = s.ref := by cases e <;> rfl
@[simp] theorem raiseError_rb (e : CmdError) (s : State) : (raiseError e s).rb = s.rb := by cases e <;> rfl
@[simp] theorem raiseError_job (e : CmdError) (s : State) : (raiseError e s).job = s.job := by cases e <;> rfl
@[simp] theorem raiseError_agenda (e : CmdError) (s : State) : (raiseError e s).agenda = s.agenda := by cases e <;> rfl
@[simp] theorem raiseError_replies (e : CmdError) (s : State) : (raiseError e s).replies = s.replies := by cases e <;> rfl
@[simp] theorem raiseError_draws (e : CmdError) (s : State) : (raiseError e s).draws = s.draws := by cases e <;> rfl

@[simp] theorem rejectIllegal_params (s : State) : (rejectIllegal s).params = s.params := rfl
@[simp] theorem rejectIllegal_status (s : State) : (rejectIllegal s).status = { s.status with done := false, errIll := true } := rfl
@[simp] theorem rejectIllegal_width (s : State) : (rejectIllegal s).width = s.width := rfl
@[simp] theorem rejectIllegal_height (s : State) : (rejectIllegal s).height = s.height := rfl
@[simp] theorem rejectIllegal_reflen (s : State) : (rejectIllegal s).reflen = s.reflen := rfl
@[simp] theorem rejectIllegal_gammaLo (s : State) : (rejectIllegal s).gammaLo = s.gammaLo := rfl
@[simp] theorem rejectIllegal_gammaHi (s : State) : (rejectIllegal s).gammaHi = s.gammaHi := rfl
@[simp] theorem rejectIllegal_h1 (s : State) : (rejectIllegal s).h1 = s.h1 := rfl
@[simp] theorem rejectIllegal_shape (s : State) : (rejectIllegal s).shape = s.shape := rfl
@[simp] theorem rejectIllegal_tgt (s : State) : (rejectIllegal s).tgt = s.tgt := rfl
@[simp] theorem rejectIllegal_left (s : State) : (rejectIllegal s).left = s.left := rfl
@[simp] theorem rejectIllegal_right (s : State) : (rejectIllegal s).right = s.right := rfl
@[simp] theorem rejectIllegal_cnt (s : State) : (rejectIllegal s).cnt = s.cnt := rfl
@[simp] theorem rejectIllegal_lut (s : State) : (rejectIllegal s).lut = s.lut := rfl
@[simp] theorem rejectIllegal_glut (s : State) : (rejectIllegal s).glut = s.glut := rfl
@[simp] theorem rejectIllegal_src (s : State) : (rejectIllegal s).src = s.src := rfl
@[simp] theorem rejectIllegal_dst (s : State) : (rejectIllegal s).dst = s.dst := rfl
@[simp] theorem rejectIllegal_ref (s : State) : (rejectIllegal s).ref = s.ref := rfl
@[simp] theorem rejectIllegal_rb (s : State) : (rejectIllegal s).rb = s.rb := rfl
@[simp] theorem rejectIllegal_job (s : State) : (rejectIllegal s).job = s.job := rfl
@[simp] theorem rejectIllegal_agenda (s : State) : (rejectIllegal s).agenda = s.agenda := rfl
@[simp] theorem rejectIllegal_replies (s : State) : (rejectIllegal s).replies = s.replies := rfl
@[simp] theorem rejectIllegal_draws (s : State) : (rejectIllegal s).draws = s.draws := rfl

@[simp] theorem finish_params (s : State) : (finish s).params = s.params := rfl
@[simp] theorem finish_status (s : State) : (finish s).status = { s.status with done := true } := rfl
@[simp] theorem finish_width (s : State) : (finish s).width = s.width := rfl
@[simp] theorem finish_height (s : State) : (finish s).height = s.height := rfl
@[simp] theorem finish_reflen (s : State) : (finish s).reflen = s.reflen := rfl
@[simp] theorem finish_gammaLo (s : State) : (finish s).gammaLo = s.gammaLo := rfl
@[simp] theorem finish_gammaHi (s : State) : (finish s).gammaHi = s.gammaHi := rfl
@[simp] theorem finish_h1 (s : State) : (finish s).h1 = s.h1 := rfl
@[simp] theorem finish_shape (s : State) : (finish s).shape = s.shape := rfl
@[simp] theorem finish_tgt (s : State) : (finish s).tgt = s.tgt := rfl
@[simp] theorem finish_left (s : State) : (finish s).left = s.left := rfl
@[simp] theorem finish_right (s : State) : (finish s).right = s.right := rfl
@[simp] theorem finish_cnt (s : State) : (finish s).cnt = s.cnt := rfl
@[simp] theorem finish_lut (s : State) : (finish s).lut = s.lut := rfl
@[simp] theorem finish_glut (s : State) : (finish s).glut = s.glut := rfl
@[simp] theorem finish_src (s : State) : (finish s).src = s.src := rfl
@[simp] theorem finish_dst (s : State) : (finish s).dst = s.dst := rfl
@[simp] theorem finish_ref (s : State) : (finish s).ref = s.ref := rfl
@[simp] theorem finish_rb (s : State) : (finish s).rb = s.rb := rfl
@[simp] theorem finish_job (s : State) : (finish s).job = none := rfl
@[simp] theorem finish_agenda (s : State) : (finish s).agenda = s.agenda := rfl
@[simp] theorem finish_replies (s : State) : (finish s).replies = s.replies := rfl
@[simp] theorem finish_draws (s : State) : (finish s).draws = s.draws := rfl

@[simp] theorem answer_params (r : Reply) (s : State) : (answer r s).params = s.params := rfl
@[simp] theorem answer_status (r : Reply) (s : State) : (answer r s).status = s.status := rfl
@[simp] theorem answer_width (r : Reply) (s : State) : (answer r s).width = s.width := rfl
@[simp] theorem answer_height (r : Reply) (s : State) : (answer r s).height = s.height := rfl
@[simp] theorem answer_reflen (r : Reply) (s : State) : (answer r s).reflen = s.reflen := rfl
@[simp] theorem answer_gammaLo (r : Reply) (s : State) : (answer r s).gammaLo = s.gammaLo := rfl
@[simp] theorem answer_gammaHi (r : Reply) (s : State) : (answer r s).gammaHi = s.gammaHi := rfl
@[simp] theorem answer_h1 (r : Reply) (s : State) : (answer r s).h1 = s.h1 := rfl
@[simp] theorem answer_shape (r : Reply) (s : State) : (answer r s).shape = s.shape := rfl
@[simp] theorem answer_tgt (r : Reply) (s : State) : (answer r s).tgt = s.tgt := rfl
@[simp] theorem answer_left (r : Reply) (s : State) : (answer r s).left = s.left := rfl
@[simp] theorem answer_right (r : Reply) (s : State) : (answer r s).right = s.right := rfl
@[simp] theorem answer_cnt (r : Reply) (s : State) : (answer r s).cnt = s.cnt := rfl
@[simp] theorem answer_lut (r : Reply) (s : State) : (answer r s).lut = s.lut := rfl
@[simp] theorem answer_glut (r : Reply) (s : State) : (answer r s).glut = s.glut := rfl
@[simp] theorem answer_src (r : Reply) (s : State) : (answer r s).src = s.src := rfl
@[simp] theorem answer_dst (r : Reply) (s : State) : (answer r s).dst = s.dst := rfl
@[simp] theorem answer_ref (r : Reply) (s : State) : (answer r s).ref = s.ref := rfl
@[simp] theorem answer_rb (r : Reply) (s : State) : (answer r s).rb = s.rb := rfl
@[simp] theorem answer_job (r : Reply) (s : State) : (answer r s).job = s.job := rfl
@[simp] theorem answer_agenda (r : Reply) (s : State) : (answer r s).agenda = s.agenda := rfl
@[simp] theorem answer_replies (r : Reply) (s : State) : (answer r s).replies = r :: s.replies := rfl
@[simp] theorem answer_draws (r : Reply) (s : State) : (answer r s).draws = s.draws := rfl

@[simp] theorem assertReset_params (s : State) : (assertReset s).params = s.params := rfl
@[simp] theorem assertReset_status (s : State) : (assertReset s).status = (State.resetWith s.params).status := rfl
@[simp] theorem assertReset_width (s : State) : (assertReset s).width = (State.resetWith s.params).width := rfl
@[simp] theorem assertReset_height (s : State) : (assertReset s).height = (State.resetWith s.params).height := rfl
@[simp] theorem assertReset_reflen (s : State) : (assertReset s).reflen = (State.resetWith s.params).reflen := rfl
@[simp] theorem assertReset_gammaLo (s : State) : (assertReset s).gammaLo = (State.resetWith s.params).gammaLo := rfl
@[simp] theorem assertReset_gammaHi (s : State) : (assertReset s).gammaHi = (State.resetWith s.params).gammaHi := rfl
@[simp] theorem assertReset_h1 (s : State) : (assertReset s).h1 = (State.resetWith s.params).h1 := rfl
@[simp] theorem assertReset_shape (s : State) : (assertReset s).shape = (State.resetWith s.params).shape := rfl
@[simp] theorem assertReset_tgt (s : State) : (assertReset s).tgt = (State.resetWith s.params).tgt := rfl
@[simp] theorem assertReset_left (s : State) : (assertReset s).left = (State.resetWith s.params).left := rfl
@[simp] theorem assertReset_right (s : State) : (assertReset s).right = (State.resetWith s.params).right := rfl
@[simp] theorem assertReset_cnt (s : State) : (assertReset s).cnt = (State.resetWith s.params).cnt := rfl
@[simp] theorem assertReset_lut (s : State) : (assertReset s).lut = (State.resetWith s.params).lut := rfl
@[simp] theorem assertReset_glut (s : State) : (assertReset s).glut = (State.resetWith s.params).glut := rfl
@[simp] theorem assertReset_src (s : State) : (assertReset s).src = (State.resetWith s.params).src := rfl
@[simp] theorem assertReset_dst (s : State) : (assertReset s).dst = (State.resetWith s.params).dst := rfl
@[simp] theorem assertReset_ref (s : State) : (assertReset s).ref = (State.resetWith s.params).ref := rfl
@[simp] theorem assertReset_rb (s : State) : (assertReset s).rb = (State.resetWith s.params).rb := rfl
@[simp] theorem assertReset_job (s : State) : (assertReset s).job = (State.resetWith s.params).job := rfl
@[simp] theorem assertReset_agenda (s : State) : (assertReset s).agenda = s.agenda := rfl
@[simp] theorem assertReset_replies (s : State) : (assertReset s).replies = s.replies := rfl
@[simp] theorem assertReset_draws (s : State) : (assertReset s).draws = s.draws := rfl

@[simp] theorem placeCommand_params (w : Word) (s : State) : (placeCommand w s).params = s.params := rfl
@[simp] theorem placeCommand_status (w : Word) (s : State) : (placeCommand w s).status = s.status := rfl
@[simp] theorem placeCommand_width (w : Word) (s : State) : (placeCommand w s).width = s.width := rfl
@[simp] theorem placeCommand_height (w : Word) (s : State) : (placeCommand w s).height = s.height := rfl
@[simp] theorem placeCommand_reflen (w : Word) (s : State) : (placeCommand w s).reflen = s.reflen := rfl
@[simp] theorem placeCommand_gammaLo (w : Word) (s : State) : (placeCommand w s).gammaLo = s.gammaLo := rfl
@[simp] theorem placeCommand_gammaHi (w : Word) (s : State) : (placeCommand w s).gammaHi = s.gammaHi := rfl
@[simp] theorem placeCommand_h1 (w : Word) (s : State) : (placeCommand w s).h1 = s.h1 := rfl
@[simp] theorem placeCommand_shape (w : Word) (s : State) : (placeCommand w s).shape = s.shape := rfl
@[simp] theorem placeCommand_tgt (w : Word) (s : State) : (placeCommand w s).tgt = s.tgt := rfl
@[simp] theorem placeCommand_left (w : Word) (s : State) : (placeCommand w s).left = s.left := rfl
@[simp] theorem placeCommand_right (w : Word) (s : State) : (placeCommand w s).right = s.right := rfl
@[simp] theorem placeCommand_cnt (w : Word) (s : State) : (placeCommand w s).cnt = s.cnt := rfl
@[simp] theorem placeCommand_lut (w : Word) (s : State) : (placeCommand w s).lut = s.lut := rfl
@[simp] theorem placeCommand_glut (w : Word) (s : State) : (placeCommand w s).glut = s.glut := rfl
@[simp] theorem placeCommand_src (w : Word) (s : State) : (placeCommand w s).src = s.src := rfl
@[simp] theorem placeCommand_dst (w : Word) (s : State) : (placeCommand w s).dst = s.dst := rfl
@[simp] theorem placeCommand_ref (w : Word) (s : State) : (placeCommand w s).ref = s.ref := rfl
@[simp] theorem placeCommand_rb (w : Word) (s : State) : (placeCommand w s).rb = s.rb := rfl
@[simp] theorem placeCommand_job (w : Word) (s : State) : (placeCommand w s).job = none := rfl
@[simp] theorem placeCommand_agenda (w : Word) (s : State) : (placeCommand w s).agenda = [.host (.write .b32 0x00000000 w)] := rfl
@[simp] theorem placeCommand_replies (w : Word) (s : State) : (placeCommand w s).replies = s.replies := rfl
@[simp] theorem placeCommand_draws (w : Word) (s : State) : (placeCommand w s).draws = s.draws := rfl

@[simp] theorem clearStatus_done (v : Word) (s : State) : (clearStatus v s).status.done = (s.status.done && !v.getLsbD 1) := rfl
@[simp] theorem clearStatus_errIll (v : Word) (s : State) : (clearStatus v s).status.errIll = (s.status.errIll && !v.getLsbD 2) := rfl
@[simp] theorem clearStatus_errGeom (v : Word) (s : State) : (clearStatus v s).status.errGeom = (s.status.errGeom && !v.getLsbD 3) := rfl
@[simp] theorem clearStatus_errBusywr (v : Word) (s : State) : (clearStatus v s).status.errBusywr = (s.status.errBusywr && !v.getLsbD 4) := rfl

@[simp] theorem raiseError_illegal (s : State) : (raiseError .illegal s).status = { s.status with errIll := true } := rfl
@[simp] theorem raiseError_geometry (s : State) : (raiseError .geometry s).status = { s.status with errGeom := true } := rfl
@[simp] theorem raiseError_busyWrite (s : State) : (raiseError .busyWrite s).status = { s.status with errBusywr := true } := rfl

@[simp] theorem setPlane_params (p : PlaneId) (m : Memory) (s : State) : (setPlane p m s).params = s.params := by cases p <;> rfl
@[simp] theorem setPlane_status (p : PlaneId) (m : Memory) (s : State) : (setPlane p m s).status = s.status := by cases p <;> rfl
@[simp] theorem setPlane_width (p : PlaneId) (m : Memory) (s : State) : (setPlane p m s).width = s.width := by cases p <;> rfl
@[simp] theorem setPlane_height (p : PlaneId) (m : Memory) (s : State) : (setPlane p m s).height = s.height := by cases p <;> rfl
@[simp] theorem setPlane_reflen (p : PlaneId) (m : Memory) (s : State) : (setPlane p m s).reflen = s.reflen := by cases p <;> rfl
@[simp] theorem setPlane_gammaLo (p : PlaneId) (m : Memory) (s : State) : (setPlane p m s).gammaLo = s.gammaLo := by cases p <;> rfl
@[simp] theorem setPlane_gammaHi (p : PlaneId) (m : Memory) (s : State) : (setPlane p m s).gammaHi = s.gammaHi := by cases p <;> rfl
@[simp] theorem setPlane_h1 (p : PlaneId) (m : Memory) (s : State) : (setPlane p m s).h1 = s.h1 := by cases p <;> rfl
@[simp] theorem setPlane_shape (p : PlaneId) (m : Memory) (s : State) : (setPlane p m s).shape = s.shape := by cases p <;> rfl
@[simp] theorem setPlane_tgt (p : PlaneId) (m : Memory) (s : State) : (setPlane p m s).tgt = s.tgt := by cases p <;> rfl
@[simp] theorem setPlane_left (p : PlaneId) (m : Memory) (s : State) : (setPlane p m s).left = s.left := by cases p <;> rfl
@[simp] theorem setPlane_right (p : PlaneId) (m : Memory) (s : State) : (setPlane p m s).right = s.right := by cases p <;> rfl
@[simp] theorem setPlane_cnt (p : PlaneId) (m : Memory) (s : State) : (setPlane p m s).cnt = s.cnt := by cases p <;> rfl
@[simp] theorem setPlane_lut (p : PlaneId) (m : Memory) (s : State) : (setPlane p m s).lut = s.lut := by cases p <;> rfl
@[simp] theorem setPlane_glut (p : PlaneId) (m : Memory) (s : State) : (setPlane p m s).glut = s.glut := by cases p <;> rfl
@[simp] theorem setPlane_rb (p : PlaneId) (m : Memory) (s : State) : (setPlane p m s).rb = s.rb := by cases p <;> rfl
@[simp] theorem setPlane_job (p : PlaneId) (m : Memory) (s : State) : (setPlane p m s).job = s.job := by cases p <;> rfl
@[simp] theorem setPlane_agenda (p : PlaneId) (m : Memory) (s : State) : (setPlane p m s).agenda = s.agenda := by cases p <;> rfl
@[simp] theorem setPlane_replies (p : PlaneId) (m : Memory) (s : State) : (setPlane p m s).replies = s.replies := by cases p <;> rfl
@[simp] theorem setPlane_draws (p : PlaneId) (m : Memory) (s : State) : (setPlane p m s).draws = s.draws := by cases p <;> rfl

@[simp] theorem setTableWord_params (t : TableId) (i : Nat) (v : Word) (s : State) : (setTableWord t i v s).params = s.params := by cases t <;> rfl
@[simp] theorem setTableWord_status (t : TableId) (i : Nat) (v : Word) (s : State) : (setTableWord t i v s).status = s.status := by cases t <;> rfl
@[simp] theorem setTableWord_width (t : TableId) (i : Nat) (v : Word) (s : State) : (setTableWord t i v s).width = s.width := by cases t <;> rfl
@[simp] theorem setTableWord_height (t : TableId) (i : Nat) (v : Word) (s : State) : (setTableWord t i v s).height = s.height := by cases t <;> rfl
@[simp] theorem setTableWord_reflen (t : TableId) (i : Nat) (v : Word) (s : State) : (setTableWord t i v s).reflen = s.reflen := by cases t <;> rfl
@[simp] theorem setTableWord_gammaLo (t : TableId) (i : Nat) (v : Word) (s : State) : (setTableWord t i v s).gammaLo = s.gammaLo := by cases t <;> rfl
@[simp] theorem setTableWord_gammaHi (t : TableId) (i : Nat) (v : Word) (s : State) : (setTableWord t i v s).gammaHi = s.gammaHi := by cases t <;> rfl
@[simp] theorem setTableWord_src (t : TableId) (i : Nat) (v : Word) (s : State) : (setTableWord t i v s).src = s.src := by cases t <;> rfl
@[simp] theorem setTableWord_dst (t : TableId) (i : Nat) (v : Word) (s : State) : (setTableWord t i v s).dst = s.dst := by cases t <;> rfl
@[simp] theorem setTableWord_ref (t : TableId) (i : Nat) (v : Word) (s : State) : (setTableWord t i v s).ref = s.ref := by cases t <;> rfl
@[simp] theorem setTableWord_rb (t : TableId) (i : Nat) (v : Word) (s : State) : (setTableWord t i v s).rb = s.rb := by cases t <;> rfl
@[simp] theorem setTableWord_job (t : TableId) (i : Nat) (v : Word) (s : State) : (setTableWord t i v s).job = s.job := by cases t <;> rfl
@[simp] theorem setTableWord_agenda (t : TableId) (i : Nat) (v : Word) (s : State) : (setTableWord t i v s).agenda = s.agenda := by cases t <;> rfl
@[simp] theorem setTableWord_replies (t : TableId) (i : Nat) (v : Word) (s : State) : (setTableWord t i v s).replies = s.replies := by cases t <;> rfl
@[simp] theorem setTableWord_draws (t : TableId) (i : Nat) (v : Word) (s : State) : (setTableWord t i v s).draws = s.draws := by cases t <;> rfl

@[simp] theorem writeReg_params (r : Reg) (v : Word) (s : State) : (writeReg r v s).params = s.params := by cases r <;> rfl
@[simp] theorem writeReg_h1 (r : Reg) (v : Word) (s : State) : (writeReg r v s).h1 = s.h1 := by cases r <;> rfl
@[simp] theorem writeReg_shape (r : Reg) (v : Word) (s : State) : (writeReg r v s).shape = s.shape := by cases r <;> rfl
@[simp] theorem writeReg_tgt (r : Reg) (v : Word) (s : State) : (writeReg r v s).tgt = s.tgt := by cases r <;> rfl
@[simp] theorem writeReg_left (r : Reg) (v : Word) (s : State) : (writeReg r v s).left = s.left := by cases r <;> rfl
@[simp] theorem writeReg_right (r : Reg) (v : Word) (s : State) : (writeReg r v s).right = s.right := by cases r <;> rfl
@[simp] theorem writeReg_cnt (r : Reg) (v : Word) (s : State) : (writeReg r v s).cnt = s.cnt := by cases r <;> rfl
@[simp] theorem writeReg_lut (r : Reg) (v : Word) (s : State) : (writeReg r v s).lut = s.lut := by cases r <;> rfl
@[simp] theorem writeReg_glut (r : Reg) (v : Word) (s : State) : (writeReg r v s).glut = s.glut := by cases r <;> rfl
@[simp] theorem writeReg_src (r : Reg) (v : Word) (s : State) : (writeReg r v s).src = s.src := by cases r <;> rfl
@[simp] theorem writeReg_dst (r : Reg) (v : Word) (s : State) : (writeReg r v s).dst = s.dst := by cases r <;> rfl
@[simp] theorem writeReg_ref (r : Reg) (v : Word) (s : State) : (writeReg r v s).ref = s.ref := by cases r <;> rfl
@[simp] theorem writeReg_rb (r : Reg) (v : Word) (s : State) : (writeReg r v s).rb = s.rb := by cases r <;> rfl
@[simp] theorem writeReg_job (r : Reg) (v : Word) (s : State) : (writeReg r v s).job = s.job := by cases r <;> rfl
@[simp] theorem writeReg_agenda (r : Reg) (v : Word) (s : State) : (writeReg r v s).agenda = s.agenda := by cases r <;> rfl
@[simp] theorem writeReg_replies (r : Reg) (v : Word) (s : State) : (writeReg r v s).replies = s.replies := by cases r <;> rfl
@[simp] theorem writeReg_draws (r : Reg) (v : Word) (s : State) : (writeReg r v s).draws = s.draws := by cases r <;> rfl

@[simp] theorem planeOf_setPlane (p : PlaneId) (m : Memory) (s : State) : planeOf p (setPlane p m s) = m := by cases p <;> rfl

theorem planeOf_setPlane_other {p q : PlaneId} (h : q ≠ p) (m : Memory) (s : State) :
    planeOf q (setPlane p m s) = planeOf q s := by
  cases p <;> cases q <;> first | exact absurd rfl h | rfl

/-- Two states with equal fields are equal. -/
theorem state_ext {s t : State} (h0 : s.params = t.params) (h1 : s.status = t.status) (h2 : s.width = t.width) (h3 : s.height = t.height) (h4 : s.reflen = t.reflen) (h5 : s.gammaLo = t.gammaLo) (h6 : s.gammaHi = t.gammaHi) (h7 : s.h1 = t.h1) (h8 : s.shape = t.shape) (h9 : s.tgt = t.tgt) (h10 : s.left = t.left) (h11 : s.right = t.right) (h12 : s.cnt = t.cnt) (h13 : s.lut = t.lut) (h14 : s.glut = t.glut) (h15 : s.src = t.src) (h16 : s.dst = t.dst) (h17 : s.ref = t.ref) (h18 : s.rb = t.rb) (h19 : s.job = t.job) (h20 : s.agenda = t.agenda) (h21 : s.replies = t.replies) (h22 : s.draws = t.draws) :
    s = t := by
  cases s; cases t; simp_all

@[simp] theorem busy_finish (s : State) : busy (finish s) = false := rfl

theorem busy_eq_false {s : State} : busy s = false ↔ s.job = none := by
  unfold busy; cases s.job <;> simp

end Sys2Proof.Machine
end

