-- ==== Sys2Proof/Laws/Lifecycle.lean ====
section
/-! SUPPORT. The lifecycle of a command, said once: what `accept` and `runCommand` can do, and every meaning as `runCommand` of
its body. -/

namespace Sys2Proof.Machine

theorem accept_busy {i : Instr} {s : State} {j : Job} (h : s.job = some j) : accept i s = s := by
  simp [accept, h]

theorem accept_accepted {i : Instr} {s : State} (h : s.job = none) (hc : checksOk s.params i (latchGeom s) = true) :
    accept i s = { clearDone s with job := some { cmd := i, geom := latchGeom s } } := by
  simp [accept, h, hc]

theorem accept_rejected {i : Instr} {s : State} (h : s.job = none) (hc : checksOk s.params i (latchGeom s) = false) :
    accept i s = raiseError .geometry (clearDone s) := by
  simp [accept, h, hc]

/-- What a submission can do. -/
theorem accept_cases (i : Instr) (s : State) :
    (∃ j, s.job = some j ∧ accept i s = s) ∨
    (s.job = none ∧ checksOk s.params i (latchGeom s) = true ∧
      accept i s = { clearDone s with job := some { cmd := i, geom := latchGeom s } }) ∨
    (s.job = none ∧ checksOk s.params i (latchGeom s) = false ∧ accept i s = raiseError .geometry (clearDone s)) := by
  cases h : s.job with
  | some j => exact .inl ⟨j, rfl, accept_busy h⟩
  | none =>
    cases hc : checksOk s.params i (latchGeom s) with
    | true => exact .inr (.inl ⟨rfl, rfl, accept_accepted h hc⟩)
    | false => exact .inr (.inr ⟨rfl, rfl, accept_rejected h hc⟩)

theorem conclude_next {o : Except Fault State} {t : State} : conclude o = .next t ↔ ∃ u, o = .ok u ∧ t = finish u := by
  cases o <;> simp [conclude, eq_comm]

theorem conclude_fault {o : Except Fault State} {f : Fault} : conclude o = .fault f ↔ o = .error f := by
  cases o <;> simp [conclude]

theorem conclude_not_refused {o : Except Fault State} {r : Refusal} : conclude o ≠ .refused r := by
  cases o <;> simp [conclude]

theorem runCommand_accepted {i : Instr} {body : Geom → State → Except Fault State} {s : State} (h : s.job = none)
    (hc : checksOk s.params i (latchGeom s) = true) :
    runCommand i body s = conclude (body (latchGeom s) (accept i s)) := by
  simp [runCommand, accept_accepted h hc]

theorem runCommand_rejected {i : Instr} {body : Geom → State → Except Fault State} {s : State} (h : s.job = none)
    (hc : checksOk s.params i (latchGeom s) = false) :
    runCommand i body s = .next (raiseError .geometry (clearDone s)) := by
  simp [runCommand, accept_rejected h hc, h]

theorem runCommand_latched {i : Instr} {body : Geom → State → Except Fault State} {s : State} {j : Job}
    (h : s.job = some j) : runCommand i body s = conclude (body j.geom s) := by
  simp [runCommand, accept_busy h, h]

/-- What a command can do when it answers a next state: it was rejected for its geometry, or its body ran to its end. -/
theorem runCommand_next {i : Instr} {body : Geom → State → Except Fault State} {s t : State}
    (h : runCommand i body s = .next t) :
    (s.job = none ∧ checksOk s.params i (latchGeom s) = false ∧ t = raiseError .geometry (clearDone s)) ∨
    (∃ j u, (accept i s).job = some j ∧ body j.geom (accept i s) = .ok u ∧ t = finish u) := by
  rcases accept_cases i s with ⟨j, hj, ha⟩ | ⟨hj, hc, ha⟩ | ⟨hj, hc, ha⟩
  · rw [runCommand_latched hj] at h
    obtain ⟨u, hu, rfl⟩ := conclude_next.1 h
    exact .inr ⟨j, u, by rw [ha, hj], by rw [ha, hu], rfl⟩
  · rw [runCommand_accepted hj hc] at h
    obtain ⟨u, hu, rfl⟩ := conclude_next.1 h
    exact .inr ⟨⟨i, latchGeom s⟩, u, by rw [ha], hu, rfl⟩
  · rw [runCommand_rejected hj hc] at h
    simp only [Host.Outcome.next.injEq] at h
    exact .inl ⟨hj, hc, h.symm⟩

theorem runCommand_not_refused {i : Instr} {body : Geom → State → Except Fault State} {s : State} {r : Refusal} :
    runCommand i body s ≠ .refused r := by
  unfold runCommand
  split
  · simp
  · exact conclude_not_refused

/-- The body of each command. -/
def bodyOf : Instr → Geom → State → Except Fault State
  | .nop => nopBody
  | .hist => histBody
  | .shape => shapeBody
  | .rescale p => rescaleBody p
  | .ivbuild => ivbuildBody
  | .xremap => xremapBody
  | .cdflut => cdflutBody
  | .lutapply => lutapplyBody
  | .gamma => gammaBody
  | .diffuse m c => diffuseBody m c
  | .matchx => matchxBody
  | .matcha => matchaBody
  | .dither m c => ditherBody m c

/-- Every meaning is `runCommand` of its body. -/
theorem exec_eq (i : Instr) (s : State) : exec i s = runCommand i (bodyOf i) s := by cases i <;> rfl

theorem andThen_ok {a b : Geom → State → Except Fault State} {g : Geom} {s t : State} :
    andThen a b g s = .ok t ↔ ∃ u, a g s = .ok u ∧ b g u = .ok t := by
  unfold andThen
  cases a g s <;> simp

end Sys2Proof.Machine
end

