-- ==== Sys2Proof/Laws/Bodies.lean ====
section
/-! SUPPORT. What the body of each command can do when it succeeds, said once: the fields it writes and the values they take.
`writesOnly` gathers the fields that no body writes. -/

namespace Sys2Proof.Machine

theorem histBody_ok {g : Geom} {s t : State} :
    histBody g s = .ok t ↔ ∃ h, histogram s.src g.n = .ok h ∧ t = { s with h1 := h } := by
  unfold histBody
  cases histogram s.src g.n <;> simp [eq_comm]

theorem shapeBody_ok {g : Geom} {s t : State} :
    shapeBody g s = .ok t ↔
      ∃ vs, collect (shapeSample s.ref g.l) (List.range 256) = .ok vs ∧ t = { s with shape := Table.ofList vs } := by
  unfold shapeBody
  cases collect (shapeSample s.ref g.l) (List.range 256) <;> simp [eq_comm]

theorem rescaleBody_ok {p : Policy} {g : Geom} {s t : State} :
    rescaleBody p g s = .ok t ↔
      ∃ vs, readTable .shape s.shape = .ok vs ∧
        t = { s with tgt := Table.ofList ((rescale (vs.map BitVec.toNat) g.n p).map (BitVec.ofNat 32)) } := by
  unfold rescaleBody
  cases readTable .shape s.shape <;> simp [eq_comm]

theorem ivbuildBody_ok {g : Geom} {s t : State} :
    ivbuildBody g s = .ok t ↔
      ∃ ps, intervals s.h1 s.tgt = .ok ps ∧
        t = { s with left := Table.ofList (ps.map Prod.fst), right := Table.ofList (ps.map Prod.snd) } := by
  unfold ivbuildBody
  cases intervals s.h1 s.tgt <;> simp [eq_comm]

theorem xremapBody_ok {g : Geom} {s t : State} :
    xremapBody g s = .ok t ↔
      ∃ r, remap s.src s.tgt s.right g.n { left := s.left, cnt := Table.ofFun fun _ => 0, dst := s.dst } = .ok r ∧
        t = { s with left := r.left, cnt := r.cnt, dst := r.dst } := by
  unfold xremapBody
  cases remap s.src s.tgt s.right g.n { left := s.left, cnt := Table.ofFun fun _ => 0, dst := s.dst } <;> simp [eq_comm]

theorem cdflutBody_ok {g : Geom} {s t : State} :
    cdflutBody g s = .ok t ↔
      ∃ ps, readPairsFrom 0 s.h1.toList s.tgt.toList = .ok ps ∧
        t = { s with lut := Table.ofList ((cdfMatch (ps.map Prod.fst) (ps.map Prod.snd)).map (BitVec.ofNat 8)) } := by
  unfold cdflutBody
  cases readPairsFrom 0 s.h1.toList s.tgt.toList <;> simp [eq_comm]

theorem lutapplyBody_ok {g : Geom} {s t : State} :
    lutapplyBody g s = .ok t ↔
      ∃ d, forRange (applyPixel s.src s.lut) (List.range g.n) s.dst = .ok d ∧ t = { s with dst := d } := by
  unfold lutapplyBody
  cases forRange (applyPixel s.src s.lut) (List.range g.n) s.dst <;> simp [eq_comm]

theorem gammaBody_ok {g : Geom} {s t : State} :
    gammaBody g s = .ok t ↔ t = { s with glut := gammaTable s.params (effGamma (gammaPair s)) } := by
  simp [gammaBody, eq_comm]

theorem diffuseBody_ok {m : Method} {c : Scan} {g : Geom} {s t : State} :
    diffuseBody m c g s = .ok t ↔
      ∃ r, diffuseImage (kernelOf s.params m) c g.w g.h s.src s.glut s.dst = .ok r ∧
        t = { s with rb := r.rb, dst := r.dst } := by
  unfold diffuseBody
  cases diffuseImage (kernelOf s.params m) c g.w g.h s.src s.glut s.dst <;> simp [eq_comm]

theorem nopBody_ok {g : Geom} {s t : State} : nopBody g s = .ok t ↔ t = s := by simp [nopBody, eq_comm]

theorem ditherBody_eq (m : Method) (c : Scan) (g : Geom) (s : State) :
    ditherBody m c g s = diffuseBody m c g { s with glut := gammaTable s.params (effGamma (gammaPair s)) } := rfl

/-- `t` differs from `s` at most in the tables, the plane `DST` and the rolling buffer. -/
def writesOnly (s t : State) : Prop :=
  t = { s with h1 := t.h1, shape := t.shape, tgt := t.tgt, left := t.left, right := t.right, cnt := t.cnt, lut := t.lut,
               glut := t.glut, dst := t.dst, rb := t.rb }

theorem writesOnly_refl (s : State) : writesOnly s s := rfl

theorem writesOnly_trans {s t u : State} (h1 : writesOnly s t) (h2 : writesOnly t u) : writesOnly s u := by
  unfold writesOnly at *
  rw [h2, h1]

theorem andThen_writesOnly {a b : Geom → State → Except Fault State}
    (ha : ∀ g s t, a g s = .ok t → writesOnly s t) (hb : ∀ g s t, b g s = .ok t → writesOnly s t) :
    ∀ g s t, andThen a b g s = .ok t → writesOnly s t := by
  intro g s t h
  obtain ⟨u, hu, ht⟩ := andThen_ok.1 h
  exact writesOnly_trans (ha g s u hu) (hb g u t ht)

theorem histBody_writesOnly : ∀ g s t, histBody g s = .ok t → writesOnly s t := by
  intro g s t h; obtain ⟨_, _, rfl⟩ := histBody_ok.1 h; rfl

theorem shapeBody_writesOnly : ∀ g s t, shapeBody g s = .ok t → writesOnly s t := by
  intro g s t h; obtain ⟨_, _, rfl⟩ := shapeBody_ok.1 h; rfl

theorem rescaleBody_writesOnly (p : Policy) : ∀ g s t, rescaleBody p g s = .ok t → writesOnly s t := by
  intro g s t h; obtain ⟨_, _, rfl⟩ := rescaleBody_ok.1 h; rfl

theorem ivbuildBody_writesOnly : ∀ g s t, ivbuildBody g s = .ok t → writesOnly s t := by
  intro g s t h; obtain ⟨_, _, rfl⟩ := ivbuildBody_ok.1 h; rfl

theorem xremapBody_writesOnly : ∀ g s t, xremapBody g s = .ok t → writesOnly s t := by
  intro g s t h; obtain ⟨_, _, rfl⟩ := xremapBody_ok.1 h; rfl

theorem cdflutBody_writesOnly : ∀ g s t, cdflutBody g s = .ok t → writesOnly s t := by
  intro g s t h; obtain ⟨_, _, rfl⟩ := cdflutBody_ok.1 h; rfl

theorem lutapplyBody_writesOnly : ∀ g s t, lutapplyBody g s = .ok t → writesOnly s t := by
  intro g s t h; obtain ⟨_, _, rfl⟩ := lutapplyBody_ok.1 h; rfl

theorem gammaBody_writesOnly : ∀ g s t, gammaBody g s = .ok t → writesOnly s t := by
  intro g s t h; rw [gammaBody_ok.1 h]; rfl

theorem diffuseBody_writesOnly (m : Method) (c : Scan) : ∀ g s t, diffuseBody m c g s = .ok t → writesOnly s t := by
  intro g s t h; obtain ⟨_, _, rfl⟩ := diffuseBody_ok.1 h; rfl

/-- No body writes a register, `SRC`, `REF`, the latch, `STATUS` or the host's side. -/
theorem bodyOf_writesOnly (i : Instr) : ∀ g s t, bodyOf i g s = .ok t → writesOnly s t := by
  cases i with
  | nop => intro g s t h; rw [(nopBody_ok (g := g)).1 h]; exact writesOnly_refl s
  | hist => exact histBody_writesOnly
  | shape => exact shapeBody_writesOnly
  | rescale p => exact rescaleBody_writesOnly p
  | ivbuild => exact ivbuildBody_writesOnly
  | xremap => exact xremapBody_writesOnly
  | cdflut => exact cdflutBody_writesOnly
  | lutapply => exact lutapplyBody_writesOnly
  | gamma => exact gammaBody_writesOnly
  | diffuse m c => exact diffuseBody_writesOnly m c
  | matchx =>
    exact andThen_writesOnly histBody_writesOnly (andThen_writesOnly shapeBody_writesOnly
      (andThen_writesOnly (rescaleBody_writesOnly .last) (andThen_writesOnly ivbuildBody_writesOnly xremapBody_writesOnly)))
  | matcha =>
    exact andThen_writesOnly histBody_writesOnly (andThen_writesOnly shapeBody_writesOnly
      (andThen_writesOnly (rescaleBody_writesOnly .lastNonzero)
        (andThen_writesOnly cdflutBody_writesOnly lutapplyBody_writesOnly)))
  | dither m c => exact andThen_writesOnly gammaBody_writesOnly (diffuseBody_writesOnly m c)

/-- The state with another latch, `STATUS` and host side. -/
def withOutside (st : Status) (j : Option Job) (a : List Event) (r : List Reply) (d : Nat) (s : State) : State :=
  { s with status := st, job := j, agenda := a, replies := r, draws := d }

/-- A body neither reads nor writes the latch, `STATUS` or the host's side. -/
def blindBody (b : Geom → State → Except Fault State) : Prop :=
  ∀ st j a r d g s, b g (withOutside st j a r d s) =
    match b g s with
    | .ok t => .ok (withOutside st j a r d t)
    | .error f => .error f

theorem blindBody_andThen {a b : Geom → State → Except Fault State} (ha : blindBody a) (hb : blindBody b) :
    blindBody (andThen a b) := by
  intro st j ag r d g s
  unfold andThen
  rw [ha]
  cases a g s with
  | error f => rfl
  | ok u => exact hb st j ag r d g u

theorem histBody_blind : blindBody histBody := by
  intro st j a r d g s
  simp only [histBody, withOutside]
  cases histogram s.src g.n <;> rfl

theorem shapeBody_blind : blindBody shapeBody := by
  intro st j a r d g s
  simp only [shapeBody, withOutside]
  cases collect (shapeSample s.ref g.l) (List.range 256) <;> rfl

theorem rescaleBody_blind (p : Policy) : blindBody (rescaleBody p) := by
  intro st j a r d g s
  simp only [rescaleBody, withOutside]
  cases readTable .shape s.shape <;> rfl

theorem ivbuildBody_blind : blindBody ivbuildBody := by
  intro st j a r d g s
  simp only [ivbuildBody, withOutside]
  cases intervals s.h1 s.tgt <;> rfl

theorem xremapBody_blind : blindBody xremapBody := by
  intro st j a r d g s
  simp only [xremapBody, withOutside]
  cases remap s.src s.tgt s.right g.n { left := s.left, cnt := Table.ofFun fun _ => 0, dst := s.dst } <;> rfl

theorem cdflutBody_blind : blindBody cdflutBody := by
  intro st j a r d g s
  simp only [cdflutBody, withOutside]
  cases readPairsFrom 0 s.h1.toList s.tgt.toList <;> rfl

theorem lutapplyBody_blind : blindBody lutapplyBody := by
  intro st j a r d g s
  simp only [lutapplyBody, withOutside]
  cases forRange (applyPixel s.src s.lut) (List.range g.n) s.dst <;> rfl

theorem gammaBody_blind : blindBody gammaBody := fun _ _ _ _ _ _ _ => rfl

theorem diffuseBody_blind (m : Method) (c : Scan) : blindBody (diffuseBody m c) := by
  intro st j a r d g s
  simp only [diffuseBody, withOutside]
  cases diffuseImage (kernelOf s.params m) c g.w g.h s.src s.glut s.dst <;> rfl

/-- No body reads the latch, `STATUS` or the host's side. -/
theorem bodyOf_blind (i : Instr) : blindBody (bodyOf i) := by
  cases i with
  | nop => intro st j a r d g s; rfl
  | hist => exact histBody_blind
  | shape => exact shapeBody_blind
  | rescale p => exact rescaleBody_blind p
  | ivbuild => exact ivbuildBody_blind
  | xremap => exact xremapBody_blind
  | cdflut => exact cdflutBody_blind
  | lutapply => exact lutapplyBody_blind
  | gamma => exact gammaBody_blind
  | diffuse m c => exact diffuseBody_blind m c
  | matchx =>
    exact blindBody_andThen histBody_blind (blindBody_andThen shapeBody_blind
      (blindBody_andThen (rescaleBody_blind .last) (blindBody_andThen ivbuildBody_blind xremapBody_blind)))
  | matcha =>
    exact blindBody_andThen histBody_blind (blindBody_andThen shapeBody_blind
      (blindBody_andThen (rescaleBody_blind .lastNonzero) (blindBody_andThen cdflutBody_blind lutapplyBody_blind)))
  | dither m c => exact blindBody_andThen gammaBody_blind (diffuseBody_blind m c)

end Sys2Proof.Machine
end

