-- ==== Sys2Proof/Laws/Exec.lean ====
section
/-! SUPPORT. `exec` from an idle block, said once: an accepted command is its body and completion, a rejected one the error of
R252. -/

namespace Sys2Proof.Machine

/-- An accepted command from an idle block is its body on the latched geometry, then completion. -/
theorem exec_idle {i : Instr} {s : State} (h : s.job = none) (hc : checksOk s.params i (latchGeom s) = true) :
    exec i s = conclude (bodyOf i (latchGeom s) s) := by
  rw [exec_eq, runCommand_accepted h hc, accept_accepted h hc]
  have hb := bodyOf_blind i { s.status with done := false } (some { cmd := i, geom := latchGeom s }) s.agenda s.replies
    s.draws (latchGeom s) s
  have hs : ({ clearDone s with job := some { cmd := i, geom := latchGeom s } } : State) =
      withOutside { s.status with done := false } (some { cmd := i, geom := latchGeom s }) s.agenda s.replies s.draws s := rfl
  rw [hs, hb]
  cases hr : bodyOf i (latchGeom s) s with
  | error f => rfl
  | ok t =>
    have hw := bodyOf_writesOnly i _ _ _ hr
    simp only [conclude, Host.Outcome.next.injEq]
    rw [hw]
    rfl

theorem exec_idle_rejected {i : Instr} {s : State} (h : s.job = none) (hc : checksOk s.params i (latchGeom s) = false) :
    exec i s = .next (raiseError .geometry (clearDone s)) := by
  rw [exec_eq, runCommand_rejected h hc]

/-- The engine's turn on a latched command is its body on the latched geometry, then completion. -/
theorem exec_latched {i : Instr} {s : State} {j : Job} (h : s.job = some j) :
    exec i s = conclude (bodyOf i j.geom s) := by
  rw [exec_eq, runCommand_latched h]

theorem exec_not_refused {i : Instr} {s : State} {r : Refusal} : exec i s ≠ .refused r := by
  rw [exec_eq]; exact runCommand_not_refused

/-- What `exec` can do when it answers a next state. -/
theorem exec_next {i : Instr} {s t : State} (h : exec i s = .next t) :
    (s.job = none ∧ checksOk s.params i (latchGeom s) = false ∧ t = raiseError .geometry (clearDone s)) ∨
    (∃ g u, bodyOf i g s = .ok u ∧ t = finish u ∧
      (s.job = none → g = latchGeom s ∧ checksOk s.params i g = true) ∧ (∀ j, s.job = some j → g = j.geom)) := by
  cases hj : s.job with
  | some j =>
    rw [exec_latched hj] at h
    obtain ⟨u, hu, rfl⟩ := conclude_next.1 h
    exact .inr ⟨j.geom, u, hu, rfl, by simp, by simp⟩
  | none =>
    cases hc : checksOk s.params i (latchGeom s) with
    | true =>
      rw [exec_idle hj hc] at h
      obtain ⟨u, hu, rfl⟩ := conclude_next.1 h
      exact .inr ⟨latchGeom s, u, hu, rfl, fun _ => ⟨rfl, hc⟩, by simp⟩
    | false =>
      rw [exec_idle_rejected hj hc] at h
      simp only [Host.Outcome.next.injEq] at h
      exact .inl ⟨rfl, rfl, h.symm⟩

/-- A command that needs no check is accepted from every idle state. -/
theorem checksOk_of_free {i : Instr} {p : Params} {g : Geom} (h1 : needsGeom i = false) (h2 : needsRef i = false) :
    checksOk p i g = true := by simp [checksOk, h1, h2]

theorem geomOk_iff {p : Params} {g : Geom} : geomOk p g = true ↔ g.w ≤ p.maxW ∧ g.h ≤ p.maxH ∧ g.n ≤ p.maxPix := by
  simp [geomOk, and_assoc]

theorem refOk_iff {p : Params} {g : Geom} : refOk p g = true ↔ g.l ≤ p.maxPix := by simp [refOk]

theorem checksOk_iff {p : Params} {i : Instr} {g : Geom} :
    checksOk p i g = true ↔ (needsGeom i = true → geomOk p g = true) ∧ (needsRef i = true → refOk p g = true) := by
  unfold checksOk
  cases needsGeom i <;> cases needsRef i <;> simp

end Sys2Proof.Machine
end

