-- ==== Sys2Proof/Laws/Loops.lean ====
section
/-! SUPPORT. The laws of the two loops, `forRange` and `collect`. -/

namespace Sys2Proof.Machine

theorem forRange_nil {σ : Type} (f : σ → Nat → Except Fault σ) (st : σ) : forRange f [] st = .ok st := rfl

theorem forRange_append {σ : Type} (f : σ → Nat → Except Fault σ) (ks ls : List Nat) (st : σ) :
    forRange f (ks ++ ls) st =
      match forRange f ks st with
      | .ok st' => forRange f ls st'
      | .error e => .error e := by
  induction ks generalizing st with
  | nil => rfl
  | cons k ks ih =>
    simp only [List.cons_append, forRange]
    cases f st k with
    | error e => rfl
    | ok st' => exact ih st'

/-- The last round of a loop. -/
theorem forRange_succ {σ : Type} (f : σ → Nat → Except Fault σ) (n : Nat) (st : σ) :
    forRange f (List.range (n + 1)) st =
      match forRange f (List.range n) st with
      | .ok st' => f st' n
      | .error e => .error e := by
  rw [List.range_succ, forRange_append]
  cases forRange f (List.range n) st with
  | error e => rfl
  | ok st' =>
    simp only [forRange]
    cases f st' n <;> rfl

/-- A loop that succeeds keeps an invariant that every round keeps. -/
theorem forRange_invariant {σ : Type} {f : σ → Nat → Except Fault σ} (P : Nat → σ → Prop) {n : Nat} {st st' : σ}
    (h0 : P 0 st) (hs : ∀ k < n, ∀ a b, P k a → f a k = .ok b → P (k + 1) b)
    (h : forRange f (List.range n) st = .ok st') : P n st' := by
  induction n generalizing st' with
  | zero => simp only [List.range_zero, forRange, Except.ok.injEq] at h; exact h ▸ h0
  | succ n ih =>
    rw [forRange_succ] at h
    cases hr : forRange f (List.range n) st with
    | error e => simp [hr] at h
    | ok a =>
      simp only [hr] at h
      exact hs n (Nat.lt_succ_self n) a st' (ih (fun k hk => hs k (Nat.lt_succ_of_lt hk)) hr) h

/-- A loop succeeds, with its invariant, if every round that starts within the invariant succeeds and keeps it. -/
theorem forRange_succeeds {σ : Type} {f : σ → Nat → Except Fault σ} (P : Nat → σ → Prop) {n : Nat} {st : σ}
    (h0 : P 0 st) (hs : ∀ k < n, ∀ a, P k a → ∃ b, f a k = .ok b ∧ P (k + 1) b) :
    ∃ st', forRange f (List.range n) st = .ok st' ∧ P n st' := by
  induction n with
  | zero => exact ⟨st, rfl, h0⟩
  | succ n ih =>
    obtain ⟨a, ha, hP⟩ := ih fun k hk => hs k (Nat.lt_succ_of_lt hk)
    obtain ⟨b, hb, hP'⟩ := hs n (Nat.lt_succ_self n) a hP
    exact ⟨b, by rw [forRange_succ, ha]; exact hb, hP'⟩

theorem collect_ok {α β : Type} {f : α → Except Fault β} {as : List α} {bs : List β} :
    collect f as = .ok bs ↔ List.Forall₂ (fun a b => f a = .ok b) as bs := by
  induction as generalizing bs with
  | nil => cases bs <;> simp [collect]
  | cons a as ih =>
    simp only [collect]
    cases ha : f a with
    | error e => cases bs <;> simp [ha]
    | ok b =>
      cases hc : collect f as with
      | error e =>
        cases bs with
        | nil => simp
        | cons c cs =>
          simp only [List.forall₂_cons, reduceCtorEq, false_iff, not_and]
          intro _ hcs
          have := ih.2 hcs
          simp [hc] at this
      | ok bs' =>
        cases bs with
        | nil => simp
        | cons c cs =>
          simp only [Except.ok.injEq, List.cons.injEq, List.forall₂_cons, ha, and_congr_right_iff]
          rintro -
          constructor
          · rintro rfl; exact ih.1 hc
          · intro hcs
            have := ih.2 hcs
            rw [hc] at this
            exact Except.ok.inj this

theorem collect_length {α β : Type} {f : α → Except Fault β} {as : List α} {bs : List β} (h : collect f as = .ok bs) :
    bs.length = as.length := (List.Forall₂.length_eq (collect_ok.1 h)).symm

theorem collect_getElem? {α β : Type} {f : α → Except Fault β} {as : List α} {bs : List β} (h : collect f as = .ok bs)
    {i : Nat} {a : α} (ha : as[i]? = some a) : ∃ b, bs[i]? = some b ∧ f a = .ok b := by
  induction as generalizing bs i with
  | nil => simp at ha
  | cons a' as ih =>
    cases collect_ok.1 h with
    | cons hab hrest =>
      cases i with
      | zero => simp only [List.getElem?_cons_zero, Option.some.injEq] at ha; subst ha; exact ⟨_, rfl, hab⟩
      | succ i => exact ih (collect_ok.2 hrest) ha

/-- `collect` succeeds when every element does. -/
theorem collect_succeeds {α β : Type} {f : α → Except Fault β} {as : List α} (h : ∀ a ∈ as, ∃ b, f a = .ok b) :
    ∃ bs, collect f as = .ok bs := by
  induction as with
  | nil => exact ⟨[], rfl⟩
  | cons a as ih =>
    obtain ⟨b, hb⟩ := h a List.mem_cons_self
    obtain ⟨bs, hbs⟩ := ih fun a ha => h a (List.mem_cons_of_mem _ ha)
    exact ⟨b :: bs, by simp [collect, hb, hbs]⟩

theorem collect_map {α β : Type} {f : α → Except Fault β} {g : α → β} {as : List α} (h : ∀ a ∈ as, f a = .ok (g a)) :
    collect f as = .ok (as.map g) := by
  induction as with
  | nil => rfl
  | cons a as ih =>
    simp [collect, h a List.mem_cons_self, ih fun a ha => h a (List.mem_cons_of_mem _ ha)]

end Sys2Proof.Machine
end

