-- ==== Sys2Proof/Laws/Memory.lean ====
section
/-! SUPPORT. The laws of planes: a read after a write, and the canonical form. -/

namespace Sys2Proof.Machine

theorem Memory.read_write (m : Memory) (k : Nat) (v : Byte) (j : Nat) :
    Memory.read (Memory.write m k v) j = if j = k then some v else Memory.read m j := by
  induction m with
  | nil => simp [Memory.write, Memory.read, eq_comm]
  | cons c m ih =>
    obtain ⟨a, b⟩ := c
    simp only [Memory.write]
    by_cases h1 : k < a
    · rw [if_pos h1]
      by_cases h3 : j = k
      · simp [Memory.read, h3]
      · simp [Memory.read, h3, Ne.symm h3]
    · rw [if_neg h1]
      by_cases h2 : k = a
      · rw [if_pos h2]
        subst h2
        by_cases h3 : j = k
        · simp [Memory.read, h3]
        · simp [Memory.read, h3, Ne.symm h3]
      · rw [if_neg h2]
        by_cases h3 : j = k
        · subst h3
          simp [Memory.read, ih, Ne.symm h2]
        · by_cases h5 : a = j <;> simp [Memory.read, ih, h3, h5]

@[simp] theorem Memory.read_write_same (m : Memory) (k : Nat) (v : Byte) :
    Memory.read (Memory.write m k v) k = some v := by
  simp [Memory.read_write]

theorem Memory.read_write_other (m : Memory) (v : Byte) {j k : Nat} (h : j ≠ k) :
    Memory.read (Memory.write m k v) j = Memory.read m j := by
  simp [Memory.read_write, h]

/-- A byte that is listed after a write was listed before it or is the one written. -/
theorem Memory.mem_write {m : Memory} {k : Nat} {v : Byte} {c : Host.Cell} (h : c ∈ Memory.write m k v) :
    c = (k, v) ∨ c ∈ m := by
  induction m with
  | nil => simpa [Memory.write] using h
  | cons d m ih =>
    obtain ⟨a, b⟩ := d
    simp only [Memory.write] at h
    split_ifs at h with h1 h2
    · simpa using h
    · rcases List.mem_cons.1 h with h | h
      · exact .inl h
      · exact .inr (List.mem_cons_of_mem _ h)
    · rcases List.mem_cons.1 h with h | h
      · exact .inr (h ▸ List.mem_cons_self)
      · rcases ih h with h | h
        · exact .inl h
        · exact .inr (List.mem_cons_of_mem _ h)

/-- A write keeps the canonical form. -/
theorem Memory.wf_write {m : Memory} (k : Nat) (v : Byte) (h : Memory.wf m) : Memory.wf (Memory.write m k v) := by
  induction m with
  | nil => simp [Memory.write, Memory.wf]
  | cons d m ih =>
    obtain ⟨a, b⟩ := d
    simp only [Memory.wf, List.map_cons, List.pairwise_cons] at h ih
    simp only [Memory.write]
    split_ifs with h1 h2
    · simp only [Memory.wf, List.map_cons, List.pairwise_cons, List.mem_cons]
      refine ⟨?_, h.1, h.2⟩
      rintro x (rfl | hx)
      · exact h1
      · exact lt_trans h1 (h.1 x hx)
    · subst h2
      simpa [Memory.wf] using h
    · simp only [Memory.wf, List.map_cons, List.pairwise_cons]
      refine ⟨?_, ih h.2⟩
      intro x hx
      obtain ⟨c, hc, rfl⟩ := List.mem_map.1 hx
      rcases Memory.mem_write hc with rfl | hc
      · have := h1; have := h2; simp only; omega
      · exact h.1 _ (List.mem_map_of_mem hc)

theorem Memory.wf_nil : Memory.wf [] := by simp [Memory.wf]

/-- A byte below every listed index is unwritten. -/
theorem Memory.read_of_lt_all {m : Memory} {k : Nat} (h : ∀ c ∈ m, k < c.1) : Memory.read m k = none := by
  induction m with
  | nil => rfl
  | cons d m ih =>
    have h1 := h d List.mem_cons_self
    simp only [Memory.read]
    rw [if_neg (by omega)]
    exact ih fun c hc => h c (List.mem_cons_of_mem _ hc)

/-- In canonical form, planes that read alike are equal. -/
theorem Memory.ext {m m' : Memory} (h : Memory.wf m) (h' : Memory.wf m') (hr : ∀ k, Memory.read m k = Memory.read m' k) :
    m = m' := by
  have lt : ∀ {a : Nat} {b : Byte} {n : Memory}, Memory.wf ((a, b) :: n) → ∀ c ∈ n, a < c.1 := by
    intro a b n hn c hc
    exact (List.pairwise_cons.1 hn).1 _ (List.mem_map_of_mem hc)
  induction m generalizing m' with
  | nil =>
    cases m' with
    | nil => rfl
    | cons d m' => have := hr d.1; simp [Memory.read] at this
  | cons c m ih =>
    obtain ⟨a, b⟩ := c
    cases m' with
    | nil => have := hr a; simp [Memory.read] at this
    | cons d m' =>
      obtain ⟨a', b'⟩ := d
      have e1 := hr a
      have e2 := hr a'
      have haa : a = a' := by
        rcases lt_trichotomy a a' with hlt | heq | hlt
        · have : Memory.read ((a', b') :: m') a = none :=
            Memory.read_of_lt_all fun c hc => by
              rcases List.mem_cons.1 hc with rfl | hc
              · exact hlt
              · exact lt_trans hlt (lt h' c hc)
          rw [this] at e1
          simp [Memory.read] at e1
        · exact heq
        · have : Memory.read ((a, b) :: m) a' = none :=
            Memory.read_of_lt_all fun c hc => by
              rcases List.mem_cons.1 hc with rfl | hc
              · exact hlt
              · exact lt_trans hlt (lt h c hc)
          rw [this] at e2
          simp [Memory.read] at e2
      subst haa
      have hb : b = b' := by simpa [Memory.read] using e1
      subst hb
      rw [ih (List.pairwise_cons.1 h).2 (List.pairwise_cons.1 h').2 fun k => ?_]
      by_cases hk : a = k
      · subst hk
        rw [Memory.read_of_lt_all (lt h), Memory.read_of_lt_all (lt h')]
      · simpa [Memory.read, hk] using hr k

theorem readByte_ok {p : PlaneId} {m : Memory} {k : Nat} {b : Byte} :
    readByte p m k = .ok b ↔ Memory.read m k = some b := by
  unfold readByte
  cases h : Memory.read m k <;> simp

theorem readByte_error {p : PlaneId} {m : Memory} {k : Nat} {f : Fault} :
    readByte p m k = .error f ↔ Memory.read m k = none ∧ f = .unwrittenRead (.plane p k) := by
  unfold readByte
  cases h : Memory.read m k <;> simp [eq_comm]

end Sys2Proof.Machine
end

