-- ==== Sys2Proof/Laws/Table.lean ====
section
/-! SUPPORT. The laws of tables. -/

namespace Sys2Proof.Machine

theorem Table.get_eq {w : Nat} (t : Table w) {i : Nat} (h : i < 256) : Table.get t i = t[i] := by
  have hl : i < t.toList.length := by simpa using h
  simp [Table.get, List.getD_eq_getElem?_getD, List.getElem?_eq_getElem hl]

theorem Table.get_of_ge {w : Nat} (t : Table w) {i : Nat} (h : 256 ≤ i) : Table.get t i = none := by
  simp [Table.get, List.getD_eq_getElem?_getD, List.getElem?_eq_none (l := t.toList) (i := i) (by simpa using h)]

theorem Table.lt_of_get {w : Nat} {t : Table w} {i : Nat} {v : BitVec w} (h : Table.get t i = some v) : i < 256 := by
  by_contra hi
  rw [Table.get_of_ge t (by omega)] at h
  cases h

/-- Two tables with equal entries are equal. -/
theorem Table.ext {w : Nat} {t u : Table w} (h : ∀ i < 256, Table.get t i = Table.get u i) : t = u := by
  apply Vector.ext
  intro i hi
  rw [← Table.get_eq t hi, ← Table.get_eq u hi, h i hi]

theorem Table.get_put {w : Nat} (t : Table w) (i : Nat) (v : BitVec w) (j : Nat) :
    Table.get (Table.put t i v) j = if j = i ∧ j < 256 then some v else Table.get t j := by
  by_cases hj : j < 256
  · rw [Table.get_eq _ hj, Table.get_eq _ hj]
    simp only [Table.put, Vector.getElem_setIfInBounds, hj, and_true, eq_comm]
  · rw [Table.get_of_ge _ (by omega), Table.get_of_ge _ (by omega), if_neg (by omega)]

theorem Table.get_put_same {w : Nat} (t : Table w) {i : Nat} (h : i < 256) (v : BitVec w) :
    Table.get (Table.put t i v) i = some v := by
  simp [Table.get_put, h]

theorem Table.get_put_other {w : Nat} (t : Table w) (v : BitVec w) {i j : Nat} (h : j ≠ i) :
    Table.get (Table.put t i v) j = Table.get t j := by
  simp [Table.get_put, h]

theorem Table.toList_ofFun {w : Nat} (f : Nat → BitVec w) :
    (Table.ofFun f).toList = (List.range 256).map fun i => some (f i) := rfl

theorem Table.get_ofFun {w : Nat} (f : Nat → BitVec w) {i : Nat} (h : i < 256) :
    Table.get (Table.ofFun f) i = some (f i) := by
  rw [Table.get, Table.toList_ofFun, List.getD_eq_getElem?_getD, List.getElem?_map, List.getElem?_range h]
  rfl

theorem Table.toList_ofList {w : Nat} (vs : List (BitVec w)) :
    (Table.ofList vs).toList = (vs.map some ++ List.replicate 256 none).take 256 := rfl

theorem Table.get_ofList {w : Nat} {vs : List (BitVec w)} {i : Nat} (h : i < 256) : Table.get (Table.ofList vs) i = vs[i]? := by
  rw [Table.get, Table.toList_ofList, List.getD_eq_getElem?_getD, List.getElem?_take_of_lt h]
  by_cases hi : i < vs.length
  · rw [List.getElem?_append_left (by simpa using hi), List.getElem?_map]
    simp [List.getElem?_eq_getElem hi]
  · rw [List.getElem?_append_right (by simp; omega), List.getElem?_replicate]
    rw [List.getElem?_eq_none (by omega)]
    split <;> rfl

theorem Table.toList_ofList_of_length {w : Nat} {vs : List (BitVec w)} (h : vs.length = 256) :
    (Table.ofList vs).toList = vs.map some := by
  rw [Table.toList_ofList, List.take_left' (by simpa using h)]

theorem Table.get_blank {w : Nat} (i : Nat) : Table.get (Table.blank w) i = none := by
  rw [Table.get]
  show (List.replicate 256 none).getD i none = none
  rw [List.getD_eq_getElem?_getD, List.getElem?_replicate]
  split <;> rfl

theorem Table.length_toList {w : Nat} (t : Table w) : t.toList.length = 256 := by simp

theorem Table.toList_getElem? {w : Nat} (t : Table w) {i : Nat} (h : i < 256) : t.toList[i]? = some (Table.get t i) := by
  have hl : i < t.toList.length := by simpa using h
  rw [Table.get, List.getD_eq_getElem?_getD, List.getElem?_eq_getElem hl]
  rfl

theorem readEntry_ok {w : Nat} {id : TableId} {t : Table w} {i : Nat} {v : BitVec w} :
    readEntry id t i = .ok v ↔ Table.get t i = some v := by
  unfold readEntry
  cases h : Table.get t i <;> simp

theorem readEntry_error {w : Nat} {id : TableId} {t : Table w} {i : Nat} {f : Fault} :
    readEntry id t i = .error f ↔ Table.get t i = none ∧ f = .unwrittenRead (.table id i) := by
  unfold readEntry
  cases h : Table.get t i <;> simp [eq_comm]

theorem readEntriesFrom_ok {w : Nat} {id : TableId} {es : List (Option (BitVec w))} {i : Nat} {vs : List (BitVec w)} :
    readEntriesFrom id i es = .ok vs ↔ es = vs.map some := by
  induction es generalizing i vs with
  | nil => cases vs <;> simp [readEntriesFrom]
  | cons e es ih =>
    cases e with
    | none => cases vs <;> simp [readEntriesFrom]
    | some v =>
      simp only [readEntriesFrom]
      cases hr : readEntriesFrom id (i + 1) es with
      | error f =>
        cases vs with
        | nil => simp
        | cons u us =>
          simp only [List.map_cons, List.cons.injEq, Option.some.injEq, reduceCtorEq, false_iff, not_and]
          rintro - rfl
          have := (ih (i := i + 1) (vs := us)).2 rfl
          simp [hr] at this
      | ok us' =>
        have h := (ih (i := i + 1) (vs := us')).1 hr
        cases vs with
        | nil => simp
        | cons u us =>
          simp only [Except.ok.injEq, List.cons.injEq, List.map_cons, Option.some.injEq, h, and_congr_right_iff]
          rintro -
          exact ⟨fun h => h ▸ rfl, fun h => List.map_injective_iff.2 (Option.some_injective _) h⟩

/-- Reading a whole table succeeds exactly when every entry is written, and lists the entries in order. -/
theorem readTable_ok {w : Nat} {id : TableId} {t : Table w} {vs : List (BitVec w)} :
    readTable id t = .ok vs ↔ t.toList = vs.map some := readEntriesFrom_ok

theorem readTable_length {w : Nat} {id : TableId} {t : Table w} {vs : List (BitVec w)} (h : readTable id t = .ok vs) :
    vs.length = 256 := by
  have := congrArg List.length (readTable_ok.1 h)
  simpa using this.symm

theorem readTable_getElem? {w : Nat} {id : TableId} {t : Table w} {vs : List (BitVec w)} (h : readTable id t = .ok vs)
    {i : Nat} (hi : i < 256) : vs[i]? = Table.get t i := by
  have h1 := Table.toList_getElem? t hi
  rw [readTable_ok.1 h, List.getElem?_map] at h1
  cases hv : vs[i]? with
  | none => simp [hv] at h1
  | some v => simpa [hv] using h1

/-- A list of options without `none` is a list of `some`. -/
theorem exists_map_some {α : Type} {es : List (Option α)} (h : ∀ e ∈ es, e.isSome = true) : ∃ vs : List α, es = vs.map some := by
  induction es with
  | nil => exact ⟨[], rfl⟩
  | cons e es ih =>
    obtain ⟨v, rfl⟩ := Option.isSome_iff_exists.1 (h e List.mem_cons_self)
    obtain ⟨vs, rfl⟩ := ih fun e he => h e (List.mem_cons_of_mem _ he)
    exact ⟨v :: vs, rfl⟩

/-- Every entry written, as a fact about the list of entries. -/
theorem Table.exists_values {w : Nat} {t : Table w} (h : ∀ i < 256, (Table.get t i).isSome = true) :
    ∃ vs : List (BitVec w), t.toList = vs.map some := by
  apply exists_map_some
  intro e he
  obtain ⟨i, hi, rfl⟩ := List.mem_iff_getElem.1 he
  have hi' : i < 256 := by simpa using hi
  have h1 := Table.toList_getElem? t hi'
  rw [List.getElem?_eq_getElem hi] at h1
  rw [Option.some.inj h1]
  exact h i hi'

theorem readTable_of_written {w : Nat} (id : TableId) {t : Table w} (h : ∀ i < 256, (Table.get t i).isSome = true) :
    ∃ vs, readTable id t = .ok vs := by
  obtain ⟨vs, hv⟩ := Table.exists_values h
  exact ⟨vs, readTable_ok.2 hv⟩

end Sys2Proof.Machine
end

