-- ==== Sys2Proof/Laws/Pixels.lean ====
section
/-! SUPPORT. What one pixel of each scan, and one loaded row, can do when it succeeds, said once. -/

namespace Sys2Proof.Machine

theorem histPixel_ok {src : Memory} {h1 h1' : Table 32} {k : Nat} :
    histPixel src h1 k = .ok h1' ↔
      ∃ v c, Memory.read src k = some v ∧ Table.get h1 v.toNat = some c ∧ h1' = Table.put h1 v.toNat (c + 1) := by
  unfold histPixel readByte
  cases hv : Memory.read src k with
  | none => simp
  | some v =>
    simp only [Option.some.injEq, exists_and_left, exists_eq_left']
    unfold readEntry
    cases hc : Table.get h1 v.toNat <;> simp [eq_comm]

theorem applyPixel_ok {src : Memory} {lut : Table 8} {dst dst' : Memory} {k : Nat} :
    applyPixel src lut dst k = .ok dst' ↔
      ∃ v q, Memory.read src k = some v ∧ Table.get lut v.toNat = some q ∧ dst' = Memory.write dst k q := by
  unfold applyPixel readByte
  cases hv : Memory.read src k with
  | none => simp
  | some v =>
    simp only [Option.some.injEq, exists_and_left, exists_eq_left']
    unfold readEntry
    cases hc : Table.get lut v.toNat <;> simp [eq_comm]

theorem emitBin_ok {k : Nat} {p : Byte} {st st' : Remap} :
    emitBin k p st = .ok st' ↔
      ∃ c, Table.get st.cnt p.toNat = some c ∧
        st' = { st with dst := Memory.write st.dst k p, cnt := Table.put st.cnt p.toNat (c + 1) } := by
  unfold emitBin readEntry
  cases Table.get st.cnt p.toNat <;> simp [eq_comm]

/-- One pixel of `XREMAP` (R142): it is emitted into an open bin, or the level moves by one bin and it is emitted there. -/
theorem remapPixel_ok {src : Memory} {tgt : Table 32} {right : Table 8} {st st' : Remap} {k : Nat} :
    remapPixel src tgt right st k = .ok st' ↔
      ∃ v p c t, Memory.read src k = some v ∧ Table.get st.left v.toNat = some p ∧ Table.get st.cnt p.toNat = some c ∧
        Table.get tgt p.toNat = some t ∧
        ((c.toNat < t.toNat ∧ emitBin k p st = .ok st') ∨
         (¬c.toNat < t.toNat ∧ ∃ q, Table.get right v.toNat = some q ∧
            emitBin k (nextBin p q) { st with left := Table.put st.left v.toNat (nextBin p q) } = .ok st')) := by
  unfold remapPixel readByte
  cases hv : Memory.read src k with
  | none => simp
  | some v =>
    simp only [Option.some.injEq, exists_and_left, exists_eq_left']
    unfold readEntry
    cases hp : Table.get st.left v.toNat with
    | none => simp
    | some p =>
      simp only [Option.some.injEq, exists_eq_left']
      unfold remapLevel binOpen readEntry
      cases hc : Table.get st.cnt p.toNat with
      | none => simp
      | some c =>
        simp only [Option.some.injEq, exists_eq_left']
        cases ht : Table.get tgt p.toNat with
        | none => simp
        | some t =>
          simp only [Option.some.injEq, exists_eq_left']
          by_cases hlt : c.toNat < t.toNat
          · simp [hlt]
          · simp only [hlt, decide_false, false_and, not_false_eq_true, true_and, false_or]
            cases hq : Table.get right v.toNat <;> simp

theorem correctedSample_ok {src : Memory} {glut : Table 8} {k : Nat} {c : Int} :
    correctedSample src glut k = .ok c ↔
      ∃ v q, Memory.read src k = some v ∧ Table.get glut v.toNat = some q ∧ c = (q.toNat : Int) := by
  unfold correctedSample readByte
  cases hv : Memory.read src k with
  | none => simp
  | some v =>
    simp only [Option.some.injEq, exists_and_left, exists_eq_left']
    unfold readEntry
    cases hc : Table.get glut v.toNat <;> simp [eq_comm]

/-- A loaded row (R188) has the padding on both sides, and its length. -/
theorem loadRow_length {kr : Kernel} {w h : Nat} {src : Memory} {glut : Table 8} {y : Nat} {row : List Int}
    (hr : loadRow kr w h src glut y = .ok row) : row.length = w + 2 * kr.rx := by
  unfold loadRow at hr
  split at hr
  · split at hr
    · rename_i px hpx
      have := collect_length hpx
      cases hr
      simp at this ⊢
      omega
    · cases hr
  · cases hr; simp

/-- The columns of a row in the order of R190. -/
theorem map_scanColumn (c : Scan) (w y : Nat) :
    (List.range w).map (scanColumn c w y) = if rightToLeft c y then (List.range w).reverse else List.range w := by
  apply List.ext_getElem
  · split_ifs <;> simp
  · intro n h1 h2
    cases c
    · simp [scanColumn, rowReversed, rightToLeft]
    · by_cases hy : y % 2 = 1 <;> simp [scanColumn, rowReversed, rightToLeft, hy, List.getElem_reverse]

/-- The scan order of R190 in the columns that the meaning scans. -/
theorem scanOrder_eq (c : Scan) (w h : Nat) :
    scanOrder c w h = (List.range h).flatMap fun y => (List.range w).map fun n => (scanColumn c w y n, y) := by
  unfold scanOrder
  congr 1
  funext y
  rw [← map_scanColumn, List.map_map]
  rfl

end Sys2Proof.Machine
end

