-- ==== Sys2Proof/Laws/Faults.lean ====
section
/-! SUPPORT. What the loops and the reads of the commands can stop with (60_exceptions R259): each fault names a place that is
unwritten. -/

namespace Sys2Proof.Machine

/-- A fault of `collect` is the fault of one of its elements. -/
theorem collect_error {α β : Type} {f : α → Except Fault β} {as : List α} {e : Fault} (h : collect f as = .error e) :
    ∃ a ∈ as, f a = .error e := by
  induction as with
  | nil => cases h
  | cons a as ih =>
    rw [collect] at h
    cases ha : f a with
    | error e' => rw [ha] at h; cases h; exact ⟨a, by simp, ha⟩
    | ok b =>
      rw [ha] at h
      cases hc : collect f as with
      | ok bs => simp [hc] at h
      | error e' =>
        simp only [hc, Except.error.injEq] at h
        obtain ⟨a', ha', hf⟩ := ih (by rw [hc, h])
        exact ⟨a', by simp [ha'], hf⟩

/-- A fault of a loop is the fault of one of its turns, from a state that the turns before it left. -/
theorem forRange_error {σ : Type} {f : σ → Nat → Except Fault σ} {n : Nat} {st : σ} {e : Fault}
    (h : forRange f (List.range n) st = .error e) :
    ∃ k < n, ∃ st', forRange f (List.range k) st = .ok st' ∧ f st' k = .error e := by
  induction n with
  | zero => cases h
  | succ n ih =>
    rw [forRange_succ] at h
    cases hn : forRange f (List.range n) st with
    | ok st' => rw [hn] at h; exact ⟨n, by omega, st', hn, h⟩
    | error e' =>
      simp only [hn, Except.error.injEq] at h
      obtain ⟨k, hk, hr⟩ := ih (by rw [hn, h])
      exact ⟨k, by omega, hr⟩

theorem readEntriesFrom_error {w : Nat} {id : TableId} {es : List (Option (BitVec w))} {i : Nat} {e : Fault}
    (h : readEntriesFrom id i es = .error e) : ∃ n < es.length, es[n]? = some none ∧ e = .unwrittenRead (.table id (i + n)) := by
  induction es generalizing i with
  | nil => cases h
  | cons x es ih =>
    cases x with
    | none => cases h; exact ⟨0, by simp, rfl, rfl⟩
    | some v =>
      rw [readEntriesFrom] at h
      cases hr : readEntriesFrom id (i + 1) es with
      | ok vs => simp [hr] at h
      | error e' =>
        simp only [hr, Except.error.injEq] at h
        obtain ⟨n, hn, hg, he⟩ := ih (by rw [hr, h])
        exact ⟨n + 1, by simpa using hn, by simpa using hg, by rw [he, Nat.add_assoc, Nat.add_comm 1 n]⟩

/-- A fault of reading a whole table names an unwritten entry of it. -/
theorem readTable_error {w : Nat} {id : TableId} {t : Table w} {e : Fault} (h : readTable id t = .error e) :
    ∃ i < 256, Table.get t i = none ∧ e = .unwrittenRead (.table id i) := by
  obtain ⟨n, hn, hg, he⟩ := readEntriesFrom_error h
  have hn' : n < 256 := by simpa using hn
  refine ⟨n, hn', ?_, by simpa using he⟩
  rw [Table.toList_getElem? t hn'] at hg
  simpa using hg

theorem correctedSample_error {src : Memory} {glut : Table 8} {k : Nat} {e : Fault} (h : correctedSample src glut k = .error e) :
    (Memory.read src k = none ∧ e = .unwrittenRead (.plane .src k)) ∨
    ∃ v, Memory.read src k = some v ∧ Table.get glut v.toNat = none ∧ e = .unwrittenRead (.table .glut v.toNat) := by
  unfold correctedSample readByte at h
  cases hv : Memory.read src k with
  | none => simp only [hv, Except.error.injEq] at h; exact .inl ⟨rfl, h.symm⟩
  | some v =>
    simp only [hv] at h
    cases hg : Table.get glut v.toNat with
    | none => simp only [readEntry, hg, Except.error.injEq] at h; exact .inr ⟨v, rfl, hg, h.symm⟩
    | some q => simp [readEntry, hg] at h

/-- A fault of a pixel of `XREMAP`: the byte, or an entry that the pixel reads, is unwritten. -/
theorem remapPixel_error {src : Memory} {tgt : Table 32} {right : Table 8} {st : Remap} {k : Nat} {e : Fault}
    (hc : ∀ b < 256, (Table.get st.cnt b).isSome = true) (h : remapPixel src tgt right st k = .error e) :
    (Memory.read src k = none ∧ e = .unwrittenRead (.plane .src k)) ∨
    ∃ v, Memory.read src k = some v ∧
      ((Table.get st.left v.toNat = none ∧ e = .unwrittenRead (.table .left v.toNat)) ∨
       ∃ p, Table.get st.left v.toNat = some p ∧
        ((Table.get tgt p.toNat = none ∧ e = .unwrittenRead (.table .tgt p.toNat)) ∨
         (Table.get right v.toNat = none ∧ e = .unwrittenRead (.table .right v.toNat)))) := by
  unfold remapPixel readByte at h
  cases hv : Memory.read src k with
  | none => simp only [hv, Except.error.injEq] at h; exact .inl ⟨rfl, h.symm⟩
  | some v =>
    refine .inr ⟨v, rfl, ?_⟩
    simp only [hv] at h
    cases hl : Table.get st.left v.toNat with
    | none => simp only [readEntry, hl, Except.error.injEq] at h; exact .inl ⟨rfl, h.symm⟩
    | some p =>
      refine .inr ⟨p, rfl, ?_⟩
      have emit : ∀ (l : Table 8) (q : Byte), emitBin k q { st with left := l } ≠ .error e := by
        intro l q
        obtain ⟨x, hx⟩ := Option.isSome_iff_exists.1 (hc q.toNat q.isLt)
        simp [emitBin, readEntry, hx]
      obtain ⟨c, hc'⟩ := Option.isSome_iff_exists.1 (hc p.toNat p.isLt)
      simp only [readEntry, hl, remapLevel, binOpen, hc'] at h
      cases ht : Table.get tgt p.toNat with
      | none => simp only [ht, Except.error.injEq] at h; exact .inl ⟨rfl, h.symm⟩
      | some t =>
        simp only [ht] at h
        split at h
        · simp at *
        · exact absurd h (emit st.left p)
        · cases hr : Table.get right v.toNat with
          | none => simp only [hr, Except.error.injEq] at h; exact .inr ⟨rfl, h.symm⟩
          | some q => simp only [hr] at h; exact absurd h (emit _ _)

/-- A fault of the `while` of R140 names an unwritten entry of `TGT`. -/
theorem advanceBin_error {tgt : Table 32} {f sum r : Nat} {e : Fault} (hr : r < 256) (h : advanceBin tgt f sum r = .error e) :
    ∃ b < 256, Table.get tgt b = none ∧ e = .unwrittenRead (.table .tgt b) := by
  induction f generalizing sum r with
  | zero => cases h
  | succ f ih =>
    rw [advanceBin] at h
    cases ht : Table.get tgt r with
    | none => simp only [readEntry, ht, Except.error.injEq] at h; exact ⟨r, hr, ht, h.symm⟩
    | some t =>
      simp only [readEntry, ht] at h
      split at h
      · exact ih (by omega) h
      · cases h

theorem advanceBin_lt {tgt : Table 32} {f sum r sum' r' : Nat} (hr : r < 256) (h : advanceBin tgt f sum r = .ok (sum', r')) :
    r' < 256 := by
  induction f generalizing sum r with
  | zero => cases h; exact hr
  | succ f ih =>
    rw [advanceBin] at h
    cases ht : readEntry .tgt tgt r with
    | error e => simp [ht] at h
    | ok t =>
      simp only [ht] at h
      split at h
      · exact ih (by omega) h
      · cases h; exact hr

theorem intervalsFrom_error {tgt : Table 32} {i : Nat} {es : List (Option Word)} {sum r : Nat} {e : Fault} (hr : r < 256)
    (h : intervalsFrom tgt i es sum r = .error e) :
    (∃ n < es.length, es[n]? = some none ∧ e = .unwrittenRead (.table .h1 (i + n))) ∨
    ∃ b < 256, Table.get tgt b = none ∧ e = .unwrittenRead (.table .tgt b) := by
  induction es generalizing i sum r with
  | nil => cases h
  | cons x es ih =>
    cases x with
    | none => cases h; exact .inl ⟨0, by simp, rfl, rfl⟩
    | some v =>
      rw [intervalsFrom] at h
      cases ha : advanceBin tgt 256 (sum + v.toNat) r with
      | error e' => simp only [ha, Except.error.injEq] at h; exact .inr (advanceBin_error hr (by rw [ha, h]))
      | ok q =>
        obtain ⟨sum', r'⟩ := q
        simp only [ha] at h
        cases hi : intervalsFrom tgt (i + 1) es sum' r' with
        | ok ps => simp [hi] at h
        | error e' =>
          simp only [hi, Except.error.injEq] at h
          rcases ih (advanceBin_lt hr ha) (by rw [hi, h]) with ⟨n, hn, hg, he⟩ | hb
          · exact .inl ⟨n + 1, by simpa using hn, by simpa using hg, by rw [he, Nat.add_assoc, Nat.add_comm 1 n]⟩
          · exact .inr hb

/-- A fault of `IVBUILD`'s loop names an unwritten entry of `H1` or `TGT`. -/
theorem intervals_error {h1 tgt : Table 32} {e : Fault} (h : intervals h1 tgt = .error e) :
    ∃ k < 256, (Table.get h1 k = none ∧ e = .unwrittenRead (.table .h1 k)) ∨
      (Table.get tgt k = none ∧ e = .unwrittenRead (.table .tgt k)) := by
  rcases intervalsFrom_error (by omega) h with ⟨n, hn, hg, he⟩ | ⟨b, hb, hg, he⟩
  · have hn' : n < 256 := by simpa using hn
    rw [Table.toList_getElem? h1 hn'] at hg
    exact ⟨n, hn', .inl ⟨by simpa using hg, by simpa using he⟩⟩
  · exact ⟨b, hb, .inr ⟨hg, he⟩⟩

theorem readPairsFrom_error {hs ts : List (Option Word)} {i : Nat} {e : Fault} (h : readPairsFrom i hs ts = .error e) :
    ∃ n, (n < hs.length ∧ hs[n]? = some none ∧ e = .unwrittenRead (.table .h1 (i + n))) ∨
      (n < ts.length ∧ ts[n]? = some none ∧ e = .unwrittenRead (.table .tgt (i + n))) := by
  induction hs generalizing i ts with
  | nil => simp [readPairsFrom] at h
  | cons x hs ih =>
    cases ts with
    | nil => simp [readPairsFrom] at h
    | cons y ts =>
      cases x with
      | none => simp only [readPairsFrom, Except.error.injEq] at h; exact ⟨0, .inl ⟨by simp, rfl, h.symm⟩⟩
      | some a =>
        cases y with
        | none => simp only [readPairsFrom, Except.error.injEq] at h; exact ⟨0, .inr ⟨by simp, rfl, h.symm⟩⟩
        | some b =>
          simp only [readPairsFrom] at h
          cases hr : readPairsFrom (i + 1) hs ts with
          | ok ps => simp [hr] at h
          | error e' =>
            simp only [hr, Except.error.injEq] at h
            obtain ⟨n, hn⟩ := ih (by rw [hr, h])
            refine ⟨n + 1, ?_⟩
            rw [show i + (n + 1) = i + 1 + n by omega]
            simpa using hn

/-- A fault of reading `H1` and `TGT` together names an unwritten entry of one of them. -/
theorem readPairs_error {h1 tgt : Table 32} {e : Fault} (h : readPairsFrom 0 h1.toList tgt.toList = .error e) :
    ∃ k < 256, (Table.get h1 k = none ∧ e = .unwrittenRead (.table .h1 k)) ∨
      (Table.get tgt k = none ∧ e = .unwrittenRead (.table .tgt k)) := by
  obtain ⟨n, ⟨hn, hg, he⟩ | ⟨hn, hg, he⟩⟩ := readPairsFrom_error h
  all_goals
    have hn' : n < 256 := by simpa using hn
    rw [Table.toList_getElem? _ hn'] at hg
  · exact ⟨n, hn', .inl ⟨by simpa using hg, by simpa using he⟩⟩
  · exact ⟨n, hn', .inr ⟨by simpa using hg, by simpa using he⟩⟩

end Sys2Proof.Machine
end

