-- ==== Sys2Proof/Laws/Gamma.lean ====
section
/-! SUPPORT. The laws of the scaled bounds of GammaFn: each operation bounds the real operation from the side it says. -/

namespace Sys2Proof.Machine

@[simp] theorem withNumeral_eq (x : Nat) (k : Nat → Nat) : withNumeral x k = k x := by cases x <;> rfl

theorem rootDown_sq (n : Nat) : rootDown n * rootDown n ≤ n := by
  unfold rootDown
  split_ifs with h
  · exact h
  · simp

theorem rootUp_sq (n : Nat) : n ≤ rootUp n * rootUp n := by
  unfold rootUp
  split_ifs with h1 h2
  · exact h1
  · exact h2
  · exact Nat.le_mul_self n

theorem scaled_sqrt {S : ℝ} (hS : 0 < S) (x : ℝ) : S * Real.sqrt x = Real.sqrt (S ^ 2 * x) := by
  rw [Real.sqrt_mul (sq_nonneg S), Real.sqrt_sq hS.le]

section
variable {s : Nat} {x y : ℝ} {m n : Nat}

/-- A lower bound of `x` gives a lower bound of its square root. -/
theorem boundRoot_down (hs : 0 < s) (h : (n : ℝ) ≤ s * x) : (boundRoot s false n : ℝ) ≤ s * Real.sqrt x := by
  have hS : (0 : ℝ) < s := Nat.cast_pos.2 hs
  have hr := Nat.cast_le (α := ℝ).2 (rootDown_sq (n * s))
  push_cast at hr
  simp only [boundRoot, Bool.false_eq_true, if_false]
  rw [scaled_sqrt hS]
  exact Real.le_sqrt_of_sq_le (by nlinarith)

/-- An upper bound of `x` gives an upper bound of its square root. -/
theorem boundRoot_up (hs : 0 < s) (h : (s : ℝ) * x ≤ n) : (s : ℝ) * Real.sqrt x ≤ boundRoot s true n := by
  have hS : (0 : ℝ) < s := Nat.cast_pos.2 hs
  have hr := Nat.cast_le (α := ℝ).2 (rootUp_sq (n * s))
  push_cast at hr
  simp only [boundRoot, if_true]
  rw [scaled_sqrt hS]
  exact Real.sqrt_le_iff.2 ⟨Nat.cast_nonneg _, by nlinarith⟩

/-- Lower bounds of two numbers give a lower bound of their product. -/
theorem boundMul_down (hs : 0 < s) (hm : (m : ℝ) ≤ s * x) (hn : (n : ℝ) ≤ s * y) :
    (boundMul s false m n : ℝ) ≤ s * (x * y) := by
  have hS : (0 : ℝ) < s := Nat.cast_pos.2 hs
  have hq := Nat.cast_le (α := ℝ).2 (Nat.div_mul_le_self (m * n) s)
  push_cast at hq
  have h1 : (m : ℝ) * n ≤ (s * x) * (s * y) := mul_le_mul hm hn (Nat.cast_nonneg _) (le_trans (Nat.cast_nonneg _) hm)
  simp only [boundMul, Bool.false_eq_true, if_false]
  exact le_of_mul_le_mul_right (le_trans hq (le_trans h1 (le_of_eq (by ring)))) hS

theorem le_ceilDiv_mul (a : Nat) (h : 0 < s) : a ≤ (a + (s - 1)) / s * s := by
  have := Nat.lt_div_mul_add (a := a + (s - 1)) h
  omega

/-- Upper bounds of two numbers give an upper bound of their product. -/
theorem boundMul_up (hs : 0 < s) (hy : 0 ≤ y) (hm : (s : ℝ) * x ≤ m) (hn : (s : ℝ) * y ≤ n) :
    (s : ℝ) * (x * y) ≤ boundMul s true m n := by
  have hS : (0 : ℝ) < s := Nat.cast_pos.2 hs
  have hq := Nat.cast_le (α := ℝ).2 (le_ceilDiv_mul (m * n) hs)
  rw [Nat.cast_mul, Nat.cast_mul] at hq
  have h1 : (s * x) * (s * y) ≤ (m : ℝ) * n := mul_le_mul hm hn (mul_nonneg hS.le hy) (Nat.cast_nonneg _)
  simp only [boundMul, if_true]
  exact le_of_mul_le_mul_right (le_trans (le_of_eq (by ring)) (le_trans h1 hq)) hS

theorem boundBase_down (s v : Nat) : (boundBase s false v : ℝ) ≤ s * ((v : ℝ) / 255) := by
  have h1 := Nat.cast_le (α := ℝ).2 (Nat.div_mul_le_self (v * s) 255)
  push_cast at h1
  simp only [boundBase, Bool.false_eq_true, if_false]
  linarith

theorem boundBase_up (s v : Nat) : (s : ℝ) * ((v : ℝ) / 255) ≤ boundBase s true v := by
  have h1 : v * s ≤ (v * s + 254) / 255 * 255 := by omega
  have h2 := Nat.cast_le (α := ℝ).2 h1
  rw [Nat.cast_mul, Nat.cast_mul] at h2
  simp only [boundBase, if_true]
  push_cast at h2 ⊢
  linarith

/-- Lower bounds through `k` square roots. -/
theorem boundRoots_down (hs : 0 < s) (k : Nat) (h : (n : ℝ) ≤ s * x) (hx : 0 ≤ x) :
    (boundRoots s false k n : ℝ) ≤ s * x ^ (((2 : ℝ) ^ k)⁻¹) := by
  induction k generalizing n x with
  | zero => simpa [boundRoots] using h
  | succ k ih =>
    have h1 := ih (boundRoot_down hs h) (Real.sqrt_nonneg x)
    rw [Real.sqrt_eq_rpow, ← Real.rpow_mul hx] at h1
    simp only [boundRoots, withNumeral_eq]
    convert h1 using 3
    rw [pow_succ, mul_inv]; ring

/-- Upper bounds through `k` square roots. -/
theorem boundRoots_up (hs : 0 < s) (k : Nat) (h : (s : ℝ) * x ≤ n) (hx : 0 ≤ x) :
    (s : ℝ) * x ^ (((2 : ℝ) ^ k)⁻¹) ≤ boundRoots s true k n := by
  induction k generalizing n x with
  | zero => simpa [boundRoots] using h
  | succ k ih =>
    have h1 := ih (boundRoot_up hs h) (Real.sqrt_nonneg x)
    rw [Real.sqrt_eq_rpow, ← Real.rpow_mul hx] at h1
    simp only [boundRoots, withNumeral_eq]
    convert h1 using 3
    rw [pow_succ, mul_inv]; ring

/-- Lower bounds through `k` squarings. -/
theorem boundSquares_down (hs : 0 < s) (k : Nat) (h : (n : ℝ) ≤ s * x) :
    (boundSquares s false k n : ℝ) ≤ s * x ^ (2 ^ k) := by
  induction k generalizing n x with
  | zero => simpa [boundSquares] using h
  | succ k ih =>
    have h1 := ih (boundMul_down hs h h)
    simp only [boundSquares, withNumeral_eq]
    rwa [← pow_two, ← pow_mul, ← pow_succ'] at h1

/-- Upper bounds through `k` squarings. -/
theorem boundSquares_up (hs : 0 < s) (k : Nat) (h : (s : ℝ) * x ≤ n) (hx : 0 ≤ x) :
    (s : ℝ) * x ^ (2 ^ k) ≤ boundSquares s true k n := by
  induction k generalizing n x with
  | zero => simpa [boundSquares] using h
  | succ k ih =>
    have h1 := ih (boundMul_up hs hx h h) (mul_nonneg hx hx)
    simp only [boundSquares, withNumeral_eq]
    rwa [← pow_two, ← pow_mul, ← pow_succ'] at h1

/-- Lower bounds of `acc * x^m`. -/
theorem boundPow_down (hs : 0 < s) (f : Nat) {a : Nat} {z : ℝ} (h : (n : ℝ) ≤ s * x) (ha : (a : ℝ) ≤ s * z) (hx : 0 ≤ x)
    (hz : 0 ≤ z) : (boundPow s false f n m a : ℝ) ≤ s * (z * x ^ m) := by
  induction f generalizing n m a x z with
  | zero =>
    simp only [boundPow, Bool.false_eq_true, if_false, Nat.cast_zero]
    positivity
  | succ f ih =>
    simp only [boundPow, withNumeral_eq]
    by_cases h0 : m = 0
    · simpa [h0] using ha
    · rw [if_neg h0]
      have hxx := boundMul_down hs h h
      by_cases h1 : m % 2 = 1
      · rw [if_pos h1]
        have := ih (m := m / 2) hxx (boundMul_down hs ha h) (mul_nonneg hx hx) (mul_nonneg hz hx)
        have he : z * x * (x * x) ^ (m / 2) = z * x ^ m := by
          rw [← pow_two, ← pow_mul, mul_assoc, ← pow_succ', show 2 * (m / 2) + 1 = m by omega]
        rwa [he] at this
      · rw [if_neg h1]
        have := ih (m := m / 2) hxx ha (mul_nonneg hx hx) hz
        have he : z * (x * x) ^ (m / 2) = z * x ^ m := by
          rw [← pow_two, ← pow_mul, show 2 * (m / 2) = m by omega]
        rwa [he] at this

/-- Upper bounds of `acc * x^m`, for `x` in [0, 1]. -/
theorem boundPow_up (hs : 0 < s) (f : Nat) {a : Nat} {z : ℝ} (h : (s : ℝ) * x ≤ n) (ha : (s : ℝ) * z ≤ a) (hx : 0 ≤ x)
    (hx1 : x ≤ 1) (hz : 0 ≤ z) : (s : ℝ) * (z * x ^ m) ≤ boundPow s true f n m a := by
  induction f generalizing n m a x z with
  | zero =>
    simp only [boundPow, if_true]
    refine le_trans (mul_le_mul_of_nonneg_left ?_ (Nat.cast_nonneg s)) ha
    exact mul_le_of_le_one_right hz (pow_le_one₀ hx hx1)
  | succ f ih =>
    simp only [boundPow, withNumeral_eq]
    by_cases h0 : m = 0
    · simpa [h0] using ha
    · rw [if_neg h0]
      have hxx := boundMul_up hs hx h h
      have hxx1 : x * x ≤ 1 := mul_le_one₀ hx1 hx hx1
      by_cases h1 : m % 2 = 1
      · rw [if_pos h1]
        have := ih (m := m / 2) hxx (boundMul_up hs hx ha h) (mul_nonneg hx hx) hxx1 (mul_nonneg hz hx)
        have he : z * x * (x * x) ^ (m / 2) = z * x ^ m := by
          rw [← pow_two, ← pow_mul, mul_assoc, ← pow_succ', show 2 * (m / 2) + 1 = m by omega]
        rwa [he] at this
      · rw [if_neg h1]
        have := ih (m := m / 2) hxx ha (mul_nonneg hx hx) hxx1 hz
        have he : z * (x * x) ^ (m / 2) = z * x ^ m := by
          rw [← pow_two, ← pow_mul, show 2 * (m / 2) = m by omega]
        rwa [he] at this

end

/-- With enough fuel a negative power of two is left beside an odd factor only. -/
theorem trimExponent_lowest (f : Nat) {m : Nat} {e : Int} (hm : 0 < m) (he : -(f : Int) ≤ e) :
    ∃ m' e', trimExponent f m e = .dyadic m' e' ∧ 0 < m' ∧ (e' < 0 → m' % 2 = 1) := by
  induction f generalizing m e with
  | zero => exact ⟨m, e, rfl, hm, fun h => by omega⟩
  | succ f ih =>
    rw [trimExponent]
    split_ifs with h
    · exact ih (by omega) (by omega)
    · exact ⟨m, e, rfl, hm, fun h' => by omega⟩

/-- What an instance's `gammaFn` can be at an exponent: that of R181, or the values of a row. -/
theorem gammaOf_cases (p : Params) (g : Exponent) :
    ((∀ r ∈ p.gammaRows, rowExponent r ≠ g) ∧ gammaOf p g = gammaFn g) ∨
    ∃ r ∈ p.gammaRows, rowExponent r = g ∧ gammaOf p g = fun v => r.levels.getD v 0 := by
  unfold gammaOf
  cases h : p.gammaRows.find? fun r => decide (rowExponent r = g) with
  | none => exact .inl ⟨by simpa using h, rfl⟩
  | some r => exact .inr ⟨r, List.mem_of_find?_eq_some h, by simpa using List.find?_some h, rfl⟩

theorem GammaRow.ok_iff {r : GammaRow} :
    r.ok = true ↔ (r.num % 2 = 1 ∧ 0 < r.shift ∧ r.levels.length = 256) ∧
      (r.levels.getD 0 0 = 0 ∧ r.levels.getD 255 0 = 255) ∧ (∀ x ∈ r.levels, x ≤ 255) ∧ r.levels.Pairwise (· ≤ ·) := by
  simp only [GammaRow.ok, Bool.and_eq_true, decide_eq_true_eq, List.all_eq_true, and_assoc]

end Sys2Proof.Machine
end

