-- ==== Sys2Proof/Laws/HostPort.lean ====
section
/-! SUPPORT. The operations of the host window, said once: where an access can land, and that plane writes keep the canonical
form. -/

namespace Sys2Proof.Machine

/-- A host write to a plane keeps its canonical form. -/
theorem writePlaneWord_wf (width : Width) {m : Memory} (k : Nat) (v : Word) (h : Memory.wf m) :
    Memory.wf (writePlaneWord width m k v) := by
  unfold writePlaneWord
  cases width
  · exact Memory.wf_write _ _ h
  all_goals exact Memory.wf_write _ _ (Memory.wf_write _ _ (Memory.wf_write _ _ (Memory.wf_write _ _ h)))

/-- The planes of a reset state are in canonical form. -/
theorem resetWith_planes_wf (q : PlaneId) (p : Params) : Memory.wf (planeOf q (State.resetWith p)) := by
  cases q <;> exact Memory.wf_nil

theorem reset_planes_wf (q : PlaneId) : Memory.wf (planeOf q State.reset) := resetWith_planes_wf q Config.largest

/-- What a byte of a plane reads as after a 32-bit host write. -/
theorem read_writePlaneWord_b32 (m : Memory) (k : Nat) (v : Word) (j : Nat) :
    Memory.read (writePlaneWord .b32 m k v) j =
      if j = k + 3 then some (byteOfWord v 3) else if j = k + 2 then some (byteOfWord v 2)
      else if j = k + 1 then some (byteOfWord v 1) else if j = k then some (byteOfWord v 0) else Memory.read m j := by
  simp only [writePlaneWord, Memory.read_write]

theorem read_writePlaneWord_b8 (m : Memory) (k : Nat) (v : Word) (j : Nat) :
    Memory.read (writePlaneWord .b8 m k v) j = if j = k then some (byteOfWord v 0) else Memory.read m j := by
  simp only [writePlaneWord, Memory.read_write]

/-- A plane byte that an offset targets lies below `MAX_PIX`. -/
theorem target_plane_lt {p : Params} {off : Word} {q : PlaneId} {k : Nat} (h : target p off = .plane q k) : k < p.maxPix := by
  unfold target at h
  split at h
  · split at h
    · rename_i hlt; cases h; exact hlt
    · cases h
  · split at h
    · cases h
    · split at h <;> cases h

/-- What a 32-bit access without a bus fault can reach. -/
theorem busCheck_b32_none {p : Params} {off : Word} (h : busCheck p .b32 off = none) :
    off.toNat % 4 = 0 ∧ target p off ≠ .hole ∧ ∀ q k, target p off = .plane q k → k + 3 < p.maxPix := by
  simp only [busCheck] at h
  split at h
  · cases h
  · rename_i h4
    refine ⟨by omega, ?_, ?_⟩
    · intro ht; simp [ht] at h
    · intro q k ht
      simp only [ht] at h
      split at h
      · assumption
      · cases h

/-- What an 8-bit access without a bus fault can reach: a plane byte. -/
theorem busCheck_b8_none {p : Params} {off : Word} (h : busCheck p .b8 off = none) : ∃ q k, target p off = .plane q k := by
  simp only [busCheck] at h
  split at h
  · cases h
  · rename_i q hq
    split at h
    · cases h
    · rename_i ht
      unfold target at ht ⊢
      simp only [hq] at ht ⊢
      split
      · exact ⟨_, _, rfl⟩
      · rename_i hlt; simp [hlt] at ht

end Sys2Proof.Machine
end

