-- ==== Sys2Proof/Laws/PerInstr.lean ====
section
/-! SUPPORT. A law of every command as syntax: it is well formed and its word is legal (R82, R85). -/

namespace Sys2Proof.Laws.EncodedLegal

/-- The command is well formed and the word it encodes to passes the checks of R85. -/
def Statement (i : Instr) : Prop := i.wf = true ∧ wordLegal (encode i) = true

theorem nop : Statement .nop := by unfold Statement; decide

theorem hist : Statement .hist := by unfold Statement; decide

theorem shape : Statement .shape := by unfold Statement; decide

theorem rescale (pol : Policy) : Statement (.rescale pol) := by unfold Statement; cases pol <;> decide

theorem ivbuild : Statement .ivbuild := by unfold Statement; decide

theorem xremap : Statement .xremap := by unfold Statement; decide

theorem cdflut : Statement .cdflut := by unfold Statement; decide

theorem lutapply : Statement .lutapply := by unfold Statement; decide

theorem gamma : Statement .gamma := by unfold Statement; decide

theorem diffuse (meth : Method) (serp : Scan) : Statement (.diffuse meth serp) := by
  unfold Statement; cases meth <;> cases serp <;> decide

theorem matchx : Statement .matchx := by unfold Statement; decide

theorem matcha : Statement .matcha := by unfold Statement; decide

theorem dither (meth : Method) (serp : Scan) : Statement (.dither meth serp) := by
  unfold Statement; cases meth <;> cases serp <;> decide

end Sys2Proof.Laws.EncodedLegal
end

