-- ==== Sys2Proof/Laws/Step.lean ====
section
/-! SUPPORT. What one step can do, said once: the engine runs a command, or one of the settled transitions. -/

namespace Sys2Proof.Machine

@[simp] theorem runTurn_run (i : Instr) (s : State) : runTurn (.run i s) = exec i s := rfl

@[simp] theorem runTurn_ok (s : State) : runTurn (.settled (.ok s)) = .next s := rfl

@[simp] theorem runTurn_error (f : Fault) : runTurn (.settled (.error f)) = .fault f := rfl

theorem engineTurn_idle {s : State} (h : s.job = none) : engineTurn s = .settled (.ok s) := by simp [engineTurn, h]

theorem engineTurn_latched {s : State} {j : Job} (h : s.job = some j) : engineTurn s = .run j.cmd s := by
  simp [engineTurn, h]

theorem step_nil {s : State} (h : s.agenda = []) : step s = runTurn (engineTurn s) := by simp [step, nextTurn, h]

theorem step_engine {s : State} {rest : List Event} (h : s.agenda = .engine :: rest) :
    step s = runTurn (engineTurn { s with agenda := rest }) := by simp [step, nextTurn, h]

theorem step_reset {s : State} {rest : List Event} (h : s.agenda = .reset :: rest) :
    step s = .next (assertReset { s with agenda := rest }) := by simp [step, nextTurn, h]

theorem step_host {s : State} {a : Access} {rest : List Event} (h : s.agenda = .host a :: rest) :
    step s = runTurn (hostTurn a { s with agenda := rest }) := by simp [step, nextTurn, h]

@[simp] theorem target_cmd (p : Params) : target p 0#32 = .reg .cmd := rfl

@[simp] theorem target_status (p : Params) : target p 4#32 = .reg .status := rfl

@[simp] theorem busCheck_cmd (p : Params) : busCheck p .b32 0#32 = none := rfl

@[simp] theorem busCheck_status (p : Params) : busCheck p .b32 4#32 = none := rfl

/-- A write of `w` to `CMD` of an idle block is its submission. -/
theorem step_cmd {s : State} {w : Word} {rest : List Event} (hj : s.job = none)
    (h : s.agenda = .host (.write .b32 0#32 w) :: rest) :
    step s = runTurn (submitWord w { s with agenda := rest, replies := .ack :: s.replies }) := by
  rw [step_host h]
  simp [hostTurn, busy, hj, answer]

theorem hostTurn_read_fault {width : Width} {off : Word} {s : State} {k : BusKind}
    (h : busCheck s.params width off = some k) :
    hostTurn (.read width off) s = .settled (.ok (answer (.busFault k off) s)) := by
  simp [hostTurn, h]

theorem hostTurn_write_fault {width : Width} {off v : Word} {s : State} {k : BusKind}
    (h : busCheck s.params width off = some k) :
    hostTurn (.write width off v) s = .settled (.ok (answer (.busFault k off) s)) := by
  simp [hostTurn, h]

/-- What a host access can do: a bus fault, a read, a submission, or a write. -/
theorem hostTurn_cases (a : Access) (s : State) :
    (∃ r, hostTurn a s = .settled (.ok (answer r s))) ∨
    (∃ width off, hostTurn a s =
      match hostRead width off s with
      | .ok (v, t) => .settled (.ok (answer (.value v) t))
      | .error e => .settled (.error e)) ∨
    (∃ v, busy s = false ∧ hostTurn a s = submitWord v (answer .ack s)) ∨
    (∃ width off v, (target s.params off ≠ .reg .cmd ∨ busy s = true) ∧
      hostTurn a s = .settled (.ok (answer .ack (hostWrite width off v s)))) := by
  cases a with
  | read width off =>
    cases hb : busCheck s.params width off with
    | some k => exact .inl ⟨_, hostTurn_read_fault hb⟩
    | none =>
      refine .inr (.inl ⟨width, off, ?_⟩)
      first
        | (simp only [hostTurn, hb]; done)
        | (simp only [hostTurn, hb]; rcases hostRead width off s with e | ⟨v, t⟩ <;> rfl)
  | write width off v =>
    cases hb : busCheck s.params width off with
    | some k => exact .inl ⟨_, hostTurn_write_fault hb⟩
    | none =>
      by_cases hc : target s.params off = .reg .cmd ∧ busy s = false
      · exact .inr (.inr (.inl ⟨v, hc.2, by simp [hostTurn, hb, hc]⟩))
      · refine .inr (.inr (.inr ⟨width, off, v, ?_, by simp only [hostTurn, hb, if_neg hc]⟩))
        by_contra hn
        push Not at hn
        exact hc ⟨hn.1, by simpa using hn.2⟩

/-- What a submission can do. -/
theorem submitWord_cases (w : Word) (s : State) :
    (∃ e, decode w = .error e ∧ submitWord w s = .settled (.ok (rejectIllegal s))) ∨
    (∃ i, decode w = .ok i ∧ engineNext s.agenda = true ∧ submitWord w s = .run i s) ∨
    (∃ i, decode w = .ok i ∧ engineNext s.agenda = false ∧ submitWord w s = .settled (.ok (accept i s))) := by
  unfold submitWord
  cases hd : decode w with
  | error e => exact .inl ⟨e, rfl, rfl⟩
  | ok i => cases hn : engineNext s.agenda <;> simp

/-- What a read can do: a register value, a stored value or a draw. -/
theorem hostRead_cases {width : Width} {off : Word} {s : State} {v : Word} {t : State}
    (h : hostRead width off s = .ok (v, t)) : t = s ∨ (busy s = true ∧ t = { s with draws := s.draws + 1 }) := by
  unfold hostRead at h
  split at h
  · simp only [Except.ok.injEq, Prod.mk.injEq] at h; exact .inl h.2.symm
  · split at h
    · simp only [Except.ok.injEq, storageRead] at h
      split at h
      · rename_i hb; exact .inr ⟨hb, (Prod.mk.inj h).2.symm⟩
      · exact .inl (Prod.mk.inj h).2.symm
    · cases h
  · split at h
    · simp only [Except.ok.injEq, storageRead] at h
      split at h
      · rename_i hb; exact .inr ⟨hb, (Prod.mk.inj h).2.symm⟩
      · exact .inl (Prod.mk.inj h).2.symm
    · cases h
  · simp only [Except.ok.injEq, Prod.mk.injEq] at h; exact .inl h.2.symm

/-- What a write can do. -/
theorem hostWrite_cases (width : Width) (off v : Word) (s : State) :
    hostWrite width off v s = clearStatus v s ∨
    (busy s = true ∧ hostWrite width off v s = raiseError .busyWrite s) ∨
    (busy s = false ∧ ∃ r, hostWrite width off v s = writeReg r v s) ∨
    (busy s = false ∧ ∃ t i, hostWrite width off v s = setTableWord t i v s) ∨
    (busy s = false ∧ ∃ p k, k < s.params.maxPix ∧ target s.params off = .plane p k ∧
      hostWrite width off v s = setPlane p (writePlaneWord width (planeOf p s) k v) s) ∨
    hostWrite width off v s = s := by
  have hp : ∀ p k, target s.params off = .plane p k → k < s.params.maxPix := by
    intro p k h
    unfold target at h
    split at h
    · split at h
      · rename_i hlt; cases h; exact hlt
      · cases h
    · split at h
      · cases h
      · split at h <;> cases h
  unfold hostWrite
  cases ht : target s.params off with
  | reg r =>
    cases r with
    | status => exact .inl rfl
    | cmd =>
      cases hb : busy s with
      | true => exact .inr (.inl ⟨rfl, by simp⟩)
      | false => exact .inr (.inr (.inl ⟨rfl, .cmd, by simp⟩))
    | width =>
      cases hb : busy s with
      | true => exact .inr (.inl ⟨rfl, by simp⟩)
      | false => exact .inr (.inr (.inl ⟨rfl, .width, by simp⟩))
    | height =>
      cases hb : busy s with
      | true => exact .inr (.inl ⟨rfl, by simp⟩)
      | false => exact .inr (.inr (.inl ⟨rfl, .height, by simp⟩))
    | reflen =>
      cases hb : busy s with
      | true => exact .inr (.inl ⟨rfl, by simp⟩)
      | false => exact .inr (.inr (.inl ⟨rfl, .reflen, by simp⟩))
    | gammaLo =>
      cases hb : busy s with
      | true => exact .inr (.inl ⟨rfl, by simp⟩)
      | false => exact .inr (.inr (.inl ⟨rfl, .gammaLo, by simp⟩))
    | gammaHi =>
      cases hb : busy s with
      | true => exact .inr (.inl ⟨rfl, by simp⟩)
      | false => exact .inr (.inr (.inl ⟨rfl, .gammaHi, by simp⟩))
  | table t i =>
    cases hb : busy s with
    | true => exact .inr (.inl ⟨rfl, by simp⟩)
    | false => exact .inr (.inr (.inr (.inl ⟨rfl, t, i, by simp⟩)))
  | plane p k =>
    cases hb : busy s with
    | true => simp
    | false => exact .inr (.inr (.inr (.inr (.inl ⟨rfl, p, k, hp p k ht, rfl, by simp⟩))))
  | hole => simp

end Sys2Proof.Machine
end

