-- ==== Sys2Proof/Tests/Slice0.lean ====
section
/-! SUPPORT. Tests on small states, with the results of spec/95_test_vectors.md and of the rules' examples, and a witness for the
hypotheses of each statement that has any. -/

namespace Sys2Proof.Tests

set_option Elab.async false
open Sys2Proof.Machine

/-! Well-formedness: one ill-formed term for each check, refused. -/

theorem test_reservedZero_refuses : wordLegal 0x80000012 = false ∧ reservedZero 0x80000012 = false := by decide

theorem test_opKnown_refuses : wordLegal 0x0000000A = false ∧ opKnown (opField 0x0000000A) = false := by decide

theorem test_opKnown_refuses_after_the_map : wordLegal 0x00000013 = false ∧ wordLegal 0x0000000F = false := by decide

theorem test_unusedZero_refuses_pol : wordLegal 0x00000101 = false ∧ unusedZero 0x00000101 = false := by decide

theorem test_unusedZero_refuses_scan : wordLegal 0x00000203 = false ∧ unusedZero 0x00000410 = false := by decide

/-- Small parameters, legal by R8. -/
def small : Params := { maxW := 8, maxH := 8, maxPix := 256, kernel1Taps := Config.defaultKernel1, gammaRows := [] }

theorem test_params_wf : small.wf = true ∧ Config.largest.wf = true := by decide

theorem test_params_refuse_width : ({ small with maxW := 65536 } : Params).wf = false := by decide

theorem test_params_refuse_height : ({ small with maxH := 0 } : Params).wf = false := by decide

theorem test_params_refuse_capacity : ({ small with maxPix := 255 } : Params).wf = false := by decide

theorem test_params_refuse_tap_count : ({ small with kernel1Taps := [⟨1, 0, 48⟩] } : Params).wf = false := by decide

theorem test_params_refuse_earlier_tap :
    ({ small with kernel1Taps := ⟨-1, 0, 7⟩ :: Config.defaultKernel1.tail } : Params).wf = false := by decide

theorem test_params_refuse_equal_taps :
    ({ small with kernel1Taps := ⟨2, 0, 7⟩ :: Config.defaultKernel1.tail } : Params).wf = false := by decide

theorem test_params_refuse_weights :
    ({ small with kernel1Taps := ⟨1, 0, 8⟩ :: Config.defaultKernel1.tail } : Params).wf = false := by decide

/-- A row at exponent 1/2 that obeys the laws of R181: 0 below 16, the correctly rounded 64 at 16, 255 above. -/
def steps : GammaRow := { num := 1, shift := 1, levels := List.replicate 16 0 ++ [64] ++ List.replicate 239 255 }

theorem test_params_gamma_row : ({ small with gammaRows := [steps] } : Params).wf = true := by decide +kernel

theorem test_params_refuse_integer_exponents :
    ({ small with gammaRows := [{ steps with num := 2 }] } : Params).wf = false ∧
    ({ small with gammaRows := [{ steps with shift := 0 }] } : Params).wf = false := by decide +kernel

theorem test_params_refuse_gamma_level_count :
    ({ small with gammaRows := [{ steps with levels := 0 :: steps.levels }] } : Params).wf = false := by decide +kernel

theorem test_params_refuse_gamma_ends :
    ({ small with gammaRows := [{ steps with levels := 1 :: List.replicate 255 255 }] } : Params).wf = false ∧
    ({ small with gammaRows := [{ steps with levels := List.replicate 256 0 }] } : Params).wf = false := by decide +kernel

theorem test_params_refuse_falling_gamma :
    ({ small with gammaRows := [{ steps with levels := [0, 9, 8] ++ List.replicate 253 255 }] } : Params).wf = false := by
  decide +kernel

theorem test_params_refuse_equal_gamma_rows : ({ small with gammaRows := [steps, steps] } : Params).wf = false := by
  decide +kernel

/-! Decoding: words written out from the encoding column of R84. -/

theorem test_decode_nop : decode 0b00000000000000000000000000000000 = .ok .nop := rfl
theorem test_decode_hist : decode 0b00000000000000000000000000000001 = .ok .hist := rfl
theorem test_decode_shape : decode 0b00000000000000000000000000000010 = .ok .shape := rfl
theorem test_decode_rescale : decode 0b00000000000000000000000000000011 = .ok (.rescale .last) := rfl
theorem test_decode_rescale_p : decode 0b00000000000000000000000100000011 = .ok (.rescale .lastNonzero) := rfl
theorem test_decode_ivbuild : decode 0b00000000000000000000000000000100 = .ok .ivbuild := rfl
theorem test_decode_xremap : decode 0b00000000000000000000000000000101 = .ok .xremap := rfl
theorem test_decode_cdflut : decode 0b00000000000000000000000000000110 = .ok .cdflut := rfl
theorem test_decode_lutapply : decode 0b00000000000000000000000000000111 = .ok .lutapply := rfl
theorem test_decode_gamma : decode 0b00000000000000000000000000001000 = .ok .gamma := rfl
theorem test_decode_diffuse : decode 0b00000000000000000000000000001001 = .ok (.diffuse .m0 .raster) := rfl
theorem test_decode_diffuse_m : decode 0b00000000000000000000001000001001 = .ok (.diffuse .m1 .raster) := rfl
theorem test_decode_diffuse_s : decode 0b00000000000000000000010000001001 = .ok (.diffuse .m0 .serpentine) := rfl
theorem test_decode_matchx : decode 0b00000000000000000000000000010000 = .ok .matchx := rfl
theorem test_decode_matcha : decode 0b00000000000000000000000000010001 = .ok .matcha := rfl
theorem test_decode_dither : decode 0b00000000000000000000000000010010 = .ok (.dither .m0 .raster) := rfl
theorem test_decode_dither_sm : decode 0b00000000000000000000011000010010 = .ok (.dither .m1 .serpentine) := rfl

theorem test_decode_refuses : decode 0x80000000 = .error .reservedBits ∧ decode 0x0000000A = .error .reservedOpcode ∧
    decode 0x00000101 = .error .unusedField := ⟨rfl, rfl, rfl⟩

theorem test_encode_words : assemblerTable.map (fun r => encode r.2) = legalWords := by decide

theorem test_assemble : assemble "DIFFUSE.M1.SERP" = some (.diffuse .m1 .serpentine) ∧ assemble "DITHER" = some (.dither .m0 .raster) ∧
    assemble "RESCALE" = some (.rescale .last) ∧ assemble "NOP.M0" = none := by decide +kernel

/-! One step of each command. -/

/-- A plane that holds the listed bytes from index 0 on. -/
def plane (bytes : List Nat) : Memory := (List.range bytes.length).zip (bytes.map (BitVec.ofNat 8))

/-- A table with the listed entries, and `rest` elsewhere. -/
def table (w : Nat) (entries : List (Nat × Nat)) (rest : Nat) : Table w :=
  Table.ofFun fun i => BitVec.ofNat w ((entries.find? fun e => e.1 == i).map Prod.snd |>.getD rest)

/-- An idle block with a plane of the given width and height. -/
def image (w h : Nat) (bytes : List Nat) : State :=
  { State.resetWith small with width := BitVec.ofNat 32 w, height := BitVec.ofNat 32 h, src := plane bytes }

/-- The values of `f` at the state that one step leaves after the word `w` is written to `CMD`. -/
def after {α : Type} (w : Nat) (s : State) (f : State → α) : Option α := (nextOf (step (s.withFetchWord 32 w))).map f

/-- The first `n` bytes of `DST`. -/
def dstBytes (n : Nat) (s : State) : List (Option Nat) := (List.range n).map fun k => (Memory.read s.dst k).map BitVec.toNat

/-- The listed entries of a table. -/
def entries {w : Nat} (t : Table w) (is : List Nat) : List (Option Nat) := is.map fun i => (Table.get t i).map BitVec.toNat

/-- V-ST-2, R105: `NOP` with `ERR_ILL` set. -/
theorem test_nop : after 0x00 { image 0 0 [] with status := ⟨false, true, false, false⟩ } statusWord = some 0x00000006 := by
  decide +kernel

/-- R120, example. -/
theorem test_hist : after 0x01 (image 4 1 [3, 0, 3, 255]) (fun t => entries t.h1 [0, 1, 2, 3, 254, 255]) =
    some [some 1, some 0, some 0, some 2, some 0, some 1] := by decide +kernel

/-- V-ST-9: the product of the sizes does not wrap. -/
theorem test_hist_rejected : after 0x01 { State.reset with width := 65535, height := 65535 } statusWord = some 0x00000008 := by
  decide +kernel

/-- R121, example. -/
theorem test_shape : after 0x02 { image 0 0 [] with ref := plane [10, 0, 5], reflen := 3 }
    (fun t => entries t.shape [0, 1, 2, 3, 255]) = some [some 10, some 0, some 5, some 0, some 0] := by decide +kernel

/-- V-RS-9. -/
theorem test_rescale_last : after 0x03 { image 5 2 [] with shape := table 32 [(0, 1), (1, 1), (2, 1)] 0 }
    (fun t => entries t.tgt [0, 1, 2, 3, 255]) = some [some 3, some 3, some 3, some 0, some 1] := by decide +kernel

/-- V-RS-10. -/
theorem test_rescale_lastnz : after 0x103 { image 5 2 [] with shape := table 32 [(0, 1), (1, 1), (2, 1)] 0 }
    (fun t => entries t.tgt [0, 1, 2, 3, 255]) = some [some 3, some 3, some 4, some 0, some 0] := by decide +kernel

/-- R140, example: `LEFT`. -/
theorem test_ivbuild_left :
    after 0x04 { image 0 0 [] with h1 := table 32 [(10, 3), (20, 3), (30, 2)] 0, tgt := table 32 [(0, 2), (1, 4), (2, 2)] 0 }
      (fun t => entries t.left [0, 10, 11, 30, 31, 255]) = some [some 0, some 0, some 1, some 1, some 2, some 2] := by
  decide +kernel

/-- R140, example: `RIGHT`. -/
theorem test_ivbuild_right :
    after 0x04 { image 0 0 [] with h1 := table 32 [(10, 3), (20, 3), (30, 2)] 0, tgt := table 32 [(0, 2), (1, 4), (2, 2)] 0 }
      (fun t => entries t.right [0, 9, 10, 29, 30, 255]) = some [some 0, some 0, some 1, some 1, some 2, some 2] := by
  decide +kernel

/-- The plane of the example of R142, with the interval table of the example of R140. -/
def remapExample : State :=
  { image 4 2 [10, 10, 20, 20, 10, 30, 30, 20] with
    left := table 8 [(10, 0), (20, 1), (30, 1)] 0
    right := table 8 [(10, 1), (20, 1), (30, 2)] 0
    tgt := table 32 [(0, 2), (1, 4), (2, 2)] 0 }

/-- R142, example. -/
theorem test_xremap : after 0x05 remapExample (fun t => (dstBytes 8 t, entries t.cnt [0, 1, 2, 3], entries t.left [10, 20, 30])) =
    some ([some 0, some 0, some 1, some 1, some 1, some 1, some 2, some 1], [some 2, some 5, some 1, some 0],
      [some 1, some 1, some 2]) := by decide +kernel

/-- R144 (5): the order of the pixels matters. -/
theorem test_xremap_order :
    after 0x05 { image 4 1 [0, 1, 0, 1] with left := table 8 [(0, 0), (1, 0)] 1, right := table 8 [(0, 0), (1, 1)] 1,
                                             tgt := table 32 [(0, 2), (1, 2)] 0 } (dstBytes 4) =
      some [some 0, some 0, some 0, some 1] := by decide +kernel

/-- R160, example. -/
theorem test_cdflut :
    after 0x06 { image 2 2 [] with h1 := table 32 [(5, 2), (6, 2)] 0, tgt := table 32 [(0, 1), (1, 2), (2, 1)] 0 }
      (fun t => entries t.lut [0, 4, 5, 6, 255]) = some [some 0, some 0, some 0, some 2, some 2] := by decide +kernel

/-- R160's pseudocode by hand where its corner case 4 says 255 (log 25): at level 5, `cHs = 1`, `dprev = 1`, `dcur = 3`. -/
theorem test_cdflut_target_in_last_bin :
    after 0x06 { image 2 2 [] with h1 := table 32 [(5, 1), (6, 3)] 0, tgt := table 32 [(255, 4)] 0 }
      (fun t => entries t.lut [4, 5, 6]) = some [some 0, some 254, some 255] := by decide +kernel

/-- R163, example. -/
theorem test_lutapply :
    after 0x07 { image 4 2 [10, 10, 20, 20, 10, 30, 30, 20] with lut := table 8 [(10, 0), (20, 1), (30, 2)] 9 } (dstBytes 9) =
      some [some 0, some 0, some 1, some 1, some 0, some 2, some 2, some 1, none] := by decide +kernel

/-- R180, example: gamma 2.0. -/
theorem test_gamma : after 0x08 { image 0 0 [] with gammaHi := 0x40000000 }
    (fun t => entries t.glut [0, 8, 15, 16, 64, 100, 128, 200, 254, 255]) =
      some [some 0, some 0, some 1, some 1, some 16, some 39, some 64, some 157, some 253, some 255] := by decide +kernel

/-- R182: `+inf`. -/
theorem test_gamma_infinite : after 0x08 { image 0 0 [] with gammaHi := 0x7FF00000 } (fun t => entries t.glut [0, 254, 255]) =
    some [some 0, some 0, some 255] := by decide +kernel

/-- R194, example. -/
theorem test_diffuse : after 0x09 { image 2 2 [200, 200, 200, 200] with glut := table 8 [(200, 200)] 0 } (dstBytes 4) =
    some [some 255, some 255, some 255, some 255] := by decide +kernel

/-- R194: `GLUT` is unwritten after reset. -/
theorem test_diffuse_faults : nextOf (step ((image 2 2 [200, 200, 200, 200]).withFetchWord 32 0x09)) = none := by decide +kernel

/-- 42_exact_matcher R142 with R145: the shape `[1, 2, 1]` gives the target of the example. -/
theorem test_matchx :
    after 0x10 { image 4 2 [10, 10, 20, 20, 10, 30, 30, 20] with ref := plane [1, 2, 1], reflen := 3 } (dstBytes 8) =
      some [some 0, some 0, some 1, some 1, some 1, some 1, some 2, some 1] := by decide +kernel

/-- R164, example. -/
theorem test_matcha :
    after 0x11 { image 4 2 [10, 10, 20, 20, 10, 30, 30, 20] with ref := plane [1, 2, 1], reflen := 3 } (dstBytes 8) =
      some [some 0, some 0, some 1, some 1, some 0, some 2, some 2, some 1] := by decide +kernel

/-- R195, example. -/
theorem test_dither : after 0x12 { image 2 2 [128, 200, 64, 255] with gammaHi := 0x40000000 } (dstBytes 4) =
    some [some 0, some 255, some 0, some 255] := by decide +kernel

/-- V-L1-5, rows 0 and 1, on which later rows have no effect: the second row is scanned right to left. -/
theorem test_dither_serpentine :
    (after 0x412 (image 8 2 (List.replicate 16 50)) (dstBytes 16)).map (List.map (Option.getD · 1)) =
      some [0, 0, 0, 0, 0, 0, 0, 0, 255, 0, 0, 255, 0, 0, 255, 0] := by decide +kernel

/-! Host accesses. -/

/-- The replies after one step on the event `e`, and `STATUS`. -/
def hostStep (e : Event) (s : State) : Option (List Reply × Word) :=
  (nextOf (step { s with agenda := [e] })).map fun t => (t.replies, statusWord t)

/-- A block with a latched command. -/
def busyBlock : State :=
  { image 2 2 [1, 2, 3, 4] with job := some { cmd := .hist, geom := { w := 2, h := 2, l := 0 } }, h1 := table 32 [] 7 }

/-- V-ST-15. -/
theorem test_busy_write : hostStep (wr 0x8 7) busyBlock = some ([.ack], 0x00000011) := by decide +kernel

/-- V-ST-16. -/
theorem test_busy_illegal : hostStep (wr 0x0 0x0000000A) busyBlock = some ([.ack], 0x00000011) := by decide +kernel

/-- V-ST-12. -/
theorem test_status_clear : hostStep (wr 0x4 0x04) { image 0 0 [] with status := ⟨true, true, true, false⟩ } =
    some ([.ack], 0x0000000A) := by decide +kernel

/-- V-MA-5, V-MA-7, V-MA-8, V-MA-11. -/
theorem test_bus_faults :
    hostStep (rd 0x14) (image 0 0 []) = some ([.busFault .unmapped 0x14], 0) ∧
    hostStep (rd 0x2) (image 0 0 []) = some ([.busFault .align 0x2], 0) ∧
    hostStep (wrb 0x8 1) (image 0 0 []) = some ([.busFault .align 0x8], 0) ∧
    hostStep (rdb 0x14) (image 0 0 []) = some ([.busFault .align 0x14], 0) := by decide +kernel

/-- V-MA-14. -/
theorem test_busy_misaligned : hostStep (wr 0x01000002 1) busyBlock = some ([.busFault .align 0x01000002], 0x00000001) := by
  decide +kernel

/-- R63. -/
theorem test_little_endian : hostStep (rd 0x01000000) (image 2 2 [1, 2, 3, 4]) = some ([.value 0x04030201], 0) := by decide +kernel

/-! Witnesses: for each statement with hypotheses, states and operands that meet all of them, one for each clause. -/

theorem exists_next {o : Host.Outcome State Fault Refusal} (h : (nextOf o).isSome = true) : ∃ t, o = .next t := by
  cases o with
  | next t => exact ⟨t, rfl⟩
  | fault f => simp [nextOf] at h
  | refused r => simp [nextOf] at h

/-- An idle block in which every command is accepted and ready. -/
def full : State :=
  { image 2 2 [1, 2, 200, 4] with
    reflen := 3, ref := plane [5, 0, 7], dst := plane [9, 9, 9, 9, 9, 9]
    h1 := table 32 [] 1, shape := table 32 [] 1, tgt := table 32 [] 1, left := table 8 [] 3, right := table 8 [] 4
    cnt := table 32 [] 0, lut := table 8 [] 5, glut := table 8 [] 6
    status := { done := false, errIll := true, errGeom := true, errBusywr := true } }

/-- A command latched in `full`. -/
def latched (i : Instr) : State := { full with job := some { cmd := i, geom := latchGeom full } }

theorem full_accepts (i : Instr) : accepts i full := by
  refine ⟨rfl, ?_⟩
  cases i <;> rfl

theorem full_levels {w : Nat} (t : Table w) (h : entriesWritten t) (m : Memory) (n : Nat) : levelsWritten m n t :=
  fun _ _ v _ => h _ v.isLt

theorem table_written (w : Nat) (es : List (Nat × Nat)) (rest : Nat) : entriesWritten (table w es rest) := by
  intro i hi
  rw [table, Table.get_ofFun _ hi]
  rfl

theorem full_ready (i : Instr) : ready i full := by
  have hs : bytesWritten full.src (pixelCount full) := by unfold bytesWritten; decide +kernel
  have hr : bytesWritten full.ref (min full.reflen.toNat 256) := by unfold bytesWritten; decide +kernel
  have h1 : entriesWritten full.h1 := table_written _ _ _
  have h2 : entriesWritten full.shape := table_written _ _ _
  have h3 : entriesWritten full.tgt := table_written _ _ _
  have h4 : entriesWritten full.left := table_written _ _ _
  have h5 : entriesWritten full.right := table_written _ _ _
  have h6 : entriesWritten full.lut := table_written _ _ _
  have h7 : entriesWritten full.glut := table_written _ _ _
  cases i with
  | nop => trivial
  | hist => exact hs
  | shape => exact hr
  | rescale p => exact h2
  | ivbuild => exact ⟨h1, h3⟩
  | xremap => exact ⟨hs, full_levels _ h4 _ _, full_levels _ h5 _ _, h3⟩
  | cdflut => exact ⟨h1, h3⟩
  | lutapply => exact ⟨hs, full_levels _ h6 _ _⟩
  | gamma => trivial
  | diffuse m c => exact ⟨hs, full_levels _ h7 _ _⟩
  | matchx => exact ⟨hs, hr⟩
  | matcha => exact ⟨hs, hr⟩
  | dither m c => exact hs

theorem full_written : entriesWritten full.h1 ∧ entriesWritten full.tgt ∧ entriesWritten full.shape :=
  ⟨(full_ready .ivbuild).1, (full_ready .ivbuild).2, full_ready (.rescale .last)⟩

theorem full_completes (i : Instr) (h : (nextOf (exec i full)).isSome = true) : full.job = none ∧ ∃ t, exec i full = .next t :=
  ⟨rfl, exists_next h⟩

theorem full_inv : Inv { latched .hist with rb := [[0, 7, -32768], [32767]], status := ⟨false, true, true, true⟩ } where
  params := by decide
  src := ⟨by decide +kernel, by decide +kernel⟩
  dst := ⟨by decide +kernel, by decide +kernel⟩
  ref := ⟨by decide +kernel, by decide +kernel⟩
  slots := by decide
  rows := by
    intro row hr
    simp only [List.mem_cons, List.not_mem_nil, or_false] at hr
    rcases hr with rfl | rfl <;> exact ⟨by decide, by decide⟩
  jobGeom := by intro j h; cases h; rfl
  jobChecked := by intro j h; cases h; decide +kernel
  jobDone := by intro j h; rfl

theorem witness_DecodeAndEncodeAgree :
    (Instr.dither .m1 .serpentine).wf = true ∧ decode 0x00000612 = .ok (.dither .m1 .serpentine) := ⟨rfl, rfl⟩

theorem witness_LegalWordsAreTheTwenty : full.job = none ∧ (0x00000101 : Word) ∉ legalWords ∧ (0xFFFFFFFF : Word) ∉ legalWords := by
  decide +kernel

theorem witness_StepRunsTheSubmittedCommand :
    full.job = none ∧ Instr.hist.wf = true ∧ decode 0x00000001 = .ok .hist ∧
    (∃ s : State, s.job = none ∧ s.agenda = .host (.write .b32 0x00000000 0x00000001) :: [] ∧ engineNext [] = true) ∧
    (∃ s : State, s.job = none ∧ s.agenda = .host (.write .b32 0x00000000 0x00000001) :: [rd 4] ∧ engineNext [rd 4] = false) ∧
    decodeTableWord 32 0x00000001 = some .hist :=
  ⟨rfl, rfl, rfl, ⟨{ full with agenda := cmd .hist }, rfl, rfl, rfl⟩, ⟨{ full with agenda := cmd .hist ++ [rd 4] }, rfl, rfl, rfl⟩,
    rfl⟩

theorem witness_EngineTurnRunsTheLatchedCommand :
    (latched .hist).job = some ⟨.hist, ⟨2, 2, 3⟩⟩ ∧ (latched .hist).agenda = [] ∧
    ({ latched .hist with agenda := [.engine] } : State).agenda = .engine :: [] := ⟨rfl, rfl, rfl⟩

theorem witness_PolledRunIsOneTransition : accepts .hist full ∧ ∃ t, exec .hist full = .next t :=
  ⟨full_accepts _, exists_next (by decide +kernel)⟩

theorem witness_IllegalWordSetsErrIll : full.job = none ∧ (0x0000000A : Word) ∉ legalWords ∧
    ({ full with agenda := [wr 0 0x0000000A] } : State).agenda = .host (.write .b32 0x00000000 0x0000000A) :: [] :=
  ⟨rfl, by decide, rfl⟩

theorem witness_BadGeometrySetsErrGeom :
    ∃ bad badRef good : State, bad.job = none ∧ badRef.job = none ∧ good.job = none ∧
      bad.agenda = [.host (.write .b32 0x00000000 0x00000001)] ∧ decode 0x00000001 = .ok .hist ∧
      bad.params.maxW < bad.width.toNat ∧
      badRef.agenda = [.host (.write .b32 0x00000000 0x00000002)] ∧ decode 0x00000002 = .ok .shape ∧
      badRef.params.maxPix < badRef.reflen.toNat ∧
      good.agenda = [.host (.write .b32 0x00000000 0x00000010)] ∧ decode 0x00000010 = .ok .matchx ∧
      good.width.toNat = good.params.maxW ∧ good.height.toNat ≤ good.params.maxH ∧
      good.width.toNat * good.height.toNat ≤ good.params.maxPix ∧ good.reflen.toNat = good.params.maxPix :=
  ⟨{ image 9 1 [] with agenda := cmd .hist }, { image 1 1 [] with reflen := 257, agenda := cmd .shape },
    { image 8 1 [] with reflen := 256, agenda := cmd .matchx }, by decide +kernel⟩

theorem witness_BusyWriteIsDropped :
    (latched .hist).job = some ⟨.hist, ⟨2, 2, 3⟩⟩ ∧
    busCheck small .b32 0x00000008 = none ∧ (0x00000008 : Word) ≠ 0x00000004 ∧ busCheck small .b32 0x00000004 = none ∧
    (∃ t, step { latched .hist with agenda := [rd 0x00000004] } = .next t) ∧
    (∃ t, step { latched .hist with agenda := [wr 0x00000008 1] } = .next t ∧ t.job = (latched .hist).job) := by
  refine ⟨rfl, by decide, by decide, by decide, exists_next (by decide +kernel), ?_⟩
  obtain ⟨t, ht⟩ := exists_next (o := step { latched .hist with agenda := [wr 0x00000008 1] }) (by decide +kernel)
  refine ⟨t, ht, ?_⟩
  have h : (nextOf (step { latched .hist with agenda := [wr 0x00000008 1] })).map State.job = some (latched .hist).job := by
    decide +kernel
  rw [ht] at h
  simpa [nextOf] using h

theorem witness_StatusWriteClearsItsOnes :
    ({ latched .hist with agenda := [wr 0x00000004 0x1E] } : State).agenda = .host (.write .b32 0x00000004 0x1E) :: [] := rfl

theorem witness_StatusReadShowsItsBits :
    ({ latched .hist with agenda := [rd 0x00000004] } : State).agenda = .host (.read .b32 0x00000004) :: [] := rfl

theorem witness_ErrorBitsAreSticky :
    ∃ s t : State, step s = .next t ∧ (∀ rest, s.agenda ≠ .reset :: rest) ∧
      (∀ width v rest, s.agenda ≠ .host (.write width 0x00000004 v) :: rest) ∧
      s.status.errIll = true ∧ s.status.errGeom = true ∧ s.status.errBusywr = true := by
  obtain ⟨t, ht⟩ := exists_next (o := step { full with agenda := cmd .nop }) (by decide +kernel)
  refine ⟨_, t, ht, ?_, ?_, rfl, rfl, rfl⟩
  · intro rest h; cases h
  · intro width v rest h
    simp [cmd, wr] at h

theorem witness_DoneTellsSuccessFromRejection :
    (full.job = none ∧ ∃ t, exec .nop full = .next t) ∧ ((image 9 1 []).job = none ∧ ∃ t, exec .hist (image 9 1 []) = .next t) :=
  ⟨full_completes _ (by decide +kernel), rfl, exists_next (by decide +kernel)⟩

theorem witness_OnlyCompletionSetsDone :
    (∃ s : State, s.status.done = false ∧ ((nextOf (step s)).map fun t => t.status.done) = some true) ∧
    (∃ s : State, s.job ≠ none ∧ s.status.done = false ∧ ((nextOf (step s)).map fun t => t.status.done) = some true) :=
  ⟨⟨{ full with agenda := cmd .nop }, rfl, by decide +kernel⟩, ⟨latched .nop, by decide, rfl, by decide +kernel⟩⟩

theorem witness_ResetAbandonsAndClears :
    ({ latched .hist with agenda := [.reset, .engine] } : State).agenda = .reset :: [.engine] := rfl

theorem witness_InvariantHoldsAtReset : small.wf = true := by decide

theorem witness_EveryStepKeepsTheInvariant : ∃ s t : State, Inv s ∧ s.job ≠ none ∧ s.rb ≠ [] ∧ s.dst ≠ [] ∧ step s = .next t := by
  obtain ⟨t, ht⟩ := exists_next
    (o := step { latched .hist with rb := [[0, 7, -32768], [32767]], status := ⟨false, true, true, true⟩ }) (by decide +kernel)
  exact ⟨_, t, full_inv, by decide, by decide, by decide, ht⟩

theorem witness_CommandsKeepRegistersAndInputs :
    (full.job = none ∧ ∃ t, exec .matchx full = .next t) ∧ full.status.errGeom = true ∧ pixelCount full ≤ 5 :=
  ⟨full_completes _ (by decide +kernel), rfl, by decide⟩

theorem witness_CommandsReadOnlyTheirBytes :
    full.job = none ∧ (∀ k < pixelCount full, Memory.read (plane [1, 2, 200, 4, 77]) k = Memory.read full.src k) ∧
    (∀ k < min full.reflen.toNat 256, Memory.read (plane [5, 0, 7, 8]) k = Memory.read full.ref k) := by decide +kernel

theorem witness_DiffusionIgnoresTheOldBuffer : accepts (.diffuse .m1 .serpentine) full := full_accepts _

theorem witness_MatchersSeeOnlyThePixelCount :
    accepts .xremap full ∧ accepts .xremap { full with width := 4, height := 1 } ∧ (4 : Word).toNat * (1 : Word).toNat = pixelCount full :=
  ⟨full_accepts _, ⟨rfl, by decide +kernel⟩, by decide⟩

theorem witness_EmptyPlaneRunsNoPixelLoop :
    ∃ s : State, s.job = none ∧ pixelCount s = 0 ∧ accepts .hist s ∧ entriesWritten s.shape ∧ ∃ t, exec .matchx s = .next t :=
  ⟨{ full with height := 0 }, rfl, by decide, ⟨rfl, by decide +kernel⟩, full_written.2.2, exists_next (by decide +kernel)⟩

theorem witness_WindowMapPlacesAllStorage :
    small.wf = true ∧ 255 < 256 ∧ 255 < small.maxPix ∧ (252 < small.maxPix ∧ 252 % 4 = 0 ∧ 252 + 3 < small.maxPix) := by decide

/-- A capacity that is no multiple of 4. -/
def odd : Params := { small with maxPix := 258 }

theorem witness_BusFaultsByWidthAndOffset :
    small.wf = true ∧ odd.wf = true ∧ (0x00000003 : Word).toNat % 4 ≠ 0 ∧
    (0x00FFFFFF : Word).toNat < 0x01000000 ∧ 0x04000000 ≤ (0x04000000 : Word).toNat ∧
    ((0x14 : Word).toNat % 4 = 0 ∧ (0x14 : Word).toNat = 0x14) ∧
    ((0xFFC : Word).toNat % 4 = 0 ∧ 0x20 ≤ (0xFFC : Word).toNat ∧ (0xFFC : Word).toNat < 0x1000) ∧
    ((0x3000 : Word).toNat % 4 = 0 ∧ 0x3000 ≤ (0x3000 : Word).toNat ∧ (0x3000 : Word).toNat < 0x01000000) ∧
    (small.maxPix ≤ 256 ∧ (0x02000100 : Word).toNat = planeBase .dst + 256 ∧ (0x02000100 : Word).toNat % 4 = 0) ∧
    ((0x02FFFFFF : Word).toNat = planeBase .dst + (2 ^ 24 - 1)) ∧
    (256 < odd.maxPix ∧ odd.maxPix ≤ 256 + 3 ∧ (0x03000100 : Word).toNat = planeBase .ref + 256) := by decide

theorem witness_BusFaultChangesNothing :
    busCheck (latched .hist).params .b16 0x00000000 = some .align ∧ busCheck full.params .b32 0x00000014 = some .unmapped ∧
    ({ full with agenda := [rd 0x14] } : State).agenda = .host (.read .b32 0x00000014) :: [] ∧
    ({ latched .hist with agenda := [.host (.write .b16 0 1)] } : State).agenda = .host (.write .b16 0x00000000 1) :: [] :=
  ⟨rfl, rfl, rfl, rfl⟩

theorem witness_RegistersKeepAndReadBack :
    Reg.gammaHi ≠ .cmd ∧ Reg.gammaHi ≠ .status ∧ full.job = none ∧
    ({ full with agenda := [wr (regOffset .gammaHi) 0xFFFFFFFF, rd (regOffset .gammaHi)] } : State).agenda =
      wr (regOffset .gammaHi) 0xFFFFFFFF :: rd (regOffset .gammaHi) :: [] ∧
    ({ latched .hist with agenda := [rd (regOffset .cmd)] } : State).agenda = rd (regOffset .cmd) :: [] :=
  ⟨by decide, by decide, rfl, rfl, rfl⟩

theorem witness_TableEntriesKeepAndReadBack :
    full.job = none ∧ 255 < 256 ∧
    ({ full with agenda := [wr (BitVec.ofNat 32 (tableBase .lut + 4 * 255)) 0x1FF, rd (BitVec.ofNat 32 (tableBase .lut + 4 * 255))] } :
      State).agenda = wr (BitVec.ofNat 32 (tableBase .lut + 4 * 255)) 0x1FF :: rd (BitVec.ofNat 32 (tableBase .lut + 4 * 255)) :: [] :=
  ⟨rfl, by decide, rfl⟩

theorem witness_PlaneWordsAreLittleEndian :
    full.params.wf = true ∧ full.job = none ∧ 252 % 4 = 0 ∧ 252 + 3 < full.params.maxPix ∧
    ({ full with agenda := [wr (BitVec.ofNat 32 (planeBase .src + 252)) 1] } : State).agenda =
      wr (BitVec.ofNat 32 (planeBase .src + 252)) 1 :: [] ∧
    ({ full with agenda := [rd (BitVec.ofNat 32 (planeBase .src + 0))] } : State).agenda =
      rd (BitVec.ofNat 32 (planeBase .src + 0)) :: [] ∧
    Memory.read full.src 0 = some 1 ∧ Memory.read full.src 1 = some 2 ∧ Memory.read full.src 2 = some 200 ∧
    Memory.read full.src 3 = some 4 := ⟨by decide, rfl, rfl, by decide, rfl, rfl, by decide +kernel⟩

theorem witness_PlaneBytesKeepAndReadBack :
    full.params.wf = true ∧ full.job = none ∧ 255 < full.params.maxPix ∧
    ({ full with agenda := [wrb (BitVec.ofNat 32 (planeBase .ref + 255)) 7, rdb (BitVec.ofNat 32 (planeBase .ref + 255))] } :
      State).agenda = wrb (BitVec.ofNat 32 (planeBase .ref + 255)) 7 :: rdb (BitVec.ofNat 32 (planeBase .ref + 255)) :: [] :=
  ⟨by decide, rfl, by decide, rfl⟩

theorem witness_BusyTableReadIsADraw :
    (latched .hist).job = some ⟨.hist, ⟨2, 2, 3⟩⟩ ∧ 255 < 256 ∧ tableWord .right 255 (latched .hist) = some 4 ∧
    ({ latched .hist with agenda := [rd (BitVec.ofNat 32 (tableBase .right + 4 * 255))] } : State).agenda =
      rd (BitVec.ofNat 32 (tableBase .right + 4 * 255)) :: [] ∧
    (∃ s : State, s.job = some ⟨.hist, ⟨2, 2, 3⟩⟩ ∧ s.params.wf = true ∧ 252 % 4 = 0 ∧ 252 + 3 < s.params.maxPix ∧
      (∀ n < 4, (Memory.read (planeOf .ref s) (252 + n)).isSome = true) ∧ (Memory.read (planeOf .ref s) 255).isSome = true ∧
      s.agenda = rd (BitVec.ofNat 32 (planeBase .ref + 252)) :: [] ∧
      ({ s with agenda := [rdb (BitVec.ofNat 32 (planeBase .ref + 255))] } : State).agenda =
        rdb (BitVec.ofNat 32 (planeBase .ref + 255)) :: []) :=
  ⟨rfl, by decide, by decide +kernel, rfl,
    { latched .hist with ref := [(252, 1), (253, 2), (254, 3), (255, 4)]
                         agenda := [rd (BitVec.ofNat 32 (planeBase .ref + 252))] }, by decide +kernel⟩

theorem witness_UnwrittenHostReadFaults :
    ∃ t b w : State, t.params.wf = true ∧ b.params.wf = true ∧ w.params.wf = true ∧
      (255 < 256 ∧ tableWord .cnt 255 t = none ∧ t.agenda = [rd (BitVec.ofNat 32 (tableBase .cnt + 4 * 255))]) ∧
      (4 < b.params.maxPix ∧ Memory.read (planeOf .src b) 4 = none ∧ b.agenda = [rdb (BitVec.ofNat 32 (planeBase .src + 4))]) ∧
      (0 % 4 = 0 ∧ 0 + 3 < w.params.maxPix ∧ 3 < 4 ∧ Memory.read (planeOf .ref w) (0 + 3) = none ∧
        (∀ n' < 3, (Memory.read (planeOf .ref w) (0 + n')).isSome = true) ∧
        w.agenda = [rd (BitVec.ofNat 32 (planeBase .ref + 0))]) :=
  ⟨{ image 2 2 [1, 2, 3, 4] with agenda := [rd (BitVec.ofNat 32 (tableBase .cnt + 4 * 255))] },
    { full with agenda := [rdb (BitVec.ofNat 32 (planeBase .src + 4))] },
    { latched .hist with agenda := [rd (BitVec.ofNat 32 (planeBase .ref + 0))] }, by decide +kernel⟩

theorem witness_NopOnlySetsDone :
    full.job = none ∧ (latched .hist).job = some ⟨.hist, ⟨2, 2, 3⟩⟩ ∧
    ({ latched .hist with agenda := [wr 0 0] } : State).agenda = .host (.write .b32 0x00000000 0x00000000) :: [] := ⟨rfl, rfl, rfl⟩

theorem witness_HistCountsTheLevels :
    full.params.wf = true ∧ full.job = none ∧ geomOk full.params (latchGeom full) = true ∧
    bytesWritten full.src (pixelCount full) ∧
    (∃ s : State, s.params.wf = true ∧ s.job = none ∧ geomOk s.params (latchGeom s) = false) ∧
    (∃ s : State, s.params.wf = true ∧ s.job = none ∧ geomOk s.params (latchGeom s) = true ∧ 3 < pixelCount s ∧
      bytesWritten s.src 3 ∧ Memory.read s.src 3 = none) :=
  ⟨by decide, rfl, by decide +kernel, full_ready .hist, ⟨image 9 1 [], by decide +kernel⟩,
    ⟨image 2 2 [1, 2, 3], by unfold bytesWritten; decide +kernel⟩⟩

theorem witness_ShapeCopiesTheSamples :
    full.job = none ∧ full.reflen.toNat ≤ full.params.maxPix ∧ bytesWritten full.ref (min full.reflen.toNat 256) ∧
    (∃ s : State, s.job = none ∧ s.params.maxPix < s.reflen.toNat) ∧
    (∃ s : State, s.job = none ∧ s.reflen.toNat ≤ s.params.maxPix ∧ 3 < min s.reflen.toNat 256 ∧ bytesWritten s.ref 3 ∧
      Memory.read s.ref 3 = none) :=
  ⟨rfl, by decide, full_ready .shape, ⟨{ full with reflen := 257 }, by decide⟩,
    ⟨{ full with reflen := 256 }, by unfold bytesWritten; decide +kernel⟩⟩

theorem witness_ZeroShapeRescalesFlat : (List.replicate 256 0).length = 256 ∧ (List.replicate 256 0).sum ≤ 0 := by
  decide +kernel

/-- A shape that leaves a shortfall of 1 for a total of 10 (V-RS-9, V-RS-10). -/
def thirds : List Nat := [1, 1, 1] ++ List.replicate 253 0

theorem thirds_getD (k : Nat) (h : 2 < k) : thirds.getD k 0 = 0 := by
  match k, h with
  | k + 3, _ =>
    show (List.replicate 253 0).getD k 0 = 0
    rw [List.getD_eq_getElem?_getD, List.getElem?_replicate]
    split <;> rfl

theorem thirds_sum : thirds.sum = 3 := by decide +kernel

theorem witness_PositiveShapeRescalesScaled :
    thirds.length = 256 ∧ 0 < thirds.sum ∧
    (255 < 256 ∧ (255 : Nat) = 255) ∧
    (2 < 256 ∧ 0 < cappedShape thirds 10 2 ∧ ∀ k, 2 < k → k < 256 → cappedShape thirds 10 k = 0) ∧
    (∀ k < 256, cappedShape thirds 0 k = 0) := by
  refine ⟨by decide +kernel, by decide +kernel, by decide, ⟨by decide, by decide +kernel, ?_⟩, ?_⟩
  · intro k hk _
    unfold cappedShape scaledShape
    rw [thirds_sum, thirds_getD k hk]
    exact Nat.zero_min _
  · intro k _
    simp [cappedShape]

theorem witness_RescalePreservesTheTotal : thirds.length = 256 ∧ 0 < thirds.sum ∧
    (List.replicate 256 0).sum = 0 ∧ rescale thirds 10 .last ≠ rescale thirds 10 .lastNonzero := by decide +kernel

theorem witness_RescaleIgnoresTheShapesScale : 0 < 3 := by decide

theorem witness_RescaleWritesTheTarget :
    full.params.wf = true ∧ accepts (.rescale .last) full ∧ entriesWritten full.shape ∧
    (∃ s : State, s.params.wf = true ∧ accepts (.rescale .lastNonzero) s ∧ ¬entriesWritten s.shape) :=
  ⟨by decide, full_accepts _, full_written.2.2, image 2 2 [], by decide, ⟨rfl, by decide +kernel⟩,
    fun h => absurd (h 255 (by decide)) (by decide +kernel)⟩

/-- `TGT` written at bins 0 and 1 only, which is all that the loop tests with an `H1` of zeros and a positive `TGT[0]`. -/
def fewBins : State :=
  { full with h1 := table 32 [] 0, tgt := Table.put (Table.put (Table.blank 32) 0 5) 1 5 }

theorem fewBins_crossing : crossing (entryAt fewBins.h1) (entryAt fewBins.tgt) 255 = 0 := by
  have hz : ∀ i, entryAt fewBins.h1 i = 0 := by
    intro i
    by_cases hi : i < 256
    · rw [entryAt, fewBins, table, Table.get_ofFun _ hi]; rfl
    · rw [entryAt, Table.get_of_ge _ (by omega)]; rfl
  simp [crossing, cumulative, hz]

theorem witness_IvbuildPlacesTheCrossings :
    full.job = none ∧ entriesWritten full.h1 ∧ testedBinsWritten full.h1 full.tgt ∧
    (fewBins.job = none ∧ entriesWritten fewBins.h1 ∧ testedBinsWritten fewBins.h1 fewBins.tgt ∧ ¬entriesWritten fewBins.tgt) ∧
    (∃ s : State, s.job = none ∧ ¬(entriesWritten s.h1 ∧ testedBinsWritten s.h1 s.tgt)) := by
  refine ⟨rfl, full_written.1, ?_, ⟨rfl, table_written _ _ _, ?_, ?_⟩, image 2 2 [], rfl, ?_⟩
  · intro r hr
    have hc : crossing (entryAt full.h1) (entryAt full.tgt) 255 ≤ 255 :=
      (Finset.card_filter_le _ _).trans (Finset.card_range 255).le
    exact full_written.2.1 r (by omega)
  · intro r hr
    rw [fewBins_crossing] at hr
    obtain rfl : r = 0 := by omega
    decide +kernel
  · exact fun h => absurd (h 255 (by decide)) (by decide +kernel)
  · exact fun h => absurd (h.1 0 (by decide)) (by decide +kernel)

theorem witness_IntervalTableIsContiguous : ∃ t, exec .ivbuild full = .next t := exists_next (by decide +kernel)

/-- The tables of `remapExample` written at what its scan reads only: `RIGHT` not at level 30, whose bin is never full. -/
def remapFew : State :=
  { image 2 1 [10, 30] with
    left := Table.put (Table.put (Table.blank 8) 10 0) 30 1
    right := Table.put (Table.blank 8) 10 1
    tgt := Table.put (Table.put (Table.blank 32) 0 0) 1 4 }

theorem witness_XremapFollowsTheScan :
    full.params.wf = true ∧ accepts .xremap full ∧ ready .xremap full ∧
    (remapFew.params.wf = true ∧ accepts .xremap remapFew ∧ (∀ k < pixelCount remapFew, remapReadsWritten remapFew k) ∧
      ¬ready .xremap remapFew) ∧
    (∃ s : State, s.params.wf = true ∧ accepts .xremap s ∧ ¬(∀ k < pixelCount s, remapReadsWritten s k)) := by
  refine ⟨by decide, full_accepts _, full_ready _, ⟨by decide, ⟨rfl, by decide +kernel⟩, ?_, ?_⟩,
    image 2 2 [1, 2, 3], by decide, ⟨rfl, by decide +kernel⟩, ?_⟩
  · have h : pixelCount remapFew = 2 := by decide +kernel
    rw [h]
    unfold remapReadsWritten
    decide +kernel
  · exact fun h => absurd (h.2.2.2 255 (by decide)) (by decide +kernel)
  · exact fun h => absurd (h 3 (by decide)).1 (by decide +kernel)

theorem witness_XremapStaysInItsIntervals :
    full.params.wf = true ∧ accepts .xremap full ∧ (∃ t, exec .xremap full = .next t) ∧
    (∀ k < pixelCount full, entryAt full.left (levelAt full.src k) ≤ entryAt full.right (levelAt full.src k)) :=
  ⟨by decide, full_accepts _, exists_next (by decide +kernel), by decide +kernel⟩

theorem witness_CdflutPicksTheNearestLevel :
    accepts .cdflut full ∧ ready .cdflut full ∧ (∃ s : State, accepts .cdflut s ∧ ¬ready .cdflut s) :=
  ⟨full_accepts _, full_ready _, { full with tgt := Table.blank 32 }, ⟨rfl, by decide +kernel⟩,
    fun h => absurd (h.2 255 (by decide)) (by decide +kernel)⟩

theorem witness_LutIsNonDecreasing : accepts .cdflut full ∧ ∃ t, exec .cdflut full = .next t :=
  ⟨full_accepts _, exists_next (by decide +kernel)⟩

theorem witness_LutapplyMapsEachByte :
    full.job = none ∧ geomOk full.params (latchGeom full) = true ∧ ready .lutapply full ∧
    (∃ s : State, s.job = none ∧ geomOk s.params (latchGeom s) = false) ∧
    (∃ s : State, s.job = none ∧ geomOk s.params (latchGeom s) = true ∧ ¬ready .lutapply s) :=
  ⟨rfl, by decide +kernel, full_ready _, ⟨image 9 1 [], by decide +kernel⟩,
    ⟨image 2 2 [1, 2, 3], by decide +kernel, by decide +kernel,
      fun h => absurd (h.1 3 (by decide)) (by decide +kernel)⟩⟩

theorem witness_RoundingIsNearestTiesAway : 0 < 16 ∧ 2 * |(-24 : Int) - roundHalfAway (-24) 16 * 16| = 16 := by decide

theorem witness_GammaFnRoundsRealPower :
    0 < 1 ∧ 255 ≤ 255 ∧ (∀ e, Exponent.infinite ≠ .dyadic 0 e) ∧ (∀ e, Exponent.dyadic 1 (-1) ≠ .dyadic 0 e) :=
  by
  refine ⟨by decide, by decide, ?_, ?_⟩ <;> intro e h <;> cases h

theorem witness_EffectiveGammaIsSanitized :
    let ex := fun g : DWord => (g.extractLsb' 52 11).toNat
    let fr := fun g : DWord => (g.extractLsb' 0 52).toNat
    (ex 0xFFF8000000000000 = 2047 ∧ fr 0xFFF8000000000000 ≠ 0) ∧ (0x8000000000000001 : DWord).getLsbD 63 = true ∧
    (ex 0 = 0 ∧ fr 0 = 0) ∧
    ((0x7FEFFFFFFFFFFFFF : DWord).getLsbD 63 = false ∧ 0 < ex 0x7FEFFFFFFFFFFFFF ∧ ex 0x7FEFFFFFFFFFFFFF < 2047) ∧
    ((0x000FFFFFFFFFFFFF : DWord).getLsbD 63 = false ∧ ex 0x000FFFFFFFFFFFFF = 0 ∧ fr 0x000FFFFFFFFFFFFF ≠ 0) := by
  decide

theorem witness_GammaWritesItsTable :
    full.job = none ∧ ({ small with gammaRows := [steps] } : Params).wf = true ∧
    gammaOf { small with gammaRows := [steps] } (.dyadic 1 (-1)) 17 = 255 ∧ gammaFn (.dyadic 1 (-1)) 17 = 66 ∧
    (∃ f : Nat → Nat, 1 % 2 = 1 ∧ 0 < 1 ∧ f 0 = 0 ∧ f 255 = 255 ∧ ∀ u v, u ≤ v → v ≤ 255 → f u ≤ f v) ∧
    State.reset.params.gammaRows = [] :=
  ⟨rfl, by decide +kernel, by decide +kernel, by decide +kernel, ⟨id, rfl, by decide, rfl, rfl, fun _ _ h _ => h⟩, rfl⟩

theorem witness_KernelsHaveTheirExtents : Config.largest.wf = true := by decide

theorem witness_QuantizerThresholdIs128 : (128 : Int) ≤ 128 ∧ (127 : Int) < 128 := by decide

theorem witness_TapsWriteDistinctCells :
    ∃ rb : List (List Int), small.wf = true ∧ ((1 : Int) = 1 ∨ (1 : Int) = -1) ∧ 1 < 2 ∧ rb.length = (kernelOf small .m1).rows ∧
      (∀ row ∈ rb, row.length = 2 + 2 * (kernelOf small .m1).rx) ∧
      (∀ t ∈ (kernelOf small .m1).taps, ¬(0 = (0 + t.dy) % 3 ∧ (0 : Int) = 1 + 1 * t.dx + 2)) :=
  ⟨List.replicate 3 (List.replicate 6 0), by decide⟩

theorem witness_DiffuseEqualsFullImage :
    full.params.wf = true ∧ accepts (.diffuse .m1 .serpentine) full ∧ ready (.diffuse .m1 .serpentine) full ∧
    1 < full.width.toNat ∧ 1 < full.height.toNat ∧ 6 ≥ pixelCount full ∧
    (∃ s : State, s.params.wf = true ∧ accepts (.diffuse .m0 .raster) s ∧ ¬ready (.diffuse .m0 .raster) s) :=
  ⟨by decide, full_accepts _, full_ready _, by decide, by decide, by decide, image 2 2 [1, 2, 3], by decide,
    ⟨rfl, by decide +kernel⟩, fun h => absurd (h.1 3 (by decide)) (by decide +kernel)⟩

theorem witness_DiffusionOutputIsBilevel : accepts (.diffuse .m0 .raster) full ∧ ∃ t, exec (.diffuse .m0 .raster) full = .next t :=
  ⟨full_accepts _, exists_next (by decide +kernel)⟩

theorem witness_CompositesAreTheirComponents :
    accepts .matchx full ∧ accepts .matcha full ∧ accepts (.dither .m1 .serpentine) full :=
  ⟨full_accepts _, full_accepts _, full_accepts _⟩

theorem witness_ReadyCommandsComplete (i : Instr) : accepts i full ∧ ready i full := ⟨full_accepts i, full_ready i⟩

theorem witness_OnlyUnwrittenReadsStopACommand :
    accepts .hist full ∧ (nextOf (exec .hist full)).isSome = true ∧
    accepts .ivbuild (image 2 2 []) ∧ nextOf (exec .ivbuild (image 2 2 [])) = none ∧
    accepts .hist (image 2 2 []) ∧ nextOf (exec .hist (image 2 2 [])) = none :=
  ⟨full_accepts _, by decide +kernel, ⟨rfl, by decide +kernel⟩, by decide +kernel, ⟨rfl, by decide +kernel⟩, by decide +kernel⟩

end Sys2Proof.Tests
end

section
/-! Rounding (00_scope R13): `roundHalfAway` is the nearest integer, a tie away from zero. -/

namespace Sys2Proof.Machine

/-- `r` is the nearest integer to `n/d`, and where two are equally near it is the one away from zero (R13). -/
def NearestTiesAway (n : Int) (d : Nat) (r : Int) : Prop :=
  2 * |n - r * d| ≤ d ∧ (2 * |n - r * d| = d → |n| < |r * d|)

theorem NearestTiesAway.neg {n r : Int} {d : Nat} (h : NearestTiesAway n d r) : NearestTiesAway (-n) d (-r) := by
  have hdist : -n - -r * d = -(n - r * d) := by ring
  unfold NearestTiesAway
  rw [hdist, neg_mul, abs_neg, abs_neg, abs_neg]
  exact h

/-- Over the denominator, the rounded value of a non-negative number lies in `(n - d/2, n + d/2]`. -/
theorem roundHalfAway_mul_bounds {n : Int} {d : Nat} (hd : 0 < d) (hn : 0 ≤ n) :
    2 * n - d < 2 * (roundHalfAway n d * d) ∧ 2 * (roundHalfAway n d * d) ≤ 2 * n + d := by
  rw [roundHalfAway_of_nonneg d hn]
  have hpos : (0 : Int) < 2 * d := by omega
  have hlow := Int.lt_ediv_add_one_mul_self (2 * n + d) hpos
  have hupp := Int.ediv_mul_le (2 * n + d) hpos.ne'
  constructor <;> linarith

theorem roundHalfAway_nearest_of_nonneg {n : Int} {d : Nat} (hd : 0 < d) (hn : 0 ≤ n) :
    NearestTiesAway n d (roundHalfAway n d) := by
  obtain ⟨hlow, hupp⟩ := roundHalfAway_mul_bounds hd hn
  unfold NearestTiesAway
  generalize roundHalfAway n d * d = m at hlow hupp ⊢
  constructor
  · have : |n - m| = n - m ∨ |n - m| = -(n - m) := abs_choice (n - m)
    omega
  · intro htie
    -- the lower bound is strict, so a tie is at the upper one
    have hm : 2 * m = 2 * n + d := by
      rcases abs_choice (n - m) with h | h <;> omega
    rw [abs_of_nonneg hn, abs_of_nonneg (by omega)]
    omega

theorem roundHalfAway_nearest (n : Int) {d : Nat} (hd : 0 < d) : NearestTiesAway n d (roundHalfAway n d) := by
  rcases le_total 0 n with hn | hn
  · exact roundHalfAway_nearest_of_nonneg hd hn
  · have h := (roundHalfAway_nearest_of_nonneg hd (neg_nonneg.2 hn)).neg
    rwa [roundHalfAway_neg n d hd, neg_neg, neg_neg] at h

/-- Settles O49: the non-negative numbers by the bounds of the quotient, the negative ones by symmetry. -/
theorem roundingIsNearestTiesAway : Obligations.RoundingIsNearestTiesAway := by
  unfold Obligations.RoundingIsNearestTiesAway
  intro n d hd
  exact roundHalfAway_nearest n hd

end Sys2Proof.Machine
end

section
/-! Planes within `MAX_PIX` (10_state R39): a write below the bound keeps `planeWf`. -/

namespace Sys2Proof.Machine

theorem planeWf_nil (p : Params) : planeWf p [] := ⟨Memory.wf_nil, by simp⟩

theorem planeWf_write {p : Params} {m : Memory} {k : Nat} (v : Byte) (h : planeWf p m) (hk : k < p.maxPix) :
    planeWf p (Memory.write m k v) := by
  obtain ⟨hwf, hlt⟩ := h
  refine ⟨Memory.wf_write k v hwf, fun c hc => ?_⟩
  rcases Memory.mem_write hc with rfl | hold
  · exact hk
  · exact hlt c hold

/-- A plane access without a bus fault is a byte or a word that lies below `MAX_PIX` as a whole (R62, R64). -/
theorem busCheck_none_plane {p : Params} {width : Width} {off : Word} {q : PlaneId} {k : Nat}
    (hb : busCheck p width off = none) (ht : target p off = .plane q k) :
    width = .b8 ∧ k < p.maxPix ∨ width = .b32 ∧ k + 3 < p.maxPix := by
  cases width with
  | b8 => exact .inl ⟨rfl, target_plane_lt ht⟩
  | b16 => simp [busCheck] at hb
  | b32 => obtain ⟨-, -, hfit⟩ := busCheck_b32_none hb; exact .inr ⟨rfl, hfit q k ht⟩
  | b64 => simp [busCheck] at hb

theorem planeWf_writePlaneWord {p : Params} {width : Width} {off : Word} {q : PlaneId} {k : Nat} {m : Memory} (v : Word)
    (hb : busCheck p width off = none) (ht : target p off = .plane q k) (h : planeWf p m) :
    planeWf p (writePlaneWord width m k v) := by
  rcases busCheck_none_plane hb ht with ⟨rfl, hk⟩ | ⟨rfl, hk⟩
  · exact planeWf_write _ h hk
  · have h0 := planeWf_write (byteOfWord v 0) h (k := k) (by omega)
    have h1 := planeWf_write (byteOfWord v 1) h0 (k := k + 1) (by omega)
    have h2 := planeWf_write (byteOfWord v 2) h1 (k := k + 2) (by omega)
    exact planeWf_write (byteOfWord v 3) h2 hk

end Sys2Proof.Machine
end

section
/-! The rolling buffer (10_state R14, R40, 44_error_diffusion R187): loading, distributing and advancing keep its capacity and
the signed 16-bit range. -/

namespace Sys2Proof.Machine

/-- At most three rows, each within the capacity and the range of `ringRowWf` (R14, R40). -/
def ringWf (p : Params) (rb : List (List Int)) : Prop := rb.length ≤ 3 ∧ ∀ row ∈ rb, ringRowWf p row

theorem ringWf_nil (p : Params) : ringWf p [] := ⟨by simp, by simp⟩

theorem forall_mem_modify {α : Type} {P : α → Prop} {f : α → α} {l : List α} (i : Nat) (hl : ∀ a ∈ l, P a)
    (hf : ∀ a, P a → P (f a)) : ∀ a ∈ l.modify i f, P a := by
  intro a ha
  obtain ⟨j, hj, rfl⟩ := List.mem_iff_getElem.1 ha
  have hmem : P (l[j]'(by simpa using hj)) := hl _ (List.getElem_mem _)
  rw [List.getElem_modify]
  split
  · exact hf _ hmem
  · exact hmem

theorem ringRowWf_modify_sat16 {p : Params} {row : List Int} (pos : Nat) (d : Int) (h : ringRowWf p row) :
    ringRowWf p (row.modify pos fun c => sat16 (c + d)) := by
  obtain ⟨hlen, hcells⟩ := h
  refine ⟨by rwa [List.length_modify], forall_mem_modify pos hcells fun c _ => ?_⟩
  exact ⟨sat16_lower (c + d), sat16_upper (c + d)⟩

theorem ringWf_addToCell {p : Params} {rb : List (List Int)} (slot pos : Nat) (d : Int) (h : ringWf p rb) :
    ringWf p (addToCell rb slot pos d) := by
  obtain ⟨hlen, hrows⟩ := h
  exact ⟨by rwa [addToCell, List.length_modify],
    forall_mem_modify slot hrows fun _ hrow => ringRowWf_modify_sat16 pos d hrow⟩

theorem ringWf_distribute {p : Params} {rb : List (List Int)} (kr : Kernel) (sg : Int) (x y : Nat) (e : Int)
    (h : ringWf p rb) : ringWf p (distribute kr sg x y e rb) :=
  List.foldlRecOn kr.taps _ h fun _ hb _ _ => ringWf_addToCell _ _ _ hb

theorem ringWf_set {p : Params} {rb : List (List Int)} {row : List Int} (slot : Nat) (h : ringWf p rb)
    (hrow : ringRowWf p row) : ringWf p (rb.set slot row) := by
  obtain ⟨hlen, hrows⟩ := h
  refine ⟨by rwa [List.length_set], fun r hr => ?_⟩
  rcases List.mem_or_eq_of_mem_set hr with hold | rfl
  · exact hrows r hold
  · exact hrow

/-- Every value that `collect` lists is the value of one of the elements. -/
theorem collect_mem {α β : Type} {f : α → Except Fault β} {as : List α} {bs : List β} {b : β} (h : collect f as = .ok bs)
    (hb : b ∈ bs) : ∃ a ∈ as, f a = .ok b := by
  obtain ⟨i, hi, rfl⟩ := List.mem_iff_getElem.1 hb
  have hia : i < as.length := collect_length h ▸ hi
  obtain ⟨b, hb, hf⟩ := collect_getElem? h (List.getElem?_eq_getElem hia)
  rw [List.getElem?_eq_getElem hi, Option.some.injEq] at hb
  exact ⟨as[i], List.getElem_mem hia, hb ▸ hf⟩

theorem correctedSample_range {src : Memory} {glut : Table 8} {k : Nat} {c : Int} (h : correctedSample src glut k = .ok c) :
    0 ≤ c ∧ c < 256 := by
  obtain ⟨_, q, -, -, rfl⟩ := correctedSample_ok.1 h
  have := q.isLt
  omega

/-- The cells of a loaded row (R188) are corrected levels and zeros. -/
theorem loadRow_range {kr : Kernel} {w h y : Nat} {src : Memory} {glut : Table 8} {row : List Int}
    (hr : loadRow kr w h src glut y = .ok row) : ∀ c ∈ row, 0 ≤ c ∧ c < 256 := by
  have hzero : ∀ n, ∀ c ∈ List.replicate n (0 : Int), 0 ≤ c ∧ c < 256 := by
    intro n c hc
    rw [List.eq_of_mem_replicate hc]
    decide
  unfold loadRow at hr
  split at hr
  · split at hr
    · rename_i px hpx
      cases hr
      intro c hc
      rcases List.mem_append.1 hc with hc | hc
      · rcases List.mem_append.1 hc with hc | hc
        · exact hzero _ c hc
        · obtain ⟨_, -, hs⟩ := collect_mem hpx hc
          exact correctedSample_range hs
      · exact hzero _ c hc
    · cases hr
  · cases hr
    exact hzero _

theorem ringRowWf_loadRow {p : Params} {kr : Kernel} {w h y : Nat} {src : Memory} {glut : Table 8} {row : List Int}
    (hrx : kr.rx ≤ 2) (hw : w ≤ p.maxW) (hr : loadRow kr w h src glut y = .ok row) : ringRowWf p row := by
  refine ⟨?_, fun c hc => ?_⟩
  · rw [loadRow_length hr]
    omega
  · have := loadRow_range hr c hc
    omega

theorem ringWf_initialRing {p : Params} {kr : Kernel} {w h : Nat} {src : Memory} {glut : Table 8} {rb : List (List Int)}
    (hrx : kr.rx ≤ 2) (hrows : kr.rows ≤ 3) (hw : w ≤ p.maxW) (hr : initialRing kr w h src glut = .ok rb) :
    ringWf p rb := by
  unfold initialRing at hr
  refine ⟨?_, fun row hrow => ?_⟩
  · rw [collect_length hr, List.length_range]
    exact hrows
  · obtain ⟨_, -, hload⟩ := collect_mem hr hrow
    exact ringRowWf_loadRow hrx hw hload

theorem kernelOf_rx_le (p : Params) (m : Method) : (kernelOf p m).rx ≤ 2 := by cases m <;> simp [kernelOf, kernel0, kernel1]

theorem kernelOf_rows_le (p : Params) (m : Method) : (kernelOf p m).rows ≤ 3 := by
  cases m <;> simp [kernelOf, kernel0, kernel1]

end Sys2Proof.Machine
end

section
/-! What a command writes besides tables: each body keeps `DST` within `MAX_PIX` and the rolling buffer within its bounds, once
its geometry has passed the check of 40_control R102. -/

namespace Sys2Proof.Machine

/-- The plane `DST` and the rolling buffer as the invariant asks (R39, R40). -/
def OutputsWf (p : Params) (dst : Memory) (rb : List (List Int)) : Prop := planeWf p dst ∧ ringWf p rb

/-- A body that keeps `DST` and the rolling buffer as the invariant asks, on a geometry that passed the check. -/
def KeepsOutputs (b : Geom → State → Except Fault State) : Prop :=
  ∀ (p : Params) (g : Geom) (s t : State), geomOk p g = true → OutputsWf p s.dst s.rb → b g s = .ok t →
    OutputsWf p t.dst t.rb

/-- A body that writes neither `DST` nor the rolling buffer. -/
def LeavesOutputs (b : Geom → State → Except Fault State) : Prop :=
  ∀ (g : Geom) (s t : State), b g s = .ok t → t.dst = s.dst ∧ t.rb = s.rb

theorem lt_maxPix_of_lt_n {p : Params} {g : Geom} {k : Nat} (hg : geomOk p g = true) (hk : k < g.n) : k < p.maxPix := by
  obtain ⟨-, -, hn⟩ := geomOk_iff.1 hg
  omega

theorem emitBin_dst {k : Nat} {b : Byte} {st st' : Remap} (h : emitBin k b st = .ok st') :
    st'.dst = Memory.write st.dst k b := by
  obtain ⟨_, -, rfl⟩ := emitBin_ok.1 h
  rfl

/-- One pixel of `XREMAP` writes byte `k` of `DST` and no other (R142). -/
theorem remapPixel_dst {src : Memory} {tgt : Table 32} {right : Table 8} {st st' : Remap} {k : Nat}
    (h : remapPixel src tgt right st k = .ok st') : ∃ b, st'.dst = Memory.write st.dst k b := by
  obtain ⟨_, b, _, _, -, -, -, -, ⟨-, he⟩ | ⟨-, q, -, he⟩⟩ := remapPixel_ok.1 h
  · exact ⟨b, emitBin_dst he⟩
  · exact ⟨nextBin b q, (emitBin_dst he :)⟩

theorem xremapBody_keeps : KeepsOutputs xremapBody := by
  intro p g s t hg hs h
  obtain ⟨hdst, hrb⟩ := hs
  obtain ⟨r, hr, rfl⟩ := xremapBody_ok.1 h
  refine ⟨forRange_invariant (fun _ st => planeWf p st.dst) hdst ?_ hr, hrb⟩
  intro k hk a b ha hab
  obtain ⟨v, hv⟩ := remapPixel_dst hab
  rw [hv]
  exact planeWf_write v ha (lt_maxPix_of_lt_n hg hk)

theorem lutapplyBody_keeps : KeepsOutputs lutapplyBody := by
  intro p g s t hg hs h
  obtain ⟨hdst, hrb⟩ := hs
  obtain ⟨d, hd, rfl⟩ := lutapplyBody_ok.1 h
  refine ⟨forRange_invariant (fun _ m => planeWf p m) hdst ?_ hd, hrb⟩
  intro k hk a b ha hab
  obtain ⟨_, q, -, -, rfl⟩ := applyPixel_ok.1 hab
  exact planeWf_write q ha (lt_maxPix_of_lt_n hg hk)

theorem scanColumn_lt {c : Scan} {w y n : Nat} (h : n < w) : scanColumn c w y n < w := by
  unfold scanColumn
  split <;> omega

theorem rowMajor_lt {w h x y : Nat} (hx : x < w) (hy : y < h) : y * w + x < w * h :=
  calc y * w + x < (y + 1) * w := by linarith
    _ ≤ h * w := Nat.mul_le_mul_right w hy
    _ = w * h := Nat.mul_comm h w

theorem diffuseRow_outputs {p : Params} {kr : Kernel} {c : Scan} {w h y : Nat} {st : Diffusing} (hn : w * h ≤ p.maxPix)
    (hy : y < h) (hst : OutputsWf p st.dst st.rb) :
    OutputsWf p (diffuseRow kr c w y st).dst (diffuseRow kr c w y st).rb := by
  refine List.foldlRecOn (motive := fun st : Diffusing => OutputsWf p st.dst st.rb) (List.range w) _ hst ?_
  rintro b ⟨hdst, hrb⟩ n hmem
  have hx : scanColumn c w y n < w := scanColumn_lt (List.mem_range.1 hmem)
  exact ⟨planeWf_write _ hdst (lt_of_lt_of_le (rowMajor_lt hx hy) hn), ringWf_distribute kr _ _ _ _ hrb⟩

theorem diffuseLine_outputs {p : Params} {kr : Kernel} {c : Scan} {w h y : Nat} {src : Memory} {glut : Table 8}
    {st st' : Diffusing} (hrx : kr.rx ≤ 2) (hw : w ≤ p.maxW) (hn : w * h ≤ p.maxPix) (hy : y < h)
    (hst : OutputsWf p st.dst st.rb) (hl : diffuseLine kr c w h src glut st y = .ok st') :
    OutputsWf p st'.dst st'.rb := by
  obtain ⟨hdst, hrb⟩ := diffuseRow_outputs (kr := kr) (c := c) hn hy hst
  unfold diffuseLine at hl
  split at hl
  · rename_i row hrow
    cases hl
    exact ⟨hdst, ringWf_set _ hrb (ringRowWf_loadRow hrx hw hrow)⟩
  · cases hl

theorem diffuseImage_outputs {p : Params} {kr : Kernel} {c : Scan} {g : Geom} {src dst : Memory} {glut : Table 8}
    {r : Diffusing} (hrx : kr.rx ≤ 2) (hrows : kr.rows ≤ 3) (hg : geomOk p g = true) (hdst : planeWf p dst)
    (hr : diffuseImage kr c g.w g.h src glut dst = .ok r) : OutputsWf p r.dst r.rb := by
  obtain ⟨hw, -, hn⟩ := geomOk_iff.1 hg
  unfold diffuseImage at hr
  split at hr
  · rename_i rb hrb
    refine forRange_invariant (fun _ st => OutputsWf p st.dst st.rb) ⟨hdst, ringWf_initialRing hrx hrows hw hrb⟩ ?_ hr
    intro y hy a b ha hab
    exact diffuseLine_outputs hrx hw hn hy ha hab
  · cases hr

theorem diffuseBody_keeps (m : Method) (c : Scan) : KeepsOutputs (diffuseBody m c) := by
  intro p g s t hg hs h
  obtain ⟨hdst, -⟩ := hs
  obtain ⟨r, hr, rfl⟩ := diffuseBody_ok.1 h
  exact diffuseImage_outputs (kernelOf_rx_le _ m) (kernelOf_rows_le _ m) hg hdst hr

theorem LeavesOutputs.outputs {b : Geom → State → Except Fault State} (hb : LeavesOutputs b) {p : Params} (g : Geom)
    {s t : State} (hs : OutputsWf p s.dst s.rb) (h : b g s = .ok t) : OutputsWf p t.dst t.rb := by
  obtain ⟨hdst, hrb⟩ := hb g s t h
  rwa [hdst, hrb]

theorem LeavesOutputs.keeps {b : Geom → State → Except Fault State} (hb : LeavesOutputs b) : KeepsOutputs b :=
  fun _ _ _ _ _ hs h => hb.outputs _ hs h

theorem KeepsOutputs.andThen {a b : Geom → State → Except Fault State} (ha : KeepsOutputs a) (hb : KeepsOutputs b) :
    KeepsOutputs (andThen a b) := by
  intro p g s t hg hs h
  obtain ⟨u, hu, ht⟩ := andThen_ok.1 h
  exact hb p g u t hg (ha p g s u hg hs hu) ht

theorem nopBody_leaves : LeavesOutputs nopBody := by
  intro g s t h; rw [(nopBody_ok (g := g)).1 h]; exact ⟨rfl, rfl⟩

theorem histBody_leaves : LeavesOutputs histBody := by
  intro g s t h; obtain ⟨_, -, rfl⟩ := histBody_ok.1 h; exact ⟨rfl, rfl⟩

theorem shapeBody_leaves : LeavesOutputs shapeBody := by
  intro g s t h; obtain ⟨_, -, rfl⟩ := shapeBody_ok.1 h; exact ⟨rfl, rfl⟩

theorem rescaleBody_leaves (pol : Policy) : LeavesOutputs (rescaleBody pol) := by
  intro g s t h; obtain ⟨_, -, rfl⟩ := rescaleBody_ok.1 h; exact ⟨rfl, rfl⟩

theorem ivbuildBody_leaves : LeavesOutputs ivbuildBody := by
  intro g s t h; obtain ⟨_, -, rfl⟩ := ivbuildBody_ok.1 h; exact ⟨rfl, rfl⟩

theorem cdflutBody_leaves : LeavesOutputs cdflutBody := by
  intro g s t h; obtain ⟨_, -, rfl⟩ := cdflutBody_ok.1 h; exact ⟨rfl, rfl⟩

theorem gammaBody_leaves : LeavesOutputs gammaBody := by
  intro g s t h; rw [gammaBody_ok.1 h]; exact ⟨rfl, rfl⟩

theorem matchxBody_keeps : KeepsOutputs matchxBody :=
  histBody_leaves.keeps.andThen <| shapeBody_leaves.keeps.andThen <| (rescaleBody_leaves .last).keeps.andThen <|
    ivbuildBody_leaves.keeps.andThen xremapBody_keeps

theorem matchaBody_keeps : KeepsOutputs matchaBody :=
  histBody_leaves.keeps.andThen <| shapeBody_leaves.keeps.andThen <| (rescaleBody_leaves .lastNonzero).keeps.andThen <|
    cdflutBody_leaves.keeps.andThen lutapplyBody_keeps

theorem ditherBody_keeps (m : Method) (c : Scan) : KeepsOutputs (ditherBody m c) :=
  gammaBody_leaves.keeps.andThen (diffuseBody_keeps m c)

/-- The body of a command whose checks passed keeps `DST` and the rolling buffer as the invariant asks. The commands that write
them are all among those whose geometry R102 checks. -/
theorem bodyOf_outputs {i : Instr} {p : Params} {g : Geom} {s t : State} (hc : checksOk p i g = true)
    (hs : OutputsWf p s.dst s.rb) (h : bodyOf i g s = .ok t) : OutputsWf p t.dst t.rb := by
  obtain ⟨hgeom, -⟩ := checksOk_iff.1 hc
  cases i with
  | nop => exact nopBody_leaves.outputs g hs h
  | hist => exact histBody_leaves.outputs g hs h
  | shape => exact shapeBody_leaves.outputs g hs h
  | rescale pol => exact (rescaleBody_leaves pol).outputs g hs h
  | ivbuild => exact ivbuildBody_leaves.outputs g hs h
  | xremap => exact xremapBody_keeps _ _ _ _ (hgeom rfl) hs h
  | cdflut => exact cdflutBody_leaves.outputs g hs h
  | lutapply => exact lutapplyBody_keeps _ _ _ _ (hgeom rfl) hs h
  | gamma => exact gammaBody_leaves.outputs g hs h
  | diffuse m c => exact diffuseBody_keeps m c _ _ _ _ (hgeom rfl) hs h
  | matchx => exact matchxBody_keeps _ _ _ _ (hgeom rfl) hs h
  | matcha => exact matchaBody_keeps _ _ _ _ (hgeom rfl) hs h
  | dither m c => exact ditherBody_keeps m c _ _ _ _ (hgeom rfl) hs h

end Sys2Proof.Machine
end

section
/-! The invariant of the block, operation by operation, and the step. -/

namespace Sys2Proof.Machine

/-- The part of the invariant about storage: legal parameters, the planes and the rolling buffer. -/
def StorageWf (s : State) : Prop :=
  s.params.wf = true ∧ (∀ q, planeWf s.params (planeOf q s)) ∧ ringWf s.params s.rb

/-- The part of the invariant about the latched command (R102, R107, R291). -/
def LatchWf (s : State) : Prop :=
  ∀ j, s.job = some j → j.geom = latchGeom s ∧ checksOk s.params j.cmd j.geom = true ∧ s.status.done = false

theorem inv_iff {s : State} : Inv s ↔ StorageWf s ∧ LatchWf s := by
  constructor
  · intro h
    refine ⟨⟨h.params, fun q => ?_, h.slots, h.rows⟩, fun j hj => ⟨h.jobGeom j hj, h.jobChecked j hj, h.jobDone j hj⟩⟩
    cases q with
    | src => exact h.src
    | dst => exact h.dst
    | ref => exact h.ref
  · rintro ⟨⟨hparams, hplanes, hslots, hrows⟩, hlatch⟩
    exact
      { params := hparams
        src := hplanes .src
        dst := hplanes .dst
        ref := hplanes .ref
        slots := hslots
        rows := hrows
        jobGeom := fun j hj => (hlatch j hj).1
        jobChecked := fun j hj => (hlatch j hj).2.1
        jobDone := fun j hj => (hlatch j hj).2.2 }

theorem latchWf_idle {s : State} (h : s.job = none) : LatchWf s := by
  intro j hj
  rw [h] at hj
  cases hj

/-- Two states with the same parameters, planes and rolling buffer. -/
def SameStorage (s t : State) : Prop := t.params = s.params ∧ (∀ q, planeOf q t = planeOf q s) ∧ t.rb = s.rb

theorem SameStorage.storageWf {s t : State} (hst : SameStorage s t) (h : StorageWf s) : StorageWf t := by
  obtain ⟨hp, hplanes, hrb⟩ := hst
  obtain ⟨hwf, hq, hring⟩ := h
  exact ⟨hp ▸ hwf, fun q => by rw [hp, hplanes]; exact hq q, by rw [hp, hrb]; exact hring⟩

/-- Where the storage is the same, an idle state keeps the invariant whatever its registers and `STATUS`. -/
theorem Inv.of_sameStorage_idle {s t : State} (hs : Inv s) (hst : SameStorage s t) (ht : t.job = none) : Inv t :=
  inv_iff.2 ⟨hst.storageWf (inv_iff.1 hs).1, latchWf_idle ht⟩

/-- Where the storage, the latch and the geometry are the same and `DONE` is not set, the invariant is kept. -/
theorem Inv.of_sameStorage {s t : State} (hs : Inv s) (hst : SameStorage s t) (hjob : t.job = s.job)
    (hgeom : latchGeom t = latchGeom s) (hdone : s.status.done = false → t.status.done = false) : Inv t := by
  obtain ⟨hstore, hlatch⟩ := inv_iff.1 hs
  refine inv_iff.2 ⟨hst.storageWf hstore, fun j hj => ?_⟩
  obtain ⟨hg, hc, hd⟩ := hlatch j (hjob ▸ hj)
  exact ⟨hg.trans hgeom.symm, hst.1 ▸ hc, hdone hd⟩

theorem inv_agenda {s : State} (rest : List Event) (h : Inv s) : Inv { s with agenda := rest } :=
  h.of_sameStorage ⟨rfl, by rintro ⟨⟩ <;> rfl, rfl⟩ rfl rfl id

theorem inv_answer {s : State} (r : Reply) (h : Inv s) : Inv (answer r s) :=
  h.of_sameStorage ⟨rfl, by rintro ⟨⟩ <;> rfl, rfl⟩ rfl rfl id

theorem inv_draws {s : State} (n : Nat) (h : Inv s) : Inv { s with draws := n } :=
  h.of_sameStorage ⟨rfl, by rintro ⟨⟩ <;> rfl, rfl⟩ rfl rfl id

theorem inv_clearStatus {s : State} (v : Word) (h : Inv s) : Inv (clearStatus v s) :=
  h.of_sameStorage ⟨rfl, by rintro ⟨⟩ <;> rfl, rfl⟩ rfl rfl fun hd => by rw [clearStatus_done, hd, Bool.false_and]

theorem inv_busyWrite {s : State} (h : Inv s) : Inv (raiseError .busyWrite s) :=
  h.of_sameStorage ⟨rfl, by rintro ⟨⟩ <;> rfl, rfl⟩ rfl rfl id

theorem inv_writeReg {s : State} (r : Reg) (v : Word) (hj : s.job = none) (h : Inv s) : Inv (writeReg r v s) :=
  h.of_sameStorage_idle ⟨by simp, by rintro ⟨⟩ <;> simp [planeOf], by simp⟩ (by simpa using hj)

theorem inv_setTableWord {s : State} (t : TableId) (i : Nat) (v : Word) (hj : s.job = none) (h : Inv s) :
    Inv (setTableWord t i v s) :=
  h.of_sameStorage_idle ⟨by simp, by rintro ⟨⟩ <;> simp [planeOf], by simp⟩ (by simpa using hj)

theorem inv_setPlane {s : State} {q : PlaneId} {m : Memory} (hj : s.job = none) (hm : planeWf s.params m) (h : Inv s) :
    Inv (setPlane q m s) := by
  obtain ⟨⟨hwf, hplanes, hring⟩, -⟩ := inv_iff.1 h
  refine inv_iff.2 ⟨⟨by simpa using hwf, fun q' => ?_, by simpa using hring⟩, latchWf_idle (by simpa using hj)⟩
  rw [setPlane_params]
  by_cases hq : q' = q
  · rw [hq, planeOf_setPlane]
    exact hm
  · rw [planeOf_setPlane_other hq]
    exact hplanes q'

theorem inv_rejectIllegal {s : State} (hj : s.job = none) (h : Inv s) : Inv (rejectIllegal s) :=
  h.of_sameStorage_idle ⟨rfl, by rintro ⟨⟩ <;> rfl, rfl⟩ hj

theorem inv_rejectGeometry {s : State} (hj : s.job = none) (h : Inv s) : Inv (raiseError .geometry (clearDone s)) :=
  h.of_sameStorage_idle ⟨rfl, by rintro ⟨⟩ <;> rfl, rfl⟩ hj

theorem inv_accept {s : State} (i : Instr) (h : Inv s) : Inv (accept i s) := by
  rcases accept_cases i s with ⟨_, -, ha⟩ | ⟨-, hc, ha⟩ | ⟨hj, -, ha⟩
  · rwa [ha]
  · have hstore : SameStorage s (accept i s) := by rw [ha]; exact ⟨rfl, by rintro ⟨⟩ <;> rfl, rfl⟩
    refine inv_iff.2 ⟨hstore.storageWf (inv_iff.1 h).1, fun j hj => ?_⟩
    rw [ha] at hj ⊢
    cases hj
    exact ⟨rfl, hc, rfl⟩
  · rw [ha]
    exact inv_rejectGeometry hj h

theorem inv_assertReset {s : State} (h : Inv s) : Inv (assertReset s) :=
  inv_iff.2 ⟨⟨h.params, by rintro ⟨⟩ <;> exact planeWf_nil _, ringWf_nil _⟩, latchWf_idle rfl⟩

theorem inv_hostRead {width : Width} {off v : Word} {s t : State} (h : Inv s) (hr : hostRead width off s = .ok (v, t)) :
    Inv t := by
  rcases hostRead_cases hr with rfl | ⟨-, rfl⟩
  · exact h
  · exact inv_draws _ h

theorem inv_hostWrite {width : Width} {off : Word} (v : Word) {s : State} (hb : busCheck s.params width off = none)
    (h : Inv s) : Inv (hostWrite width off v s) := by
  rcases hostWrite_cases width off v s with
    hw | ⟨-, hw⟩ | ⟨hi, r, hw⟩ | ⟨hi, t, i, hw⟩ | ⟨hi, q, k, -, ht, hw⟩ | hw
  · rw [hw]; exact inv_clearStatus v h
  · rw [hw]; exact inv_busyWrite h
  · rw [hw]; exact inv_writeReg r v (busy_eq_false.1 hi) h
  · rw [hw]; exact inv_setTableWord t i v (busy_eq_false.1 hi) h
  · obtain ⟨⟨-, hplanes, -⟩, -⟩ := inv_iff.1 h
    rw [hw]
    exact inv_setPlane (busy_eq_false.1 hi) (planeWf_writePlaneWord v hb ht (hplanes q)) h
  · rwa [hw]

/-- What a body that ran to its end leaves, once the command is done, satisfies the invariant. -/
theorem inv_finish_body {i : Instr} {g : Geom} {s u : State} (h : Inv s) (hc : checksOk s.params i g = true)
    (hu : bodyOf i g s = .ok u) : Inv (finish u) := by
  obtain ⟨hdst, hring⟩ := bodyOf_outputs hc ⟨h.dst, h.slots, h.rows⟩ hu
  have hw := bodyOf_writesOnly i g s u hu
  have hp : u.params = s.params := by rw [hw]
  have hsrc : u.src = s.src := by rw [hw]
  have href : u.ref = s.ref := by rw [hw]
  refine inv_iff.2 ⟨⟨?_, fun q => ?_, ?_⟩, latchWf_idle rfl⟩
  · rw [finish_params, hp]
    exact h.params
  · rw [finish_params, hp]
    cases q with
    | src => rw [planeOf, finish_src, hsrc]; exact h.src
    | dst => rw [planeOf, finish_dst]; exact hdst
    | ref => rw [planeOf, finish_ref, href]; exact h.ref
  · rw [finish_params, finish_rb, hp]
    exact hring

/-- A command run from an idle block, or by the engine as the one that is latched, keeps the invariant. -/
theorem inv_exec {i : Instr} {s t : State} (h : Inv s) (hi : ∀ j, s.job = some j → j.cmd = i) (he : exec i s = .next t) :
    Inv t := by
  rcases exec_next he with ⟨hj, -, rfl⟩ | ⟨g, u, hu, rfl, hidle, hbusy⟩
  · exact inv_rejectGeometry hj h
  · refine inv_finish_body h ?_ hu
    cases hj : s.job with
    | none => exact (hidle hj).2
    | some j =>
      rw [hbusy j hj, ← hi j hj]
      exact h.jobChecked j hj

theorem inv_engineTurn {s t : State} (h : Inv s) (ht : runTurn (engineTurn s) = .next t) : Inv t := by
  cases hj : s.job with
  | none =>
    rw [engineTurn_idle hj, runTurn_ok] at ht
    cases ht
    exact h
  | some j =>
    rw [engineTurn_latched hj, runTurn_run] at ht
    exact inv_exec h (fun k hk => by rw [hj] at hk; cases hk; rfl) ht

theorem inv_submitWord {w : Word} {s t : State} (hj : s.job = none) (h : Inv s)
    (ht : runTurn (submitWord w s) = .next t) : Inv t := by
  rcases submitWord_cases w s with ⟨_, -, hw⟩ | ⟨i, -, -, hw⟩ | ⟨i, -, -, hw⟩
  · rw [hw, runTurn_ok] at ht
    cases ht
    exact inv_rejectIllegal hj h
  · rw [hw, runTurn_run] at ht
    exact inv_exec h (fun j hk => by rw [hj] at hk; cases hk) ht
  · rw [hw, runTurn_ok] at ht
    cases ht
    exact inv_accept i h

/-- A host access that has no bus fault is a read, a submission or a write within the bounds of `busCheck`. -/
theorem inv_hostTurn {a : Access} {s t : State} (h : Inv s) (ht : runTurn (hostTurn a s) = .next t) : Inv t := by
  cases a with
  | read width off =>
    cases hb : busCheck s.params width off with
    | some k =>
      rw [hostTurn_read_fault hb, runTurn_ok] at ht
      cases ht
      exact inv_answer _ h
    | none =>
      simp only [hostTurn, hb] at ht
      split at ht
      · rename_i v u hr
        cases ht
        exact inv_answer _ (inv_hostRead h hr)
      · cases ht
  | write width off v =>
    cases hb : busCheck s.params width off with
    | some k =>
      rw [hostTurn_write_fault hb, runTurn_ok] at ht
      cases ht
      exact inv_answer _ h
    | none =>
      simp only [hostTurn, hb] at ht
      split at ht
      · rename_i hcmd
        obtain ⟨-, hidle⟩ := hcmd
        exact inv_submitWord (s := answer .ack s) (busy_eq_false.1 hidle) (inv_answer .ack h) ht
      · cases ht
        exact inv_answer _ (inv_hostWrite v hb h)

/-- Settles O19, by the event that the step takes. -/
theorem everyStepKeepsTheInvariant : Obligations.EveryStepKeepsTheInvariant := by
  unfold Obligations.EveryStepKeepsTheInvariant
  intro s t h hstep
  cases ha : s.agenda with
  | nil =>
    rw [step_nil ha] at hstep
    exact inv_engineTurn h hstep
  | cons e rest =>
    have hrest := inv_agenda rest h
    cases e with
    | host a =>
      rw [step_host ha] at hstep
      exact inv_hostTurn hrest hstep
    | engine =>
      rw [step_engine ha] at hstep
      exact inv_engineTurn hrest hstep
    | reset =>
      rw [step_reset ha] at hstep
      cases hstep
      exact inv_assertReset hrest

end Sys2Proof.Machine
end

section
/-! The window map (20_memory R60, R61): which register or table entry stands at the offsets that 10_state R22 and R29 give. -/

namespace Sys2Proof.Machine

theorem target_regOffset (p : Params) (r : Reg) : target p (regOffset r) = .reg r := by cases r <;> rfl

theorem busCheck_regOffset (p : Params) (r : Reg) : busCheck p .b32 (regOffset r) = none := by cases r <;> rfl

/-- The entries of a table fill the 1024 offsets from its base (R29). -/
theorem tableBase_add_arith (id : TableId) {i : Nat} (hi : i < 256) :
    tableBase id + 4 * i < 0x1000000 ∧ (tableBase id + 4 * i) / 0x400 = tableBase id / 0x400 ∧
      (tableBase id + 4 * i) % 0x400 / 4 = i ∧ (tableBase id + 4 * i) % 4 = 0 := by
  cases id <;> simp only [tableBase] <;> omega

theorem toNat_entryOffset (id : TableId) {i : Nat} (hi : i < 256) :
    (BitVec.ofNat 32 (tableBase id + 4 * i)).toNat = tableBase id + 4 * i := by
  obtain ⟨hlt, -, -, -⟩ := tableBase_add_arith id hi
  rw [BitVec.toNat_ofNat]
  omega

theorem planeWindow_eq_none {off : Word} (h : off.toNat < 0x1000000) : planeWindow off = none := by
  unfold planeWindow
  rw [Nat.div_eq_of_lt h]
  rfl

theorem tableAt_tableBase_add (id : TableId) {i : Nat} (hi : i < 256) : tableAt (tableBase id + 4 * i) = some id := by
  obtain ⟨-, hbase, -, -⟩ := tableBase_add_arith id hi
  unfold tableAt
  rw [hbase]
  cases id <;> rfl

theorem target_entryOffset (p : Params) (id : TableId) {i : Nat} (hi : i < 256) :
    target p (BitVec.ofNat 32 (tableBase id + 4 * i)) = .table id i := by
  obtain ⟨hlt, -, hindex, -⟩ := tableBase_add_arith id hi
  have hoff := toNat_entryOffset id hi
  have hwindow := planeWindow_eq_none (hoff ▸ hlt)
  simp only [target, hwindow, hoff, tableAt_tableBase_add id hi, hindex]

theorem busCheck_entryOffset (p : Params) (id : TableId) {i : Nat} (hi : i < 256) :
    busCheck p .b32 (BitVec.ofNat 32 (tableBase id + 4 * i)) = none := by
  obtain ⟨-, -, -, halign⟩ := tableBase_add_arith id hi
  simp [busCheck, toNat_entryOffset id hi, target_entryOffset p id hi, halign]

/-- `CMD` is accessed without a bus fault as a word at offset 0 only (R22, R64). -/
theorem cmd_access {p : Params} {width : Width} {off : Word} (hb : busCheck p width off = none)
    (ht : target p off = .reg .cmd) : width = .b32 ∧ off = 0#32 := by
  cases width with
  | b8 =>
    obtain ⟨q, k, hplane⟩ := busCheck_b8_none hb
    rw [ht] at hplane
    cases hplane
  | b16 => simp [busCheck] at hb
  | b64 => simp [busCheck] at hb
  | b32 =>
    obtain ⟨halign, -, -⟩ := busCheck_b32_none hb
    have hreg : regAt off.toNat = some .cmd := by
      unfold target at ht
      split at ht
      · split at ht <;> cases ht
      · split at ht
        · cases ht
        · split at ht
          · rename_i r hr
            cases ht
            exact hr
          · cases ht
    have hzero : off.toNat / 4 = 0 := by
      unfold regAt at hreg
      split at hreg <;> first | assumption | cases hreg
    exact ⟨rfl, BitVec.eq_of_toNat_eq (by rw [BitVec.toNat_ofNat]; omega)⟩

end Sys2Proof.Machine
end

section
/-! Accesses without a bus fault (20_memory R65, R69): what a write or a read does in a step, and what it does to a register or to
a table entry of an idle block. -/

namespace Sys2Proof.Machine

/-- A run whose first step answers `t` goes on from `t`. -/
theorem run_succ {k : Nat} {s t : State} (h : step s = .next t) :
    Sys2Proof.core.run (k + 1) s = Sys2Proof.core.run k t := by
  have hcore : Sys2Proof.core.step s = .next t := h
  simp only [Host.Core.run, hcore]

theorem run_two {s t u : State} (h1 : step s = .next t) (h2 : step t = .next u) : Sys2Proof.core.run 2 s = .next u := by
  rw [run_succ h1, run_succ h2]
  rfl

/-- A write other than a submission. -/
theorem step_write {s t : State} {width : Width} {off v : Word} {rest : List Event}
    (ha : s.agenda = .host (.write width off v) :: rest) (hb : busCheck s.params width off = none)
    (ht : target s.params off ≠ .reg .cmd) (hw : hostWrite width off v { s with agenda := rest } = t) :
    step s = .next (answer .ack t) := by
  rw [step_host ha]
  simp [hostTurn, hb, ht, hw]

theorem step_read {s t : State} {width : Width} {off v : Word} {rest : List Event}
    (ha : s.agenda = .host (.read width off) :: rest) (hb : busCheck s.params width off = none)
    (hr : hostRead width off { s with agenda := rest } = .ok (v, t)) : step s = .next (answer (.value v) t) := by
  rw [step_host ha]
  simp [hostTurn, hb, hr]

theorem hostWrite_status (width : Width) {off : Word} (v : Word) {s : State} (ht : target s.params off = .reg .status) :
    hostWrite width off v s = clearStatus v s := by
  simp [hostWrite, ht]

theorem hostWrite_reg_idle (width : Width) {off : Word} (v : Word) {s : State} {r : Reg} (hj : s.job = none)
    (ht : target s.params off = .reg r) : hostWrite width off v s = writeReg r v s := by
  have hidle := busy_eq_false.2 hj
  cases r <;> simp [hostWrite, ht, hidle, writeReg]

theorem hostWrite_table_idle (width : Width) {off : Word} (v : Word) {s : State} {id : TableId} {i : Nat} (hj : s.job = none)
    (ht : target s.params off = .table id i) : hostWrite width off v s = setTableWord id i v s := by
  simp [hostWrite, ht, busy_eq_false.2 hj]

/-- A register is read busy or idle (R65). -/
theorem hostRead_reg (width : Width) {off : Word} {s : State} {r : Reg} (ht : target s.params off = .reg r) :
    hostRead width off s = .ok (readReg r s, s) := by
  simp [hostRead, ht]

theorem hostRead_table_idle (width : Width) {off v : Word} {s : State} {id : TableId} {i : Nat} (hj : s.job = none)
    (ht : target s.params off = .table id i) (hv : tableWord id i s = some v) : hostRead width off s = .ok (v, s) := by
  simp [hostRead, ht, hv, storageRead, busy_eq_false.2 hj]

theorem readReg_hostSide (r : Reg) (a : List Event) (rs : List Reply) (s : State) :
    readReg r { s with agenda := a, replies := rs } = readReg r s := by
  cases r <;> rfl

theorem writeReg_withAgenda (r : Reg) (v : Word) (a : List Event) (s : State) :
    writeReg r v { s with agenda := a } = { writeReg r v s with agenda := a } := by
  cases r <;> rfl

theorem tableWord_hostSide (id : TableId) (i : Nat) (a : List Event) (rs : List Reply) (s : State) :
    tableWord id i { s with agenda := a, replies := rs } = tableWord id i s := by
  cases id <;> rfl

theorem setTableWord_withAgenda (id : TableId) (i : Nat) (v : Word) (a : List Event) (s : State) :
    setTableWord id i v { s with agenda := a } = { setTableWord id i v s with agenda := a } := by
  cases id <;> rfl

/-- A read of a register answers its value and changes nothing, busy or idle (R65). -/
theorem step_readReg {s : State} {r : Reg} {rest : List Event} (ha : s.agenda = rd (regOffset r) :: rest) :
    step s = .next { s with agenda := rest, replies := .value (readReg r s) :: s.replies } := by
  rw [step_read ha (busCheck_regOffset _ r) (hostRead_reg _ (target_regOffset _ r)),
    readReg_hostSide r rest s.replies s]
  rfl

theorem step_writeReg_idle {s : State} {r : Reg} {v : Word} {rest : List Event} (hj : s.job = none) (hr : r ≠ .cmd)
    (ha : s.agenda = wr (regOffset r) v :: rest) :
    step s = .next { writeReg r v s with agenda := rest, replies := .ack :: s.replies } := by
  have ht := target_regOffset s.params r
  rw [step_write ha (busCheck_regOffset _ r) (by simpa [ht] using hr) (hostWrite_reg_idle _ _ hj ht), writeReg_withAgenda,
    answer, writeReg_replies]

theorem step_writeEntry_idle {s : State} {id : TableId} {i : Nat} {v : Word} {rest : List Event} (hj : s.job = none)
    (hi : i < 256) (ha : s.agenda = wr (BitVec.ofNat 32 (tableBase id + 4 * i)) v :: rest) :
    step s = .next { setTableWord id i v s with agenda := rest, replies := .ack :: s.replies } := by
  have ht := target_entryOffset s.params id hi
  rw [step_write ha (busCheck_entryOffset _ id hi) (by simp [ht]) (hostWrite_table_idle _ _ hj ht), setTableWord_withAgenda,
    answer, setTableWord_replies]

theorem step_readEntry_idle {s : State} {id : TableId} {i : Nat} {v : Word} {rest : List Event} (hj : s.job = none)
    (hi : i < 256) (hv : tableWord id i s = some v)
    (ha : s.agenda = rd (BitVec.ofNat 32 (tableBase id + 4 * i)) :: rest) :
    step s = .next { s with agenda := rest, replies := .value v :: s.replies } := by
  have ht := target_entryOffset s.params id hi
  have hv' := (tableWord_hostSide id i rest s.replies s).trans hv
  rw [step_read ha (busCheck_entryOffset _ id hi) (hostRead_table_idle _ hj ht hv')]
  rfl

end Sys2Proof.Machine
end

section
/-! `STATUS` (10_state R24): the write that clears bits and the read that shows them. -/

namespace Sys2Proof.Machine

theorem clear_bit (b v : Bool) : (b && !v) = if v then false else b := by cases v <;> simp

/-- Settles O12. -/
theorem statusWriteClearsItsOnes : Obligations.StatusWriteClearsItsOnes := by
  unfold Obligations.StatusWriteClearsItsOnes
  intro s v rest ha
  have ht := target_status s.params
  rw [step_write ha (busCheck_status _) (by simp [ht]) (hostWrite_status _ _ ht)]
  simp only [answer, clearStatus, clear_bit]

/-- The bits of `STATUS` in their places, and zeros above them (R24). -/
theorem statusWord_bits (s : State) :
    (statusWord s).getLsbD 0 = s.job.isSome ∧ (statusWord s).getLsbD 1 = s.status.done ∧
      (statusWord s).getLsbD 2 = s.status.errIll ∧ (statusWord s).getLsbD 3 = s.status.errGeom ∧
      (statusWord s).getLsbD 4 = s.status.errBusywr ∧ ∀ n, 5 ≤ n → (statusWord s).getLsbD n = false := by
  refine ⟨?_, ?_, ?_, ?_, ?_, fun n hn => ?_⟩ <;> simp only [statusWord, BitVec.getLsbD_append]
  case refine_6 =>
    rw [if_neg (by omega), if_neg (by omega), if_neg (by omega), if_neg (by omega), if_neg (by omega)]
    exact BitVec.getLsbD_zero
  all_goals simp [busy]

/-- Settles O13. -/
theorem statusReadShowsItsBits : Obligations.StatusReadShowsItsBits := by
  unfold Obligations.StatusReadShowsItsBits
  intro s rest ha
  exact ⟨statusWord s, step_readReg (r := .status) ha, statusWord_bits s⟩

end Sys2Proof.Machine
end

section
/-! The data registers (10_state R25 to R28): a write made while idle is kept in full and read back. -/

namespace Sys2Proof.Machine

theorem readReg_writeReg_same {r : Reg} (hc : r ≠ .cmd) (hs : r ≠ .status) (v : Word) (s : State) :
    readReg r (writeReg r v s) = v := by
  cases r with
  | cmd => exact absurd rfl hc
  | status => exact absurd rfl hs
  | _ => rfl

theorem readReg_writeReg_other {r r' : Reg} (hs : r ≠ .status) (h : r' ≠ r) (v : Word) (s : State) :
    readReg r' (writeReg r v s) = readReg r' s := by
  cases r with
  | status => exact absurd rfl hs
  | _ => cases r' <;> first | rfl | exact absurd rfl h

/-- The write of a data register changes the data registers only. -/
theorem writeReg_frame {r : Reg} (hs : r ≠ .status) (v : Word) (s : State) :
    ∃ w h l lo hi, writeReg r v s = { s with width := w, height := h, reflen := l, gammaLo := lo, gammaHi := hi } := by
  cases r with
  | status => exact absurd rfl hs
  | _ => exact ⟨_, _, _, _, _, rfl⟩

/-- Settles O28: the write, then the read of what it left. -/
theorem registersKeepAndReadBack : Obligations.RegistersKeepAndReadBack := by
  unfold Obligations.RegistersKeepAndReadBack
  intro s v rest
  refine ⟨fun r hc hs hj ha => ?_, fun r ha => step_readReg ha, rfl⟩
  have hwrite := step_writeReg_idle hj hc ha
  have hread := step_readReg (r := r) (rest := rest)
    (s := { writeReg r v s with agenda := rd (regOffset r) :: rest, replies := .ack :: s.replies }) rfl
  rw [readReg_hostSide, readReg_writeReg_same hc hs] at hread
  refine ⟨_, run_two hwrite hread, rfl, ?_, fun r' h => ?_, ?_⟩
  · exact (readReg_hostSide r _ _ _).trans (readReg_writeReg_same hc hs v s)
  · exact (readReg_hostSide r' _ _ _).trans (readReg_writeReg_other hs h v s)
  · obtain ⟨_, _, _, _, _, hframe⟩ := writeReg_frame hs v s
    rw [hframe]

end Sys2Proof.Machine
end

section
/-! The tables (10_state R29, R30): an entry keeps what is written while idle, and the other entries what they held. -/

namespace Sys2Proof.Machine

theorem setWidth_low_byte (v : Word) : (v.setWidth 8).setWidth 32 = v &&& 0xFF := by
  apply BitVec.eq_of_toNat_eq
  have hmask : v.toNat &&& 0xFF = v.toNat % 2 ^ 8 := Nat.and_two_pow_sub_one_eq_mod v.toNat 8
  have hnum : (0xFF : Word).toNat = 0xFF := rfl
  rw [BitVec.toNat_setWidth, BitVec.toNat_setWidth, BitVec.toNat_and, hnum, hmask]
  omega

theorem tableWord_setTableWord_same (id : TableId) {i : Nat} (hi : i < 256) (v : Word) (s : State) :
    tableWord id i (setTableWord id i v s) = some (keptWord id v) := by
  cases id <;> simp [tableWord, setTableWord, keptWord, Table.get_put_same _ hi, setWidth_low_byte]

theorem tableWord_setTableWord_other {id id' : TableId} {i i' : Nat} (h : ¬(id' = id ∧ i' = i)) (v : Word) (s : State) :
    tableWord id' i' (setTableWord id i v s) = tableWord id' i' s := by
  by_cases hid : id' = id
  · subst hid
    have hne : i' ≠ i := fun hi => h ⟨rfl, hi⟩
    cases id' <;> simp [tableWord, setTableWord, Table.get_put_other _ _ hne]
  · cases id <;> cases id' <;> first | rfl | exact absurd rfl hid

/-- The write of an entry changes the tables only. -/
theorem setTableWord_frame (id : TableId) (i : Nat) (v : Word) (s : State) :
    ∃ a b c d e f g h, setTableWord id i v s =
      { s with h1 := a, shape := b, tgt := c, left := d, right := e, cnt := f, lut := g, glut := h } := by
  cases id <;> exact ⟨_, _, _, _, _, _, _, _, rfl⟩

/-- Settles O29: the write, then the read of what it left. -/
theorem tableEntriesKeepAndReadBack : Obligations.TableEntriesKeepAndReadBack := by
  unfold Obligations.TableEntriesKeepAndReadBack
  intro s id i v rest hj hi ha
  have hkept := tableWord_setTableWord_same id hi v s
  have hwrite := step_writeEntry_idle hj hi ha
  have hread := step_readEntry_idle (id := id) (v := keptWord id v) (rest := rest)
    (s := { setTableWord id i v s with
      agenda := rd (BitVec.ofNat 32 (tableBase id + 4 * i)) :: rest
      replies := .ack :: s.replies })
    (by simpa using hj) hi ((tableWord_hostSide id i _ _ _).trans hkept) rfl
  refine ⟨_, run_two hwrite hread, rfl, (tableWord_hostSide id i _ _ _).trans hkept, fun id' i' h => ?_, ?_⟩
  · exact (tableWord_hostSide id' i' _ _ _).trans (tableWord_setTableWord_other h v s)
  · obtain ⟨_, _, _, _, _, _, _, _, hframe⟩ := setTableWord_frame id i v s
    rw [hframe]

end Sys2Proof.Machine
end

section
/-! The invariant at reset (10_state R44): nothing is stored and no command is latched. -/

namespace Sys2Proof.Machine

theorem inv_resetWith {p : Params} (h : p.wf = true) : Inv (State.resetWith p) :=
  inv_iff.2 ⟨⟨h, by rintro ⟨⟩ <;> exact planeWf_nil _, ringWf_nil _⟩, latchWf_idle rfl⟩

/-- Settles O18. -/
theorem invariantHoldsAtReset : Obligations.InvariantHoldsAtReset := by
  unfold Obligations.InvariantHoldsAtReset
  have hlargest : Config.largest.wf = true := by decide
  exact ⟨inv_resetWith hlargest, fun _ => inv_resetWith⟩

end Sys2Proof.Machine
end

section
/-! Where `DONE` can come from (10_state R24, 70_reset_and_hazards R291): the accesses of the host and the submission itself never
set it, the completion of an accepted command does. -/

namespace Sys2Proof.Machine

theorem writeReg_done {r : Reg} {v : Word} {s : State} (h : (writeReg r v s).status.done = true) : s.status.done = true := by
  cases r with
  | status =>
    rw [writeReg, clearStatus_done, Bool.and_eq_true] at h
    exact h.1
  | _ => exact h

theorem hostWrite_done {width : Width} {off v : Word} {s : State} (h : (hostWrite width off v s).status.done = true) :
    s.status.done = true := by
  rcases hostWrite_cases width off v s with hw | ⟨-, hw⟩ | ⟨-, r, hw⟩ | ⟨-, t, i, hw⟩ | ⟨-, q, k, -, -, hw⟩ | hw <;>
    rw [hw] at h
  · exact writeReg_done (r := .status) h
  · exact h
  · exact writeReg_done h
  · rwa [setTableWord_status] at h
  · rwa [setPlane_status] at h
  · exact h

theorem hostRead_status {width : Width} {off v : Word} {s t : State} (h : hostRead width off s = .ok (v, t)) :
    t.status = s.status := by
  rcases hostRead_cases h with rfl | ⟨-, rfl⟩ <;> rfl

/-- An accepted submission leaves `DONE` at 0, and so does a rejected one (R100). -/
theorem accept_done {i : Instr} {s : State} (h : (accept i s).status.done = true) : s.status.done = true := by
  rcases accept_cases i s with ⟨_, -, ha⟩ | ⟨-, -, ha⟩ | ⟨-, -, ha⟩
  · rwa [ha] at h
  · rw [ha] at h; cases h
  · rw [ha] at h; cases h

/-- A command that ends with `DONE` set has completed: the block is idle, and if it was idle before, the checks passed. -/
theorem exec_done {i : Instr} {s t : State} (h : exec i s = .next t) (ht : t.status.done = true) :
    t.job = none ∧ (s.job = none → accepts i s) := by
  rcases exec_next h with ⟨-, -, rfl⟩ | ⟨g, u, -, rfl, hidle, -⟩
  · cases ht
  · refine ⟨rfl, fun hj => ?_⟩
    obtain ⟨rfl, hc⟩ := hidle hj
    exact ⟨hj, hc⟩

theorem engineTurn_done {s t : State} (h : runTurn (engineTurn s) = .next t) (hs : s.status.done = false)
    (ht : t.status.done = true) : t.job = none ∧ ∃ j, s.job = some j := by
  cases hj : s.job with
  | none =>
    rw [engineTurn_idle hj, runTurn_ok] at h
    cases h
    rw [hs] at ht
    cases ht
  | some j =>
    rw [engineTurn_latched hj, runTurn_run] at h
    exact ⟨(exec_done h ht).1, j, rfl⟩

theorem submitWord_done {w : Word} {s t : State} (h : runTurn (submitWord w s) = .next t) (hj : s.job = none)
    (hs : s.status.done = false) (ht : t.status.done = true) :
    t.job = none ∧ ∃ i, decode w = .ok i ∧ accepts i s := by
  rcases submitWord_cases w s with ⟨_, -, hw⟩ | ⟨i, hd, -, hw⟩ | ⟨i, -, -, hw⟩
  · rw [hw, runTurn_ok] at h
    cases h
    cases ht
  · rw [hw, runTurn_run] at h
    obtain ⟨hidle, hacc⟩ := exec_done h ht
    exact ⟨hidle, i, hd, hacc hj⟩
  · rw [hw, runTurn_ok] at h
    cases h
    rw [accept_done ht] at hs
    cases hs

/-- A host access that ends with `DONE` set, where it was 0, is the submission of an accepted command. -/
theorem hostTurn_done {a : Access} {s t : State} (h : runTurn (hostTurn a s) = .next t) (hs : s.status.done = false)
    (ht : t.status.done = true) :
    t.job = none ∧ ∃ w i, a = .write .b32 0#32 w ∧ decode w = .ok i ∧ accepts i s := by
  have hkept : s.status.done ≠ true := by simp [hs]
  cases a with
  | read width off =>
    cases hb : busCheck s.params width off with
    | some k =>
      rw [hostTurn_read_fault hb, runTurn_ok] at h
      cases h
      exact absurd ht hkept
    | none =>
      simp only [hostTurn, hb] at h
      split at h
      · rename_i v u hr
        cases h
        rw [answer, hostRead_status hr] at ht
        exact absurd ht hkept
      · cases h
  | write width off v =>
    cases hb : busCheck s.params width off with
    | some k =>
      rw [hostTurn_write_fault hb, runTurn_ok] at h
      cases h
      exact absurd ht hkept
    | none =>
      simp only [hostTurn, hb] at h
      split at h
      · rename_i hcmd
        obtain ⟨htarget, hidle⟩ := hcmd
        obtain ⟨rfl, rfl⟩ := cmd_access hb htarget
        obtain ⟨hjob, i, hd, hacc⟩ := submitWord_done (s := answer .ack s) h (busy_eq_false.1 hidle) hs ht
        exact ⟨hjob, v, i, rfl, hd, hacc⟩
      · cases h
        exact absurd (hostWrite_done ht) hkept

/-- Settles O16, by the event that the step takes. -/
theorem onlyCompletionSetsDone : Obligations.OnlyCompletionSetsDone := by
  unfold Obligations.OnlyCompletionSetsDone
  intro s t hstep hs ht
  cases ha : s.agenda with
  | nil =>
    rw [step_nil ha] at hstep
    obtain ⟨hjob, j, hj⟩ := engineTurn_done hstep hs ht
    exact ⟨hjob, .inl ⟨j, hj, rfl⟩⟩
  | cons e rest =>
    cases e with
    | host a =>
      rw [step_host ha] at hstep
      obtain ⟨hjob, w, i, rfl, hd, hacc⟩ := hostTurn_done hstep hs ht
      exact ⟨hjob, .inr ⟨w, i, rest, hd, hacc, rfl⟩⟩
    | engine =>
      rw [step_engine ha] at hstep
      obtain ⟨hjob, j, hj⟩ := engineTurn_done hstep hs ht
      exact ⟨hjob, .inl ⟨j, hj, rfl⟩⟩
    | reset =>
      rw [step_reset ha] at hstep
      cases hstep
      cases ht

end Sys2Proof.Machine
end

section
/-! What a command leaves of `DST` (20_memory R68): each body writes bytes below `N` only. -/

namespace Sys2Proof.Machine

/-- Two planes that read alike from byte `n` on. -/
def AgreeFrom (n : Nat) (m m' : Memory) : Prop := ∀ k, n ≤ k → Memory.read m' k = Memory.read m k

/-- A body that keeps the bytes of `DST` from `N` on. -/
def KeepsDstFrom (b : Geom → State → Except Fault State) : Prop :=
  ∀ (g : Geom) (s t : State), b g s = .ok t → AgreeFrom g.n s.dst t.dst

theorem AgreeFrom.refl (n : Nat) (m : Memory) : AgreeFrom n m m := fun _ _ => rfl

theorem AgreeFrom.trans {n : Nat} {m m' m'' : Memory} (h : AgreeFrom n m m') (h' : AgreeFrom n m' m'') :
    AgreeFrom n m m'' := fun k hk => (h' k hk).trans (h k hk)

theorem AgreeFrom.write {n k : Nat} {m m' : Memory} (v : Byte) (h : AgreeFrom n m m') (hk : k < n) :
    AgreeFrom n m (Memory.write m' k v) := by
  intro j hj
  rw [Memory.read_write_other m' v (by omega)]
  exact h j hj

theorem LeavesOutputs.keepsDstFrom {b : Geom → State → Except Fault State} (hb : LeavesOutputs b) : KeepsDstFrom b := by
  intro g s t h
  rw [(hb g s t h).1]
  exact .refl _ _

theorem KeepsDstFrom.andThen {a b : Geom → State → Except Fault State} (ha : KeepsDstFrom a) (hb : KeepsDstFrom b) :
    KeepsDstFrom (andThen a b) := by
  intro g s t h
  obtain ⟨u, hu, ht⟩ := andThen_ok.1 h
  exact (ha g s u hu).trans (hb g u t ht)

theorem xremapBody_keepsDstFrom : KeepsDstFrom xremapBody := by
  intro g s t h
  obtain ⟨r, hr, rfl⟩ := xremapBody_ok.1 h
  refine forRange_invariant (fun _ st => AgreeFrom g.n s.dst st.dst) (.refl _ _) ?_ hr
  intro k hk a b ha hab
  obtain ⟨v, hv⟩ := remapPixel_dst hab
  rw [hv]
  exact ha.write v hk

theorem lutapplyBody_keepsDstFrom : KeepsDstFrom lutapplyBody := by
  intro g s t h
  obtain ⟨d, hd, rfl⟩ := lutapplyBody_ok.1 h
  refine forRange_invariant (fun _ m => AgreeFrom g.n s.dst m) (.refl _ _) ?_ hd
  intro k hk a b ha hab
  obtain ⟨_, q, -, -, rfl⟩ := applyPixel_ok.1 hab
  exact ha.write q hk

theorem diffuseRow_agreeFrom {kr : Kernel} {c : Scan} {w h y : Nat} {dst : Memory} {st : Diffusing} (hy : y < h)
    (hst : AgreeFrom (w * h) dst st.dst) : AgreeFrom (w * h) dst (diffuseRow kr c w y st).dst := by
  refine List.foldlRecOn (motive := fun st : Diffusing => AgreeFrom (w * h) dst st.dst) (List.range w) _ hst ?_
  intro st hst n hn
  exact hst.write _ (rowMajor_lt (scanColumn_lt (List.mem_range.1 hn)) hy)

theorem diffuseLine_agreeFrom {kr : Kernel} {c : Scan} {w h y : Nat} {src dst : Memory} {glut : Table 8}
    {st st' : Diffusing} (hy : y < h) (hst : AgreeFrom (w * h) dst st.dst)
    (hl : diffuseLine kr c w h src glut st y = .ok st') : AgreeFrom (w * h) dst st'.dst := by
  unfold diffuseLine at hl
  split at hl
  · cases hl
    exact diffuseRow_agreeFrom hy hst
  · cases hl

theorem diffuseBody_keepsDstFrom (m : Method) (c : Scan) : KeepsDstFrom (diffuseBody m c) := by
  intro g s t h
  obtain ⟨r, hr, rfl⟩ := diffuseBody_ok.1 h
  unfold diffuseImage at hr
  split at hr
  · refine forRange_invariant (fun _ st => AgreeFrom g.n s.dst st.dst) (.refl _ _) ?_ hr
    intro y hy a b ha hab
    exact diffuseLine_agreeFrom hy ha hab
  · cases hr

theorem bodyOf_keepsDstFrom (i : Instr) : KeepsDstFrom (bodyOf i) := by
  cases i with
  | nop => exact nopBody_leaves.keepsDstFrom
  | hist => exact histBody_leaves.keepsDstFrom
  | shape => exact shapeBody_leaves.keepsDstFrom
  | rescale pol => exact (rescaleBody_leaves pol).keepsDstFrom
  | ivbuild => exact ivbuildBody_leaves.keepsDstFrom
  | xremap => exact xremapBody_keepsDstFrom
  | cdflut => exact cdflutBody_leaves.keepsDstFrom
  | lutapply => exact lutapplyBody_keepsDstFrom
  | gamma => exact gammaBody_leaves.keepsDstFrom
  | diffuse m c => exact diffuseBody_keepsDstFrom m c
  | matchx =>
    exact histBody_leaves.keepsDstFrom.andThen <| shapeBody_leaves.keepsDstFrom.andThen <|
      (rescaleBody_leaves .last).keepsDstFrom.andThen <| ivbuildBody_leaves.keepsDstFrom.andThen xremapBody_keepsDstFrom
  | matcha =>
    exact histBody_leaves.keepsDstFrom.andThen <| shapeBody_leaves.keepsDstFrom.andThen <|
      (rescaleBody_leaves .lastNonzero).keepsDstFrom.andThen <|
        cdflutBody_leaves.keepsDstFrom.andThen lutapplyBody_keepsDstFrom
  | dither m c => exact gammaBody_leaves.keepsDstFrom.andThen (diffuseBody_keepsDstFrom m c)

/-- Settles O20: a rejected command changes `STATUS` only, an accepted one what its body writes and `DONE`. -/
theorem commandsKeepRegistersAndInputs : Obligations.CommandsKeepRegistersAndInputs := by
  unfold Obligations.CommandsKeepRegistersAndInputs
  intro i s t hj h
  rcases exec_next h with ⟨-, -, rfl⟩ | ⟨g, u, hu, rfl, hidle, -⟩
  · simp
  · obtain ⟨rfl, -⟩ := hidle hj
    have hdst : AgreeFrom (pixelCount s) s.dst u.dst := bodyOf_keepsDstFrom i _ _ _ hu
    have hframe : u = _ := bodyOf_writesOnly i _ _ _ hu
    rw [hframe]
    simpa [AgreeFrom] using hdst

end Sys2Proof.Machine
end

section
/-! What a command sees of `SRC` and `REF` (10_state R39, 20_memory R66): a loop reads the bytes that its indices name, so planes
that agree on those give the same result. -/

namespace Sys2Proof.Machine

/-- Two planes that read alike below byte `n`. -/
def AgreeBelow (n : Nat) (m m' : Memory) : Prop := ∀ k < n, Memory.read m' k = Memory.read m k

/-- The state with other input planes. -/
def withInputs (src ref : Memory) (s : State) : State := { s with src := src, ref := ref }

/-- A body that depends on bytes `0..N-1` of `SRC` and `0..min(L,256)-1` of `REF` only. -/
def SeesOnlyItsBytes (b : Geom → State → Except Fault State) : Prop :=
  ∀ (g : Geom) (s : State) (src ref : Memory), AgreeBelow g.n s.src src → AgreeBelow (min g.l 256) s.ref ref →
    b g (withInputs src ref s) = (b g s).map (withInputs src ref)

theorem forRange_congr {σ : Type} {f f' : σ → Nat → Except Fault σ} {ks : List Nat} (h : ∀ k ∈ ks, ∀ st, f st k = f' st k)
    (st : σ) : forRange f ks st = forRange f' ks st := by
  induction ks generalizing st with
  | nil => rfl
  | cons k ks ih =>
    simp only [forRange, h k List.mem_cons_self]
    cases f' st k with
    | error e => rfl
    | ok st' => exact ih (fun k hk => h k (List.mem_cons_of_mem _ hk)) st'

theorem collect_congr {α β : Type} {f f' : α → Except Fault β} {as : List α} (h : ∀ a ∈ as, f a = f' a) :
    collect f as = collect f' as := by
  induction as with
  | nil => rfl
  | cons a as ih =>
    simp only [collect, h a List.mem_cons_self, ih fun a ha => h a (List.mem_cons_of_mem _ ha)]

theorem readByte_congr {p : PlaneId} {m m' : Memory} {k : Nat} (h : Memory.read m' k = Memory.read m k) :
    readByte p m' k = readByte p m k := by
  rw [readByte, readByte, h]

theorem histogram_congr {n : Nat} {src src' : Memory} (h : AgreeBelow n src src') : histogram src' n = histogram src n := by
  refine forRange_congr (fun k hk st => ?_) _
  rw [histPixel, histPixel, readByte_congr (h k (List.mem_range.1 hk))]

theorem shapeSample_congr {l k : Nat} {ref ref' : Memory} (h : AgreeBelow (min l 256) ref ref') (hk : k < 256) :
    shapeSample ref' l k = shapeSample ref l k := by
  unfold shapeSample
  split
  · rename_i hl
    rw [readByte_congr (h k (by omega))]
  · rfl

theorem remap_congr {n : Nat} {src src' : Memory} (h : AgreeBelow n src src') (tgt : Table 32) (right : Table 8)
    (st : Remap) : remap src' tgt right n st = remap src tgt right n st := by
  refine forRange_congr (fun k hk st => ?_) _
  rw [remapPixel, remapPixel, readByte_congr (h k (List.mem_range.1 hk))]

theorem applyPixels_congr {n : Nat} {src src' : Memory} (h : AgreeBelow n src src') (lut : Table 8) (dst : Memory) :
    forRange (applyPixel src' lut) (List.range n) dst = forRange (applyPixel src lut) (List.range n) dst := by
  refine forRange_congr (fun k hk st => ?_) _
  rw [applyPixel, applyPixel, readByte_congr (h k (List.mem_range.1 hk))]

theorem loadRow_congr {kr : Kernel} {w h : Nat} {src src' : Memory} (hs : AgreeBelow (w * h) src src') (glut : Table 8) :
    loadRow kr w h src' glut = loadRow kr w h src glut := by
  funext y
  unfold loadRow
  split
  · rename_i hy
    have hrow : ∀ c ∈ List.range w, correctedSample src' glut (y * w + c) = correctedSample src glut (y * w + c) := by
      intro c hc
      rw [correctedSample, correctedSample, readByte_congr (hs _ (rowMajor_lt (List.mem_range.1 hc) hy))]
    rw [collect_congr hrow]
  · rfl

theorem diffuseImage_congr {kr : Kernel} {w h : Nat} {src src' : Memory} (hs : AgreeBelow (w * h) src src') (c : Scan)
    (glut : Table 8) (dst : Memory) : diffuseImage kr c w h src' glut dst = diffuseImage kr c w h src glut dst := by
  have hline : diffuseLine kr c w h src' glut = diffuseLine kr c w h src glut := by
    funext st y
    rw [diffuseLine, diffuseLine, loadRow_congr hs]
  rw [diffuseImage, diffuseImage, initialRing, initialRing, loadRow_congr hs, hline]

end Sys2Proof.Machine
end

section
/-! The same of each body, and of the command as a whole. -/

namespace Sys2Proof.Machine

/-- The second body finds the input planes as the first one found them. -/
theorem SeesOnlyItsBytes.andThen {a b : Geom → State → Except Fault State} (ha : SeesOnlyItsBytes a)
    (hw : ∀ g s t, a g s = .ok t → writesOnly s t) (hb : SeesOnlyItsBytes b) : SeesOnlyItsBytes (andThen a b) := by
  intro g s src ref hs hr
  simp only [Machine.andThen, ha g s src ref hs hr]
  cases hu : a g s with
  | error e => rfl
  | ok u =>
    have hframe : u = _ := hw g s u hu
    have hsrc : u.src = s.src := by rw [hframe]
    have href : u.ref = s.ref := by rw [hframe]
    exact hb g u src ref (hsrc ▸ hs) (href ▸ hr)

theorem nopBody_sees : SeesOnlyItsBytes nopBody := fun _ _ _ _ _ _ => rfl

theorem gammaBody_sees : SeesOnlyItsBytes gammaBody := fun _ _ _ _ _ _ => rfl

theorem histBody_sees : SeesOnlyItsBytes histBody := by
  intro g s src ref hs _
  simp only [histBody, withInputs, histogram_congr hs]
  cases histogram s.src g.n <;> rfl

theorem shapeBody_sees : SeesOnlyItsBytes shapeBody := by
  intro g s src ref _ hr
  have hsamples := collect_congr fun k hk => shapeSample_congr hr (List.mem_range.1 hk)
  simp only [shapeBody, withInputs, hsamples]
  cases collect (shapeSample s.ref g.l) (List.range 256) <;> rfl

theorem rescaleBody_sees (pol : Policy) : SeesOnlyItsBytes (rescaleBody pol) := by
  intro g s src ref _ _
  simp only [rescaleBody, withInputs]
  cases readTable .shape s.shape <;> rfl

theorem ivbuildBody_sees : SeesOnlyItsBytes ivbuildBody := by
  intro g s src ref _ _
  simp only [ivbuildBody, withInputs]
  cases intervals s.h1 s.tgt <;> rfl

theorem xremapBody_sees : SeesOnlyItsBytes xremapBody := by
  intro g s src ref hs _
  simp only [xremapBody, withInputs, remap_congr hs]
  cases remap s.src s.tgt s.right g.n { left := s.left, cnt := Table.ofFun fun _ => 0, dst := s.dst } <;> rfl

theorem cdflutBody_sees : SeesOnlyItsBytes cdflutBody := by
  intro g s src ref _ _
  simp only [cdflutBody, withInputs]
  cases readPairsFrom 0 s.h1.toList s.tgt.toList <;> rfl

theorem lutapplyBody_sees : SeesOnlyItsBytes lutapplyBody := by
  intro g s src ref hs _
  simp only [lutapplyBody, withInputs, applyPixels_congr hs]
  cases forRange (applyPixel s.src s.lut) (List.range g.n) s.dst <;> rfl

theorem diffuseBody_sees (m : Method) (c : Scan) : SeesOnlyItsBytes (diffuseBody m c) := by
  intro g s src ref hs _
  simp only [diffuseBody, withInputs, diffuseImage_congr hs]
  cases diffuseImage (kernelOf s.params m) c g.w g.h s.src s.glut s.dst <;> rfl

theorem bodyOf_sees (i : Instr) : SeesOnlyItsBytes (bodyOf i) := by
  cases i with
  | nop => exact nopBody_sees
  | hist => exact histBody_sees
  | shape => exact shapeBody_sees
  | rescale pol => exact rescaleBody_sees pol
  | ivbuild => exact ivbuildBody_sees
  | xremap => exact xremapBody_sees
  | cdflut => exact cdflutBody_sees
  | lutapply => exact lutapplyBody_sees
  | gamma => exact gammaBody_sees
  | diffuse m c => exact diffuseBody_sees m c
  | matchx =>
    exact histBody_sees.andThen histBody_writesOnly <| shapeBody_sees.andThen shapeBody_writesOnly <|
      (rescaleBody_sees .last).andThen (rescaleBody_writesOnly .last) <|
        ivbuildBody_sees.andThen ivbuildBody_writesOnly xremapBody_sees
  | matcha =>
    exact histBody_sees.andThen histBody_writesOnly <| shapeBody_sees.andThen shapeBody_writesOnly <|
      (rescaleBody_sees .lastNonzero).andThen (rescaleBody_writesOnly .lastNonzero) <|
        cdflutBody_sees.andThen cdflutBody_writesOnly lutapplyBody_sees
  | dither m c => exact gammaBody_sees.andThen gammaBody_writesOnly (diffuseBody_sees m c)

theorem conclude_map_withInputs (src ref : Memory) (o : Except Fault State) :
    conclude (o.map (withInputs src ref)) = mapNext (withInputs src ref) (conclude o) := by
  cases o <;> rfl

/-- Settles O21: the checks see no plane, and an accepted command is its body. -/
theorem commandsReadOnlyTheirBytes : Obligations.CommandsReadOnlyTheirBytes := by
  unfold Obligations.CommandsReadOnlyTheirBytes
  intro i s src ref hj hs hr
  change exec i (withInputs src ref s) = mapNext (withInputs src ref) (exec i s)
  have hj' : (withInputs src ref s).job = none := hj
  cases hc : checksOk s.params i (latchGeom s) with
  | false =>
    rw [exec_idle_rejected hj hc, exec_idle_rejected hj' hc]
    rfl
  | true =>
    rw [exec_idle hj hc, exec_idle hj' hc, ← conclude_map_withInputs]
    exact congrArg conclude (bodyOf_sees i (latchGeom s) s src ref hs hr)

end Sys2Proof.Machine
end

section
/-! The window map by number (20_memory R61, R62): which offsets a plane window, a table or a register covers, and which ones
nothing does. -/

namespace Sys2Proof.Machine

theorem planeWindow_eq_some_iff {off : Word} {q : PlaneId} :
    planeWindow off = some q ↔ planeBase q ≤ off.toNat ∧ off.toNat < planeBase q + 2 ^ 24 := by
  unfold planeWindow
  split <;> cases q <;> simp only [planeBase] <;> grind

theorem planeWindow_eq_none_iff {off : Word} :
    planeWindow off = none ↔ off.toNat < 0x1000000 ∨ 0x4000000 ≤ off.toNat := by
  unfold planeWindow
  split <;> grind

theorem tableAt_eq_none_iff {n : Nat} : tableAt n = none ↔ n < 0x1000 ∨ 0x3000 ≤ n := by
  unfold tableAt
  split <;> grind

theorem regAt_eq_none_iff {n : Nat} : regAt n = none ↔ n / 4 = 5 ∨ 8 ≤ n / 4 := by
  unfold regAt
  split <;> grind

theorem regAt_eq_some {n : Nat} {r : Reg} (h : regAt n = some r) : n / 4 = (regOffset r).toNat / 4 := by
  unfold regAt at h
  split at h <;> cases h <;> assumption

theorem regAt_of_target {p : Params} {off : Word} {r : Reg} (h : target p off = .reg r) : regAt off.toNat = some r := by
  unfold target at h
  split at h
  · split at h <;> cases h
  · split at h
    · cases h
    · split at h
      · rename_i hr
        cases h
        exact hr
      · cases h

/-- A register is accessed without a bus fault as a word at its own offset only (R22, R64). -/
theorem reg_access {p : Params} {width : Width} {off : Word} {r : Reg} (hb : busCheck p width off = none)
    (ht : target p off = .reg r) : width = .b32 ∧ off = regOffset r := by
  cases width with
  | b8 =>
    obtain ⟨q, k, hplane⟩ := busCheck_b8_none hb
    rw [ht] at hplane
    cases hplane
  | b16 => simp [busCheck] at hb
  | b64 => simp [busCheck] at hb
  | b32 =>
    obtain ⟨halign, -, -⟩ := busCheck_b32_none hb
    have hword := regAt_eq_some (regAt_of_target ht)
    have hreg : (regOffset r).toNat % 4 = 0 := by cases r <;> rfl
    exact ⟨rfl, BitVec.eq_of_toNat_eq (by omega)⟩

theorem target_eq_hole {p : Params} {off : Word} (hw : planeWindow off = none) (ht : tableAt off.toNat = none)
    (hr : regAt off.toNat = none) : target p off = .hole := by
  simp [target, hw, ht, hr]

/-- The unmapped words outside the plane windows (R62). -/
theorem target_unmapped {p : Params} {off : Word} (halign : off.toNat % 4 = 0)
    (h : off.toNat = 0x14 ∨ (0x20 ≤ off.toNat ∧ off.toNat < 0x1000) ∨ (0x3000 ≤ off.toNat ∧ off.toNat < 0x01000000) ∨
      0x04000000 ≤ off.toNat) : target p off = .hole :=
  target_eq_hole (planeWindow_eq_none_iff.2 (by omega)) (tableAt_eq_none_iff.2 (by omega)) (regAt_eq_none_iff.2 (by omega))

/-- A plane window holds bytes below `MAX_PIX` and nothing from there on (R61, R62). -/
theorem target_planeWindow {p : Params} {off : Word} {q : PlaneId} {k : Nat} (hk : k < 2 ^ 24)
    (hoff : off.toNat = planeBase q + k) : target p off = if k < p.maxPix then .plane q k else .hole := by
  have hwindow : planeWindow off = some q := planeWindow_eq_some_iff.2 (by omega)
  have hindex : off.toNat % 0x1000000 = k := by cases q <;> simp only [planeBase] at hoff <;> omega
  simp only [target, hwindow, hindex]

theorem busCheck_b8_hole {p : Params} {off : Word} {q : PlaneId} (hw : planeWindow off = some q)
    (ht : target p off = .hole) : busCheck p .b8 off = some .unmapped := by
  simp [busCheck, hw, ht]

theorem busCheck_b8_outside {p : Params} {off : Word} (hw : planeWindow off = none) :
    busCheck p .b8 off = some .align := by
  simp [busCheck, hw]

theorem busCheck_b8_plane {p : Params} {off : Word} {q : PlaneId} {k : Nat} (hw : planeWindow off = some q)
    (ht : target p off = .plane q k) : busCheck p .b8 off = none := by
  simp [busCheck, hw, ht]

theorem busCheck_b32_misaligned {p : Params} {off : Word} (h : off.toNat % 4 ≠ 0) :
    busCheck p .b32 off = some .align := by
  simp [busCheck, h]

theorem busCheck_b32_hole {p : Params} {off : Word} (h : off.toNat % 4 = 0) (ht : target p off = .hole) :
    busCheck p .b32 off = some .unmapped := by
  simp [busCheck, h, ht]

theorem busCheck_b32_plane {p : Params} {off : Word} {q : PlaneId} {k : Nat} (h : off.toNat % 4 = 0)
    (ht : target p off = .plane q k) : busCheck p .b32 off = if k + 3 < p.maxPix then none else some .align := by
  simp [busCheck, h, ht]

theorem maxPix_le {p : Params} (h : p.wf = true) : p.maxPix ≤ 2 ^ 24 := by
  simp only [Params.wf, Params.sizesOk, Bool.and_eq_true, decide_eq_true_eq] at h
  omega

/-- Settles O26: an access outside the plane windows by its offset, one within by its index and `MAX_PIX`. -/
theorem busFaultsByWidthAndOffset : Obligations.BusFaultsByWidthAndOffset := by
  unfold Obligations.BusFaultsByWidthAndOffset
  intro p off hwf
  have hmax := maxPix_le hwf
  refine ⟨rfl, rfl, busCheck_b32_misaligned, fun h => busCheck_b8_outside (planeWindow_eq_none_iff.2 h),
    fun halign h => busCheck_b32_hole halign (target_unmapped halign h), fun q k hbeyond hk hoff => ?_,
    fun q k hbelow hstraddle hoff => ?_⟩
  · have hhole : target p off = .hole := by rw [target_planeWindow hk hoff, if_neg (by omega)]
    have hwindow : planeWindow off = some q := planeWindow_eq_some_iff.2 (by omega)
    exact ⟨busCheck_b8_hole hwindow hhole, fun halign => busCheck_b32_hole halign hhole⟩
  · by_cases halign : off.toNat % 4 = 0
    · have hplane : target p off = .plane q k := by rw [target_planeWindow (by omega) hoff, if_pos hbelow]
      rw [busCheck_b32_plane halign hplane, if_neg (by omega)]
    · exact busCheck_b32_misaligned halign

theorem toNat_planeOffset (q : PlaneId) {k : Nat} (hk : k < 2 ^ 24) :
    (BitVec.ofNat 32 (planeBase q + k)).toNat = planeBase q + k := by
  have hbase : planeBase q + k < 2 ^ 32 := by cases q <;> simp only [planeBase] <;> omega
  rw [BitVec.toNat_ofNat, Nat.mod_eq_of_lt hbase]

/-! Where a byte below `MAX_PIX` stands in its window. -/

theorem target_planeOffset {p : Params} (hwf : p.wf = true) (q : PlaneId) {k : Nat} (hk : k < p.maxPix) :
    target p (BitVec.ofNat 32 (planeBase q + k)) = .plane q k := by
  have hmax := maxPix_le hwf
  rw [target_planeWindow (by omega) (toNat_planeOffset q (by omega)), if_pos hk]

theorem busCheck_planeOffset_b8 {p : Params} (hwf : p.wf = true) (q : PlaneId) {k : Nat} (hk : k < p.maxPix) :
    busCheck p .b8 (BitVec.ofNat 32 (planeBase q + k)) = none := by
  have hmax := maxPix_le hwf
  have hoff := toNat_planeOffset q (k := k) (by omega)
  exact busCheck_b8_plane (planeWindow_eq_some_iff.2 (by omega)) (target_planeOffset hwf q hk)

theorem busCheck_planeOffset_b32 {p : Params} (hwf : p.wf = true) (q : PlaneId) {k : Nat} (halign : k % 4 = 0)
    (hfit : k + 3 < p.maxPix) : busCheck p .b32 (BitVec.ofNat 32 (planeBase q + k)) = none := by
  have hmax := maxPix_le hwf
  have hoff := toNat_planeOffset q (k := k) (by omega)
  have hbase : planeBase q % 4 = 0 := by cases q <;> rfl
  rw [busCheck_b32_plane (by omega) (target_planeOffset hwf q (by omega)), if_pos hfit]

/-- Settles O25. -/
theorem windowMapPlacesAllStorage : Obligations.WindowMapPlacesAllStorage := by
  unfold Obligations.WindowMapPlacesAllStorage
  intro p hwf
  exact ⟨fun r => ⟨target_regOffset p r, busCheck_regOffset p r⟩,
    fun id i hi => ⟨target_entryOffset p id hi, busCheck_entryOffset p id hi⟩,
    fun q k hk => ⟨target_planeOffset hwf q hk, busCheck_planeOffset_b8 hwf q hk, busCheck_planeOffset_b32 hwf q⟩⟩

end Sys2Proof.Machine
end

section
/-! The planes (20_memory R63, R64): what a write and a read of a byte or a word do to an idle block. -/

namespace Sys2Proof.Machine

theorem planeOf_hostSide (q : PlaneId) (a : List Event) (rs : List Reply) (s : State) :
    planeOf q { s with agenda := a, replies := rs } = planeOf q s := by
  cases q <;> rfl

theorem answer_setPlane (r : Reply) (q : PlaneId) (m : Memory) (s : State) :
    answer r (setPlane q m s) = setPlane q m (answer r s) := by
  cases q <;> rfl

theorem setPlane_hostSide (q : PlaneId) (m : Memory) (a : List Event) (rs : List Reply) (s : State) :
    { setPlane q m s with agenda := a, replies := rs } = setPlane q m { s with agenda := a, replies := rs } := by
  cases q <;> rfl

theorem hostWrite_plane_idle (width : Width) {off : Word} (v : Word) {s : State} {q : PlaneId} {k : Nat} (hj : s.job = none)
    (ht : target s.params off = .plane q k) :
    hostWrite width off v s = setPlane q (writePlaneWord width (planeOf q s) k v) s := by
  simp [hostWrite, ht, busy_eq_false.2 hj]

theorem hostRead_table {width : Width} {off v : Word} {s : State} {id : TableId} {i : Nat}
    (ht : target s.params off = .table id i) (hv : tableWord id i s = some v) :
    hostRead width off s = .ok (storageRead width v s) := by
  simp [hostRead, ht, hv]

theorem hostRead_plane {width : Width} {off v : Word} {s : State} {q : PlaneId} {k : Nat}
    (ht : target s.params off = .plane q k) (hv : readPlaneWord q width (planeOf q s) k = .ok v) :
    hostRead width off s = .ok (storageRead width v s) := by
  simp [hostRead, ht, hv]

theorem storageRead_idle (width : Width) (v : Word) {s : State} (hj : s.job = none) : storageRead width v s = (v, s) := by
  simp [storageRead, busy_eq_false.2 hj]

theorem storageRead_busy (width : Width) (v : Word) {s : State} {j : Job} (hj : s.job = some j) :
    storageRead width v s = (drawValue width s.draws, { s with draws := s.draws + 1 }) := by
  simp [storageRead, busy, hj]

theorem extractLsb'_low_byte (v : Word) : (v.extractLsb' 0 8).setWidth 32 = v &&& 0xFF := by
  have hlow : v.extractLsb' 0 8 = v.setWidth 8 := BitVec.eq_of_toNat_eq (by simp)
  rw [hlow, setWidth_low_byte]

theorem readPlaneWord_b8 {q : PlaneId} {m : Memory} {k : Nat} {b : Byte} (h : Memory.read m k = some b) :
    readPlaneWord q .b8 m k = .ok (b.setWidth 32) := by
  simp [readPlaneWord, readByte, h]

/-- The byte of the lowest index is bits 7:0 of the word (R63). -/
theorem readPlaneWord_b32 {q : PlaneId} {m : Memory} {k : Nat} {b0 b1 b2 b3 : Byte} (h0 : Memory.read m k = some b0)
    (h1 : Memory.read m (k + 1) = some b1) (h2 : Memory.read m (k + 2) = some b2) (h3 : Memory.read m (k + 3) = some b3) :
    readPlaneWord q .b32 m k = .ok (b3 ++ b2 ++ b1 ++ b0) := by
  simp [readPlaneWord, collect, readByte, h0, h1, h2, h3, wordOfBytes]

theorem step_writePlane_idle {s : State} {width : Width} {q : PlaneId} {k : Nat} {v : Word} {rest : List Event}
    (hwf : s.params.wf = true) (hj : s.job = none) (hk : k < s.params.maxPix)
    (hb : busCheck s.params width (BitVec.ofNat 32 (planeBase q + k)) = none)
    (ha : s.agenda = .host (.write width (BitVec.ofNat 32 (planeBase q + k)) v) :: rest) :
    step s = .next (setPlane q (writePlaneWord width (planeOf q s) k v)
      { s with agenda := rest, replies := .ack :: s.replies }) := by
  have ht := target_planeOffset hwf q hk
  rw [step_write ha hb (by simp [ht]) (hostWrite_plane_idle width v hj ht), answer_setPlane,
    planeOf_hostSide q rest s.replies s]
  rfl

theorem step_readPlane_idle {s : State} {width : Width} {q : PlaneId} {k : Nat} {v : Word} {rest : List Event}
    (hwf : s.params.wf = true) (hj : s.job = none) (hk : k < s.params.maxPix)
    (hb : busCheck s.params width (BitVec.ofNat 32 (planeBase q + k)) = none)
    (hv : readPlaneWord q width (planeOf q s) k = .ok v)
    (ha : s.agenda = .host (.read width (BitVec.ofNat 32 (planeBase q + k))) :: rest) :
    step s = .next { s with agenda := rest, replies := .value v :: s.replies } := by
  have ht := target_planeOffset hwf q hk
  rw [← planeOf_hostSide q rest s.replies s] at hv
  have hread := hostRead_plane (s := { s with agenda := rest }) ht hv
  rw [storageRead_idle (s := { s with agenda := rest }) width v hj] at hread
  exact step_read ha hb hread

theorem read_writePlaneWord_b32_within (m : Memory) (k : Nat) (v : Word) {n : Nat} (hn : n < 4) :
    Memory.read (writePlaneWord .b32 m k v) (k + n) = some (byteOfWord v n) := by
  rw [read_writePlaneWord_b32]
  interval_cases n <;> simp

theorem read_writePlaneWord_b32_outside (m : Memory) (v : Word) {k j : Nat} (h : j < k ∨ k + 3 < j) :
    Memory.read (writePlaneWord .b32 m k v) j = Memory.read m j := by
  rw [read_writePlaneWord_b32, if_neg (by omega), if_neg (by omega), if_neg (by omega), if_neg (by omega)]

/-- Settles O30: the four bytes of the word that is written, and the word of the four bytes that are read. -/
theorem planeWordsAreLittleEndian : Obligations.PlaneWordsAreLittleEndian := by
  unfold Obligations.PlaneWordsAreLittleEndian
  intro s q k rest hwf hj halign hfit
  have hk : k < s.params.maxPix := by omega
  have hb := busCheck_planeOffset_b32 hwf q halign hfit
  refine ⟨fun v ha => ?_,
    fun b0 b1 b2 b3 ha h0 h1 h2 h3 => step_readPlane_idle hwf hj hk hb (readPlaneWord_b32 h0 h1 h2 h3) ha⟩
  have hbyte := fun n (hn : n < 4) => read_writePlaneWord_b32_within (planeOf q s) k v hn
  exact ⟨_, step_writePlane_idle hwf hj hk hb ha, hbyte 0 (by omega), hbyte 1 (by omega), hbyte 2 (by omega),
    hbyte 3 (by omega), fun _ => read_writePlaneWord_b32_outside (planeOf q s) v⟩

/-- Settles O31: the write, then the read of what it left. -/
theorem planeBytesKeepAndReadBack : Obligations.PlaneBytesKeepAndReadBack := by
  unfold Obligations.PlaneBytesKeepAndReadBack
  intro s q k v rest hwf hj hk ha
  have hb := busCheck_planeOffset_b8 hwf q hk
  have hsame : Memory.read (writePlaneWord .b8 (planeOf q s) k v) k = some (v.extractLsb' 0 8) := by
    rw [read_writePlaneWord_b8, if_pos rfl, byteOfWord]
  have hwrite := step_writePlane_idle hwf hj hk hb ha
  rw [← setPlane_hostSide] at hwrite
  have hread := step_readPlane_idle (q := q) (k := k) (width := .b8) (rest := rest)
    (v := (v.extractLsb' 0 8).setWidth 32)
    (s := { setPlane q (writePlaneWord .b8 (planeOf q s) k v) s with
      agenda := rdb (BitVec.ofNat 32 (planeBase q + k)) :: rest
      replies := .ack :: s.replies })
    (by simpa using hwf) (by simpa using hj) (by simpa using hk) (by simpa using hb)
    (by rw [planeOf_hostSide, planeOf_setPlane]; exact readPlaneWord_b8 hsame) rfl
  rw [extractLsb'_low_byte] at hread
  refine ⟨writePlaneWord .b8 (planeOf q s) k v, ?_, hsame, fun k' hne => ?_⟩
  · rw [← setPlane_hostSide]
    exact run_two hwrite hread
  · rw [read_writePlaneWord_b8, if_neg hne]

end Sys2Proof.Machine
end

section
/-! The busy window (20_memory R69, R70, 60_exceptions R253): what a host access can do while a command is latched. -/

namespace Sys2Proof.Machine

/-- A read of written storage while busy answers a draw, counts it and changes nothing else (R69(c)). -/
theorem step_storageRead_busy {s : State} {j : Job} {width : Width} {off v : Word} {rest : List Event}
    (hj : s.job = some j) (hb : busCheck s.params width off = none)
    (hr : hostRead width off { s with agenda := rest } = .ok (storageRead width v { s with agenda := rest }))
    (ha : s.agenda = .host (.read width off) :: rest) :
    step s = .next { s with
      agenda := rest
      replies := .value (drawValue width s.draws) :: s.replies
      draws := s.draws + 1 } := by
  rw [storageRead_busy (s := { s with agenda := rest }) width v hj] at hr
  exact step_read ha hb hr

theorem step_readEntry_busy {s : State} {j : Job} {id : TableId} {i : Nat} {v : Word} {rest : List Event}
    (hj : s.job = some j) (hi : i < 256) (hv : tableWord id i s = some v)
    (ha : s.agenda = rd (BitVec.ofNat 32 (tableBase id + 4 * i)) :: rest) :
    step s = .next { s with
      agenda := rest
      replies := .value (Config.busyDraw s.draws) :: s.replies
      draws := s.draws + 1 } :=
  step_storageRead_busy hj (busCheck_entryOffset _ id hi)
    (hostRead_table (target_entryOffset _ id hi) ((tableWord_hostSide id i rest s.replies s).trans hv)) ha

theorem step_readPlane_busy {s : State} {j : Job} {width : Width} {q : PlaneId} {k : Nat} {v : Word} {rest : List Event}
    (hwf : s.params.wf = true) (hj : s.job = some j) (hk : k < s.params.maxPix)
    (hb : busCheck s.params width (BitVec.ofNat 32 (planeBase q + k)) = none)
    (hv : readPlaneWord q width (planeOf q s) k = .ok v)
    (ha : s.agenda = .host (.read width (BitVec.ofNat 32 (planeBase q + k))) :: rest) :
    step s = .next { s with
      agenda := rest
      replies := .value (drawValue width s.draws) :: s.replies
      draws := s.draws + 1 } := by
  rw [← planeOf_hostSide q rest s.replies s] at hv
  exact step_storageRead_busy hj hb (hostRead_plane (target_planeOffset hwf q hk) hv) ha

theorem drawValue_b8 (n : Nat) : drawValue .b8 n = Config.busyDraw n &&& 0xFF := setWidth_low_byte _

/-- A word of four written bytes can be read. -/
theorem readPlaneWord_b32_written (q : PlaneId) {m : Memory} {k : Nat}
    (h : ∀ n < 4, (Memory.read m (k + n)).isSome = true) : ∃ v, readPlaneWord q .b32 m k = .ok v := by
  obtain ⟨b0, h0⟩ := Option.isSome_iff_exists.1 (h 0 (by omega))
  obtain ⟨b1, h1⟩ := Option.isSome_iff_exists.1 (h 1 (by omega))
  obtain ⟨b2, h2⟩ := Option.isSome_iff_exists.1 (h 2 (by omega))
  obtain ⟨b3, h3⟩ := Option.isSome_iff_exists.1 (h 3 (by omega))
  exact ⟨_, readPlaneWord_b32 h0 h1 h2 h3⟩

/-- Settles O32. -/
theorem busyTableReadIsADraw : Obligations.BusyTableReadIsADraw := by
  unfold Obligations.BusyTableReadIsADraw
  intro s j rest hj
  refine ⟨fun id i v hi hv ha => step_readEntry_busy hj hi hv ha, fun q k hwf halign hfit hwritten ha => ?_,
    fun q k hwf hk hwritten ha => ?_⟩
  · obtain ⟨v, hv⟩ := readPlaneWord_b32_written q hwritten
    exact step_readPlane_busy hwf hj (by omega) (busCheck_planeOffset_b32 hwf q halign hfit) hv ha
  · obtain ⟨b, hb⟩ := Option.isSome_iff_exists.1 hwritten
    rw [← drawValue_b8]
    exact step_readPlane_busy hwf hj hk (busCheck_planeOffset_b8 hwf q hk) (readPlaneWord_b8 hb) ha

theorem busy_eq_true {s : State} {j : Job} (h : s.job = some j) : busy s = true := by simp [busy, h]

/-- A write while busy, other than to `STATUS` and to a hole, is dropped (R70). -/
theorem hostWrite_busy (width : Width) {off : Word} (v : Word) {s : State} {j : Job} (hj : s.job = some j)
    (hs : target s.params off ≠ .reg .status) (hh : target s.params off ≠ .hole) :
    hostWrite width off v s = raiseError .busyWrite s := by
  have hbusy := busy_eq_true hj
  unfold hostWrite
  cases ht : target s.params off with
  | reg r =>
    cases r with
    | status => exact absurd ht hs
    | _ => simp [hbusy]
  | table id i => simp [hbusy]
  | plane q k => simp [hbusy]
  | hole => exact absurd ht hh

theorem target_ne_hole {p : Params} {width : Width} {off : Word} (hb : busCheck p width off = none) :
    target p off ≠ .hole := by
  cases width with
  | b8 =>
    obtain ⟨q, k, ht⟩ := busCheck_b8_none hb
    simp [ht]
  | b16 => simp [busCheck] at hb
  | b32 =>
    obtain ⟨-, hne, -⟩ := busCheck_b32_none hb
    exact hne
  | b64 => simp [busCheck] at hb

/-- A write while busy submits nothing, also one to `CMD` (R70). -/
theorem step_write_busy {s : State} {j : Job} {width : Width} {off v : Word} {rest : List Event} (hj : s.job = some j)
    (ha : s.agenda = .host (.write width off v) :: rest) (hb : busCheck s.params width off = none) :
    step s = .next (answer .ack (hostWrite width off v { s with agenda := rest })) := by
  have hbusy := busy_eq_true (s := { s with agenda := rest }) hj
  rw [step_host ha]
  simp [hostTurn, hb, hbusy]

theorem step_write_dropped {s : State} {j : Job} {width : Width} {off v : Word} {rest : List Event} (hj : s.job = some j)
    (ha : s.agenda = .host (.write width off v) :: rest) (hb : busCheck s.params width off = none)
    (hoff : off ≠ regOffset .status) :
    step s = .next { s with
      agenda := rest
      replies := .ack :: s.replies
      status := { s.status with errBusywr := true } } := by
  have hstatus : target s.params off ≠ .reg .status := by
    intro ht
    obtain ⟨-, hstatusOff⟩ := reg_access hb ht
    exact hoff hstatusOff
  rw [step_write_busy hj ha hb, hostWrite_busy (s := { s with agenda := rest }) width v hj hstatus (target_ne_hole hb)]
  rfl

/-- A read keeps `STATUS`, with a bus fault and without one. -/
theorem hostTurn_read_status {width : Width} {off : Word} {s t : State}
    (h : runTurn (hostTurn (.read width off) s) = .next t) : t.status = s.status := by
  cases hb : busCheck s.params width off with
  | some k =>
    rw [hostTurn_read_fault hb, runTurn_ok] at h
    cases h
    rfl
  | none =>
    simp only [hostTurn, hb] at h
    split at h
    · rename_i v u hr
      cases h
      exact (answer_status _ u).trans (hostRead_status hr)
    · cases h

/-- No host access changes more of a busy block than `STATUS` and the host's side. -/
theorem hostTurn_busy_frame {a : Access} {s t : State} {j : Job} (hj : s.job = some j)
    (h : runTurn (hostTurn a s) = .next t) : ∃ st rs d, t = { s with status := st, replies := rs, draws := d } := by
  have hbusy := busy_eq_true hj
  have hnotIdle : busy s ≠ false := by simp [hbusy]
  rcases hostTurn_cases a s with ⟨r, ha⟩ | ⟨width, off, ha⟩ | ⟨v, hidle, -⟩ | ⟨width, off, v, -, ha⟩
  · rw [ha, runTurn_ok] at h
    cases h
    exact ⟨_, _, _, rfl⟩
  · rw [ha] at h
    split at h
    · rename_i v u hr
      cases h
      rcases hostRead_cases hr with rfl | ⟨-, rfl⟩ <;> exact ⟨_, _, _, rfl⟩
    · cases h
  · exact absurd hidle hnotIdle
  · rw [ha, runTurn_ok] at h
    cases h
    rcases hostWrite_cases width off v s with hw | ⟨-, hw⟩ | ⟨hidle, -⟩ | ⟨hidle, -⟩ | ⟨hidle, -⟩ | hw
    case inr.inr.inl | inr.inr.inr.inl | inr.inr.inr.inr.inl => exact absurd hidle hnotIdle
    all_goals rw [hw]; exact ⟨_, _, _, rfl⟩

/-- After the engine's turn on a latched command the block is idle (R100). -/
theorem engineTurn_latched_idle {s t : State} {j : Job} (hj : s.job = some j) (h : runTurn (engineTurn s) = .next t) :
    t.job = none := by
  rw [engineTurn_latched hj, runTurn_run] at h
  rcases exec_next h with ⟨hidle, -, -⟩ | ⟨g, u, -, rfl, -, -⟩
  · rw [hj] at hidle
    cases hidle
  · rfl

/-- A step that leaves a command latched was a host access. -/
theorem step_latched_frame {s t : State} {j : Job} (hj : s.job = some j) (hstep : step s = .next t)
    (ht : t.job = some j) : t = { s with status := t.status, agenda := t.agenda, replies := t.replies, draws := t.draws } := by
  have hnotIdle : t.job ≠ none := by simp [ht]
  cases ha : s.agenda with
  | nil =>
    rw [step_nil ha] at hstep
    exact absurd (engineTurn_latched_idle hj hstep) hnotIdle
  | cons e rest =>
    cases e with
    | host a =>
      rw [step_host ha] at hstep
      obtain ⟨_, _, _, rfl⟩ := hostTurn_busy_frame (s := { s with agenda := rest }) hj hstep
      rfl
    | engine =>
      rw [step_engine ha] at hstep
      exact absurd (engineTurn_latched_idle (s := { s with agenda := rest }) hj hstep) hnotIdle
    | reset =>
      rw [step_reset ha] at hstep
      cases hstep
      cases ht

/-- Settles O11. -/
theorem busyWriteIsDropped : Obligations.BusyWriteIsDropped := by
  unfold Obligations.BusyWriteIsDropped
  intro s j rest hj
  refine ⟨fun width off v ha hb => ⟨step_write_dropped hj ha hb, ?_⟩, fun width off t ha hstep => ?_,
    fun t => step_latched_frame hj⟩
  · rintro rfl
    have ht : target s.params 4 = .reg .status := target_status s.params
    rw [step_write_busy hj ha hb, hostWrite_status (s := { s with agenda := rest }) width v ht]
    rfl
  · rw [step_host ha] at hstep
    exact hostTurn_read_status (s := { s with agenda := rest }) hstep

end Sys2Proof.Machine
end

section
/-! The command words (30_encoding R80 to R86). The rows of R84 have one shape: a row selects a word exactly when the word is the
encoding of the row's command. -/

namespace Sys2Proof

/-- The place of a bit in a command word: opcode, a field, or reserved (R80). -/
theorem bit_place (i : Nat) : i < 8 ∨ i = 8 ∨ i = 9 ∨ i = 10 ∨ 10 < i := by omega

theorem getElem_commandWord (op : Byte) (pol meth serp : Bool) {i : Nat} (hi : i < 32) :
    (commandWord op pol meth serp)[i] =
      if i < 8 then op.getLsbD i else if i = 8 then pol else if i = 9 then meth else if i = 10 then serp else false := by
  rw [← BitVec.getLsbD_eq_getElem]
  simp only [commandWord, BitVec.getLsbD_append, BitVec.getLsbD_ofBool, BitVec.getLsbD_zero]
  obtain h | rfl | rfl | rfl | h := bit_place i
  · rw [if_pos h, if_pos h]
  · simp
  · simp
  · simp
  · iterate 8 rw [if_neg (by omega)]

theorem getElem_commandWord_reserved (op : Byte) (pol meth serp : Bool) {i : Nat} (h : 10 < i) (hi : i < 32) :
    (commandWord op pol meth serp)[i] = false := by
  rw [getElem_commandWord]
  iterate 4 rw [if_neg (by omega)]

/-- A mask that covers all but some of the fields leaves those fields free and fixes every other bit. -/
theorem and_fieldMask_eq_iff (w : Word) (op : Byte) (pol meth serp : Bool) :
    w &&& ~~~commandWord 0 pol meth serp = commandWord op false false false ↔
      w = commandWord op (pol && w.getLsbD 8) (meth && w.getLsbD 9) (serp && w.getLsbD 10) := by
  simp only [BitVec.eq_of_getElem_eq_iff]
  refine forall₂_congr fun i hi => ?_
  rw [BitVec.getElem_and, BitVec.getElem_not]
  obtain h | rfl | rfl | rfl | h := bit_place i
  · simp [getElem_commandWord, h]
  · cases pol <;> simp [getElem_commandWord]
  · cases meth <;> simp [getElem_commandWord]
  · cases serp <;> simp [getElem_commandWord]
  · simp [getElem_commandWord_reserved, h]

/-- The word of opcode `op` with the fields that `op` uses taken from `w` and the others zero (R80, R83). -/
def wordWithUsedFields (op : Byte) (w : Word) : Word :=
  commandWord op (opUsesPol op && w.getLsbD 8) (opUsesScan op && w.getLsbD 9) (opUsesScan op && w.getLsbD 10)

theorem polBit_polOf (w : Word) : polBit (polOf w) = w.getLsbD 8 := by
  unfold polOf
  cases w.getLsbD 8 <;> rfl

theorem methBit_methOf (w : Word) : methBit (methOf w) = w.getLsbD 9 := by
  unfold methOf
  cases w.getLsbD 9 <;> rfl

theorem serpBit_serpOf (w : Word) : serpBit (serpOf w) = w.getLsbD 10 := by
  unfold serpOf
  cases w.getLsbD 10 <;> rfl

/-- The row matches its opcode with all fields zero, and its mask leaves free just the fields that the opcode uses (R83, R84). -/
def Row.shaped (r : Row) : Prop :=
  r.pattern = commandWord (opField r.pattern) false false false ∧
  r.mask = ~~~commandWord 0 (opUsesPol (opField r.pattern)) (opUsesScan (opField r.pattern)) (opUsesScan (opField r.pattern))

theorem Row.selects_iff {r : Row} (h : r.shaped) (w : Word) :
    r.selects w = true ↔ w = wordWithUsedFields (opField r.pattern) w := by
  obtain ⟨hpattern, hmask⟩ := h
  have hselect := and_fieldMask_eq_iff w (opField r.pattern) (opUsesPol (opField r.pattern)) (opUsesScan (opField r.pattern))
    (opUsesScan (opField r.pattern))
  rw [← hmask, ← hpattern] at hselect
  rw [Row.selects, beq_iff_eq, hselect, wordWithUsedFields]

theorem shaped_of_mem_decodeRows {w : Word} {r : Row × Instr} (h : r ∈ decodeRows w) : r.1.shaped := by
  have hall : ∀ row ∈ (decodeRows 0).map Prod.fst, row.shaped := by unfold Row.shaped; decide
  have hrows : (decodeRows w).map Prod.fst = (decodeRows 0).map Prod.fst := rfl
  exact hall r.1 (hrows ▸ List.mem_map_of_mem h)

/-- The command that a row reads from a word has the row's opcode and the word's own fields, so far as the opcode uses them (R86). -/
theorem encode_of_mem_decodeRows {w : Word} {r : Row × Instr} (h : r ∈ decodeRows w) :
    encode r.2 = wordWithUsedFields (opField r.1.pattern) w := by
  simp only [decodeRows, List.mem_cons, List.not_mem_nil, or_false] at h
  rcases h with rfl | rfl | rfl | rfl | rfl | rfl | rfl | rfl | rfl | rfl | rfl | rfl | rfl
  all_goals
    simp only [encode, polBit_polOf, methBit_methOf, serpBit_serpOf]
    rfl

theorem selects_iff_eq_encode {w : Word} {r : Row × Instr} (h : r ∈ decodeRows w) :
    r.1.selects w = true ↔ w = encode r.2 := by
  rw [Row.selects_iff (shaped_of_mem_decodeRows h), encode_of_mem_decodeRows h]

theorem decode_encode (i : Instr) : decode (encode i) = .ok i := by
  cases i with
  | rescale pol => cases pol <;> rfl
  | diffuse meth serp => cases meth <;> cases serp <;> rfl
  | dither meth serp => cases meth <;> cases serp <;> rfl
  | _ => rfl

theorem encode_injective : Function.Injective encode := by
  intro i j h
  have hdecode := decode_encode i
  rw [h, decode_encode j] at hdecode
  cases hdecode
  rfl

theorem eq_encode_of_decode {w : Word} {i : Instr} (h : decode w = .ok i) : w = encode i := by
  unfold decode at h
  split at h
  · rename_i r hfind
    cases h
    have hselects := List.find?_some hfind
    exact (selects_iff_eq_encode (List.mem_of_find?_eq_some hfind)).1 hselects
  · cases h

/-- Settles O1: each command evaluates, and a word that decodes is selected by a row of the decoder. -/
theorem decodeAndEncodeAgree : Obligations.DecodeAndEncodeAgree := by
  unfold Obligations.DecodeAndEncodeAgree
  exact ⟨fun i _ => decode_encode i, fun _ _ => eq_encode_of_decode⟩

theorem exists_decode_iff {w : Word} : (∃ i, decode w = .ok i) ↔ ∃ i, w = encode i := by
  refine exists_congr fun i => ⟨eq_encode_of_decode, ?_⟩
  rintro rfl
  exact decode_encode i

theorem decodeRows_commands_distinct (w : Word) : (decodeRows w).Pairwise fun a b => a.2 ≠ b.2 := by
  simp [decodeRows]

theorem length_le_one_of_encode_eq {w : Word} {rows : List (Row × Instr)} (hdistinct : rows.Pairwise fun a b => a.2 ≠ b.2)
    (hencode : ∀ r ∈ rows, w = encode r.2) : rows.length ≤ 1 := by
  match rows with
  | [] => simp
  | [_] => simp
  | a :: b :: _ =>
    have hne : a.2 ≠ b.2 := (List.pairwise_cons.1 hdistinct).1 b (by simp)
    have heq : encode a.2 = encode b.2 := (hencode a (by simp)).symm.trans (hencode b (by simp))
    exact absurd (encode_injective heq) hne

/-- Settles O3: two rows that select a word stand for the same command, and the 13 commands are distinct. -/
theorem noWordMatchesTwoRows : Obligations.NoWordMatchesTwoRows := by
  unfold Obligations.NoWordMatchesTwoRows
  intro w
  have hdistinct := (decodeRows_commands_distinct w).filter fun r => r.1.selects w
  have hencode : ∀ r ∈ (decodeRows w).filter fun r => r.1.selects w, w = encode r.2 := by
    intro r hr
    obtain ⟨hrow, hselects⟩ := List.mem_filter.1 hr
    exact (selects_iff_eq_encode hrow).1 hselects
  exact length_le_one_of_encode_eq hdistinct hencode

/-- Settles O4: the six words are the encodings of the commands; bit 8 of the last is no field of `HIST`. -/
theorem sampleWordsDecode : Obligations.SampleWordsDecode := by
  unfold Obligations.SampleWordsDecode
  exact ⟨decode_encode .nop, decode_encode (.rescale .lastNonzero), decode_encode .xremap, decode_encode .cdflut,
    decode_encode (.diffuse .m0 .serpentine), decode_encode (.dither .m1 .raster), rfl⟩

end Sys2Proof
end

section
/-! Legal command words (30_encoding R85): the words that decode, the 20 of the list and those that pass the three checks are the
same. -/

namespace Sys2Proof.Machine

theorem encodedLegal (i : Instr) : Laws.EncodedLegal.Statement i := by
  cases i with
  | nop => exact Laws.EncodedLegal.nop
  | hist => exact Laws.EncodedLegal.hist
  | shape => exact Laws.EncodedLegal.shape
  | rescale pol => exact Laws.EncodedLegal.rescale pol
  | ivbuild => exact Laws.EncodedLegal.ivbuild
  | xremap => exact Laws.EncodedLegal.xremap
  | cdflut => exact Laws.EncodedLegal.cdflut
  | lutapply => exact Laws.EncodedLegal.lutapply
  | gamma => exact Laws.EncodedLegal.gamma
  | diffuse meth serp => exact Laws.EncodedLegal.diffuse meth serp
  | matchx => exact Laws.EncodedLegal.matchx
  | matcha => exact Laws.EncodedLegal.matcha
  | dither meth serp => exact Laws.EncodedLegal.dither meth serp

theorem wordLegal_encode (i : Instr) : wordLegal (encode i) = true := by
  obtain ⟨-, hlegal⟩ := encodedLegal i
  exact hlegal

/-- Every opcode of R83 has a row in R84. -/
theorem exists_row_of_opKnown {op : Byte} (w : Word) (h : opKnown op = true) :
    ∃ r ∈ decodeRows w, opField r.1.pattern = op := by
  have hops : (decodeRows w).map (fun r => opField r.1.pattern) = [0, 1, 2, 3, 4, 5, 6, 7, 8, 9, 0x10, 0x11, 0x12] := rfl
  refine List.mem_map.1 (hops ▸ ?_)
  simp only [opKnown, Bool.or_eq_true, Bool.and_eq_true, decide_eq_true_eq] at h
  simp only [List.mem_cons, List.not_mem_nil, or_false, BitVec.toNat_eq, BitVec.reduceToNat]
  omega

/-- A word is its reserved bits, its fields and its opcode (R80). -/
theorem eq_commandWord_of_reservedZero {w : Word} (hreserved : reservedZero w = true) :
    w = commandWord (opField w) (w.getLsbD 8) (w.getLsbD 9) (w.getLsbD 10) := by
  have hzero : w.extractLsb' 11 21 = 0#21 := beq_iff_eq.1 hreserved
  refine BitVec.eq_of_getElem_eq fun i hi => ?_
  obtain h | rfl | rfl | rfl | h := bit_place i
  · simp [getElem_commandWord, h, opField, hi]
  · simp [getElem_commandWord]
  · simp [getElem_commandWord]
  · simp [getElem_commandWord]
  · have hbit : (w.extractLsb' 11 21)[i - 11] = (0#21)[i - 11] := by rw [hzero]
    rw [BitVec.getElem_extractLsb', show 11 + (i - 11) = i by omega, BitVec.getElem_zero] at hbit
    rw [getElem_commandWord_reserved _ _ _ _ h, ← hbit, BitVec.getLsbD_eq_getElem]

theorem eq_wordWithUsedFields_of_checks {w : Word} (hreserved : reservedZero w = true) (hunused : unusedZero w = true) :
    w = wordWithUsedFields (opField w) w := by
  simp only [unusedZero, Bool.and_eq_true] at hunused
  obtain ⟨hpol, hscan⟩ := hunused
  have hpolKept : (opUsesPol (opField w) && w.getLsbD 8) = w.getLsbD 8 := by
    cases huses : opUsesPol (opField w) <;> simp_all
  have hmethKept : (opUsesScan (opField w) && w.getLsbD 9) = w.getLsbD 9 := by
    cases huses : opUsesScan (opField w) <;> simp_all
  have hserpKept : (opUsesScan (opField w) && w.getLsbD 10) = w.getLsbD 10 := by
    cases huses : opUsesScan (opField w) <;> simp_all
  rw [wordWithUsedFields, hpolKept, hmethKept, hserpKept]
  exact eq_commandWord_of_reservedZero hreserved

theorem wordLegal_iff {w : Word} : wordLegal w = true ↔ ∃ i, w = encode i := by
  constructor
  · intro h
    simp only [wordLegal, Bool.and_eq_true] at h
    obtain ⟨⟨hreserved, hop⟩, hunused⟩ := h
    obtain ⟨r, hrow, hr⟩ := exists_row_of_opKnown w hop
    refine ⟨r.2, ?_⟩
    rw [encode_of_mem_decodeRows hrow, hr]
    exact eq_wordWithUsedFields_of_checks hreserved hunused
  · rintro ⟨i, rfl⟩
    exact wordLegal_encode i

theorem encode_mem_legalWords (i : Instr) : encode i ∈ legalWords := by
  cases i with
  | rescale pol => cases pol <;> decide
  | diffuse meth serp => cases meth <;> cases serp <;> decide
  | dither meth serp => cases meth <;> cases serp <;> decide
  | _ => decide

theorem mem_legalWords_iff {w : Word} : w ∈ legalWords ↔ ∃ i, w = encode i := by
  constructor
  · intro h
    have hlist : legalWords = assemblerTable.map fun r => encode r.2 := by decide
    obtain ⟨r, -, hr⟩ := List.mem_map.1 (hlist ▸ h)
    exact ⟨r.2, hr.symm⟩
  · rintro ⟨i, rfl⟩
    exact encode_mem_legalWords i

theorem submitWord_illegal {w : Word} (s : State) (h : ¬∃ i, decode w = .ok i) :
    submitWord w s = .settled (.ok (rejectIllegal s)) := by
  rcases submitWord_cases w s with ⟨_, -, hsubmit⟩ | ⟨i, hi, -⟩ | ⟨i, hi, -⟩
  · exact hsubmit
  · exact absurd ⟨i, hi⟩ h
  · exact absurd ⟨i, hi⟩ h

/-- The three defects of R85. -/
theorem wordLegal_eq_false_iff {w : Word} : wordLegal w = false ↔
    (w.extractLsb' 11 21 ≠ 0 ∨ opKnown (w.extractLsb' 0 8) = false ∨ unusedZero w = false) := by
  simp only [wordLegal, Bool.and_eq_false_iff, or_assoc, reservedZero, beq_eq_false_iff_ne]
  rfl

/-- Settles O2: the words that decode, those of the list and those that pass the three checks are the encodings of the commands. -/
theorem legalWordsAreTheTwenty : Obligations.LegalWordsAreTheTwenty := by
  unfold Obligations.LegalWordsAreTheTwenty
  have hdecode : ∀ w : Word, (∃ i, decode w = .ok i) ↔ w ∈ legalWords :=
    fun w => exists_decode_iff.trans mem_legalWords_iff.symm
  refine ⟨rfl, by decide, hdecode, fun w => ?_, fun w s _ hw => submitWord_illegal s (hw ∘ (hdecode w).1)⟩
  rw [mem_legalWords_iff, ← wordLegal_iff, Bool.not_eq_true, wordLegal_eq_false_iff]

end Sys2Proof.Machine
end

section
/-! Submission and the engine's turn as steps (40_control R100, R101): what the next step of an idle block with a command word and
of a busy block does. -/

namespace Sys2Proof.Machine

/-- A legal word written to `CMD` of an idle block runs at once where nothing enters the busy window (R101). -/
theorem step_cmd_run {s : State} {w : Word} {i : Instr} {rest : List Event} (hj : s.job = none) (hd : decode w = .ok i)
    (ha : s.agenda = .host (.write .b32 0#32 w) :: rest) (hn : engineNext rest = true) :
    step s = exec i { s with agenda := rest, replies := .ack :: s.replies } := by
  rw [step_cmd hj ha]
  simp [submitWord, hd, hn]

theorem step_cmd_accept {s : State} {w : Word} {i : Instr} {rest : List Event} (hj : s.job = none) (hd : decode w = .ok i)
    (ha : s.agenda = .host (.write .b32 0#32 w) :: rest) (hn : engineNext rest = false) :
    step s = .next (accept i { s with agenda := rest, replies := .ack :: s.replies }) := by
  rw [step_cmd hj ha]
  simp [submitWord, hd, hn]

theorem decodeTableWord_eq_some {nbits w : Nat} {i : Instr} (h : decodeTableWord nbits w = some i) :
    decode (BitVec.ofNat 32 (w % 2 ^ nbits)) = .ok i := by
  unfold decodeTableWord at h
  split at h
  · rename_i k hk
    cases h
    exact hk
  · cases h

/-- Settles O5. -/
theorem stepRunsTheSubmittedCommand : Obligations.StepRunsTheSubmittedCommand := by
  unfold Obligations.StepRunsTheSubmittedCommand
  refine ⟨fun s w i rest hj _ hd ha => ⟨step_cmd_run hj hd ha, step_cmd_accept hj hd ha⟩, fun s nbits w i h => ?_⟩
  exact step_cmd_run (s := s.withFetchWord nbits w) rfl (decodeTableWord_eq_some h) rfl rfl

/-- Settles O6. -/
theorem engineTurnRunsTheLatchedCommand : Obligations.EngineTurnRunsTheLatchedCommand := by
  unfold Obligations.EngineTurnRunsTheLatchedCommand
  intro s j rest hj
  constructor
  · intro ha
    rw [step_nil ha, engineTurn_latched hj, runTurn_run]
  · intro ha
    rw [step_engine ha, engineTurn_latched (s := { s with agenda := rest }) hj, runTurn_run]

end Sys2Proof.Machine
end

section
/-! A command that completes, and `NOP` (40_control R100, R105). -/

namespace Sys2Proof.Machine

/-- An accepted command whose body runs to its end leaves what the body leaves, with `DONE` set. -/
theorem exec_of_body_ok {i : Instr} {s u : State} (hj : s.job = none) (hc : checksOk s.params i (latchGeom s) = true)
    (hu : bodyOf i (latchGeom s) s = .ok u) : exec i s = .next { u with status := doneStatus s } := by
  have hframe : u = _ := bodyOf_writesOnly i _ _ _ hu
  have hjob : u.job = none := by rw [hframe, hj]
  have hstatus : u.status = s.status := by rw [hframe]
  rw [exec_idle hj hc, hu, conclude, finish, hstatus, ← hjob]
  rfl

/-- An accepted command that completes leaves the block idle with `DONE` set (R100, R291). -/
theorem exec_accepted_next {i : Instr} {s t : State} (hacc : accepts i s) (h : exec i s = .next t) :
    t.job = none ∧ t.status.done = true := by
  obtain ⟨-, hc⟩ := hacc
  rcases exec_next h with ⟨-, hrejected, -⟩ | ⟨g, u, -, rfl, -, -⟩
  · rw [hc] at hrejected
    cases hrejected
  · exact ⟨rfl, rfl⟩

/-- Settles O34. -/
theorem nopOnlySetsDone : Obligations.NopOnlySetsDone := by
  unfold Obligations.NopOnlySetsDone
  refine ⟨by decide, fun s hj => exec_of_body_ok hj (checksOk_of_free rfl rfl) rfl, fun s j rest hj ha => ?_⟩
  exact step_write_dropped hj ha (busCheck_cmd _) (by decide)

end Sys2Proof.Machine
end

section
/-! One transition or two (40_control R101): submission is idempotent, so a command that is latched first ends as the one that
runs at once. -/

namespace Sys2Proof.Machine

theorem accept_accept (i : Instr) (s : State) : accept i (accept i s) = accept i s := by
  rcases accept_cases i s with ⟨j, hj, ha⟩ | ⟨-, -, ha⟩ | ⟨hj, hc, ha⟩
  · rw [ha, ha]
  · rw [ha, accept_busy rfl]
  · -- the checks see the registers, which a rejection keeps
    rw [ha, accept_rejected (s := raiseError .geometry (clearDone s)) hj hc]
    rfl

theorem exec_accept (i : Instr) (s : State) : exec i (accept i s) = exec i s := by
  rw [exec_eq, exec_eq, runCommand, runCommand, accept_accept]

/-- Settles O7. -/
theorem execAfterAcceptIsExec : Obligations.ExecAfterAcceptIsExec := by
  unfold Obligations.ExecAfterAcceptIsExec
  exact exec_accept

end Sys2Proof.Machine
end

section
/-! `run M` with polls (30_encoding R88, 70_reset_and_hazards R283): neither a command nor a poll depends on the host's side, so the
polls in the busy window leave the command as it is. -/

namespace Sys2Proof.Machine

/-- The state with another agenda and other replies. -/
def withHost (a : List Event) (r : List Reply) (s : State) : State := { s with agenda := a, replies := r }

theorem accept_withHost (i : Instr) (a : List Event) (r : List Reply) (s : State) :
    accept i (withHost a r s) = withHost a r (accept i s) := by
  rcases accept_cases i s with ⟨j, hj, ha⟩ | ⟨hj, hc, ha⟩ | ⟨hj, hc, ha⟩
  · rw [ha, accept_busy (s := withHost a r s) hj]
  · rw [ha, accept_accepted (s := withHost a r s) hj hc]
    rfl
  · rw [ha, accept_rejected (s := withHost a r s) hj hc]
    rfl

theorem bodyOf_withHost (i : Instr) (g : Geom) (a : List Event) (r : List Reply) (s : State) :
    bodyOf i g (withHost a r s) = (bodyOf i g s).map (withHost a r) := by
  have hblind := bodyOf_blind i s.status s.job a r s.draws g s
  cases hu : bodyOf i g s with
  | error f => rw [hu] at hblind; exact hblind
  | ok u =>
    rw [hu] at hblind
    have hframe : u = _ := bodyOf_writesOnly i g s u hu
    refine hblind.trans ?_
    rw [hframe]
    rfl

theorem conclude_map_withHost (a : List Event) (r : List Reply) (o : Except Fault State) :
    conclude (o.map (withHost a r)) = mapNext (withHost a r) (conclude o) := by
  cases o <;> rfl

theorem exec_withHost (i : Instr) (a : List Event) (r : List Reply) (s : State) :
    exec i (withHost a r s) = mapNext (withHost a r) (exec i s) := by
  have hbody : ∀ g, conclude (bodyOf i g (withHost a r s)) = mapNext (withHost a r) (conclude (bodyOf i g s)) := by
    intro g
    rw [bodyOf_withHost, conclude_map_withHost]
  cases hj : s.job with
  | some j => rw [exec_latched hj, exec_latched (s := withHost a r s) hj, hbody]
  | none =>
    cases hc : checksOk s.params i (latchGeom s) with
    | true =>
      rw [exec_idle hj hc, exec_idle (s := withHost a r s) hj hc]
      exact hbody _
    | false =>
      rw [exec_idle_rejected hj hc, exec_idle_rejected (s := withHost a r s) hj hc]
      rfl

theorem engineTurn_withHost (a : List Event) (r : List Reply) (s : State) :
    runTurn (engineTurn (withHost a r s)) = mapNext (withHost a r) (runTurn (engineTurn s)) := by
  cases hj : s.job with
  | none => rw [engineTurn_idle hj, engineTurn_idle (s := withHost a r s) hj]; rfl
  | some j =>
    rw [engineTurn_latched hj, engineTurn_latched (s := withHost a r s) hj, runTurn_run, runTurn_run, exec_withHost]

theorem step_poll (rest : List Event) (rs : List Reply) (s : State) :
    step (withHost (rd 4 :: rest) rs s) = .next (withHost rest (.value (statusWord s) :: rs) s) :=
  step_readReg (s := withHost (rd 4 :: rest) rs s) (r := .status) rfl

/-- Polls add their replies and change nothing else, busy or idle (R65). -/
theorem run_polls (n k : Nat) (rest : List Event) (rs : List Reply) (s : State) :
    Sys2Proof.core.run (n + k) (withHost (List.replicate n (rd 4) ++ rest) rs s) =
      Sys2Proof.core.run k (withHost rest (List.replicate n (.value (statusWord s)) ++ rs) s) := by
  induction n generalizing rs with
  | zero => rw [Nat.zero_add]; rfl
  | succ n ih =>
    rw [Nat.add_right_comm, List.replicate_succ, List.cons_append, run_succ (step_poll _ _ _), ih,
      List.replicate_succ' (n := n), List.append_assoc]
    rfl

/-- The end of `run M`: the engine's turn, and the last poll. -/
theorem run_engine_poll {s t : State} (rest : List Event) (rs : List Reply) (h : runTurn (engineTurn s) = .next t) :
    Sys2Proof.core.run 2 (withHost (.engine :: rd 4 :: rest) rs s) =
      .next (withHost rest (.value (statusWord t) :: rs) t) := by
  have hengine : step (withHost (.engine :: rd 4 :: rest) rs s) = .next (withHost (rd 4 :: rest) rs t) := by
    rw [step_engine (s := withHost (.engine :: rd 4 :: rest) rs s) rfl]
    change runTurn (engineTurn (withHost (rd 4 :: rest) rs s)) = _
    rw [engineTurn_withHost, h]
    rfl
  exact run_two hengine (step_poll _ _ _)

theorem statusWord_latched {s : State} {j : Job} (hj : s.job = some j) : (statusWord s).getLsbD 0 = true := by
  rw [(statusWord_bits s).1, hj]
  rfl

/-- What is latched when `run M` begins its polls: with one or more, the accepted command; with none, nothing, the command
having run in the step of its submission. -/
theorem step_run_submission {i : Instr} {s t : State} (n : Nat) (rest : List Event) (hacc : accepts i s)
    (ht : exec i s = .next t) : ∃ u,
      step { s with agenda := runPolled i n ++ rest } = .next (withHost (waitIdle n ++ rest) (.ack :: s.replies) u) ∧
      runTurn (engineTurn u) = .next t ∧ (n = 0 ∨ u = accept i s) := by
  obtain ⟨hidle, -⟩ := exec_accepted_next hacc ht
  obtain ⟨hj, hc⟩ := hacc
  have hagenda : runPolled i n ++ rest = .host (.write .b32 0#32 (encode i)) :: (waitIdle n ++ rest) := rfl
  cases n with
  | zero =>
    refine ⟨t, ?_, by rw [engineTurn_idle hidle, runTurn_ok], .inl rfl⟩
    rw [step_cmd_run (s := { s with agenda := runPolled i 0 ++ rest }) hj (decode_encode i) hagenda rfl]
    change exec i (withHost _ _ s) = _
    rw [exec_withHost, ht]
    rfl
  | succ n =>
    have hlatched : (accept i s).job = some { cmd := i, geom := latchGeom s } := by rw [accept_accepted hj hc]
    refine ⟨accept i s, ?_, by rw [engineTurn_latched hlatched, runTurn_run, exec_accept, ht], .inr rfl⟩
    rw [step_cmd_accept (s := { s with agenda := runPolled i (n + 1) ++ rest }) hj (decode_encode i) hagenda rfl]
    exact congrArg _ (accept_withHost i _ _ s)

/-- Settles O8: the submission, the polls in the window, and the engine's turn with the last poll. -/
theorem polledRunIsOneTransition : Obligations.PolledRunIsOneTransition := by
  unfold Obligations.PolledRunIsOneTransition
  intro i n rest s t hacc ht
  obtain ⟨hidle, hdone⟩ := exec_accepted_next hacc ht
  obtain ⟨hbusyBit, hdoneBit, -⟩ := statusWord_bits t
  refine ⟨?_, ?_, by rw [hbusyBit, hidle]; rfl, hdoneBit.trans hdone⟩
  · obtain ⟨u, hstep, hturn, hu⟩ := step_run_submission n rest hacc ht
    have hpolls : List.replicate n (Reply.value (statusWord u)) = List.replicate n (.value (statusWord (accept i s))) := by
      rcases hu with rfl | rfl <;> rfl
    rw [run_succ hstep, waitIdle, List.append_assoc, run_polls, hpolls]
    exact run_engine_poll rest _ hturn
  · obtain ⟨hj, hc⟩ := hacc
    rw [accept_accepted hj hc]
    exact statusWord_latched rfl

end Sys2Proof.Machine
end

section
/-! Composites (40_control R108): the commands of a list run one after another are their bodies in order, on one latched geometry. -/

namespace Sys2Proof.Machine

/-- The bodies of one or more commands in order. -/
def bodyAll : Instr → List Instr → Geom → State → Except Fault State
  | i, [] => bodyOf i
  | i, k :: ks => andThen (bodyOf i) (bodyAll k ks)

/-- What holds of every body and passes from two bodies to their sequence holds of the sequence of bodies. -/
theorem bodyAll_induction {P : (Geom → State → Except Fault State) → Prop} (hbody : ∀ i, P (bodyOf i))
    (hseq : ∀ a b, P a → P b → P (andThen a b)) (i : Instr) (is : List Instr) : P (bodyAll i is) := by
  induction is generalizing i with
  | nil => exact hbody i
  | cons k ks ih => exact hseq _ _ (hbody i) (ih k)

theorem bodyAll_blind (i : Instr) (is : List Instr) : blindBody (bodyAll i is) :=
  bodyAll_induction bodyOf_blind (fun _ _ => blindBody_andThen) i is

theorem bodyAll_writesOnly (i : Instr) (is : List Instr) : ∀ g s t, bodyAll i is g s = .ok t → writesOnly s t :=
  bodyAll_induction (P := fun b => ∀ g s t, b g s = .ok t → writesOnly s t) bodyOf_writesOnly
    (fun _ _ => andThen_writesOnly) i is

/-- The completion of one command is not seen by the bodies after it. -/
theorem conclude_blindBody_finish {b : Geom → State → Except Fault State} (hblind : blindBody b)
    (hframe : ∀ g s t, b g s = .ok t → writesOnly s t) (g : Geom) (s : State) :
    conclude (b g (finish s)) = conclude (b g s) := by
  have hfinish := hblind (doneStatus s) none s.agenda s.replies s.draws g s
  change b g (finish s) = _ at hfinish
  rw [hfinish]
  cases ht : b g s with
  | error f => rfl
  | ok t =>
    have hst : t = _ := hframe g s t ht
    simp only [conclude, Host.Outcome.next.injEq]
    rw [hst]
    rfl

/-- Commands whose checks all hold, one after another from an idle block, are their bodies in order and one completion. -/
theorem execAll_eq_bodyAll (i : Instr) (is : List Instr) (s : State) (hj : s.job = none)
    (hc : ∀ k ∈ i :: is, checksOk s.params k (latchGeom s) = true) :
    execAll (i :: is) s = conclude (bodyAll i is (latchGeom s) s) := by
  have hexec := exec_idle hj (hc i List.mem_cons_self)
  induction is generalizing i s with
  | nil =>
    rw [execAll, hexec, bodyAll]
    cases bodyOf i (latchGeom s) s <;> rfl
  | cons k ks ih =>
    rw [execAll, hexec, bodyAll, andThen]
    cases hu : bodyOf i (latchGeom s) s with
    | error f => rfl
    | ok u =>
      have hframe : u = _ := bodyOf_writesOnly i _ _ _ hu
      have hgeom : latchGeom (finish u) = latchGeom s := by rw [hframe]; rfl
      have hparams : (finish u).params = s.params := by rw [hframe]; rfl
      have hchecks : ∀ k' ∈ k :: ks, checksOk (finish u).params k' (latchGeom (finish u)) = true := by
        rw [hgeom, hparams]
        exact fun k' hk' => hc k' (List.mem_cons_of_mem i hk')
      have hrest := ih k (finish u) rfl hchecks (exec_idle rfl (hchecks k List.mem_cons_self))
      rw [hgeom, conclude_blindBody_finish (bodyAll_blind k ks) (bodyAll_writesOnly k ks)] at hrest
      exact hrest

/-- A command that needs just the checks that some command of a list needs passes exactly when all of them do (R102, R108). -/
theorem checksOk_union {i : Instr} {is : List Instr} (hg : needsGeom i = is.any needsGeom)
    (hr : needsRef i = is.any needsRef) (p : Params) (g : Geom) :
    checksOk p i g = true ↔ ∀ k ∈ is, checksOk p k g = true := by
  simp only [checksOk_iff, hg, hr, List.any_eq_true]
  constructor
  · rintro ⟨hgeom, href⟩ k hk
    exact ⟨fun h => hgeom ⟨k, hk, h⟩, fun h => href ⟨k, hk, h⟩⟩
  · intro h
    exact ⟨fun ⟨k, hk, hn⟩ => (h k hk).1 hn, fun ⟨k, hk, hn⟩ => (h k hk).2 hn⟩

theorem exec_composite {i k : Instr} {ks : List Instr} (hbody : bodyOf i = bodyAll k ks)
    (hc : ∀ p g, checksOk p i g = true ↔ ∀ k' ∈ k :: ks, checksOk p k' g = true) {s : State} (h : accepts i s) :
    exec i s = execAll (k :: ks) s := by
  obtain ⟨hj, hchecks⟩ := h
  rw [exec_idle hj hchecks, hbody, execAll_eq_bodyAll k ks s hj ((hc _ _).1 hchecks)]

/-- Settles O58: each composite needs the union of the checks of its components, and its body is theirs in order. -/
theorem compositesAreTheirComponents : Obligations.CompositesAreTheirComponents := by
  unfold Obligations.CompositesAreTheirComponents
  exact ⟨fun p g m c => ⟨checksOk_union rfl rfl p g, checksOk_union rfl rfl p g, checksOk_union rfl rfl p g⟩,
    fun s => exec_composite rfl (checksOk_union rfl rfl), fun s => exec_composite rfl (checksOk_union rfl rfl),
    fun m c s => exec_composite rfl (checksOk_union rfl rfl)⟩

end Sys2Proof.Machine
end

section
/-! The empty plane (40_control R106): with `N = 0` the loops over pixels run zero rounds, the loops over the 256 entries run in
full, and no body touches `DST`. -/

namespace Sys2Proof.Machine

theorem forRange_fixed {σ : Type} {f : σ → Nat → Except Fault σ} {ks : List Nat} {st : σ} (h : ∀ k ∈ ks, f st k = .ok st) :
    forRange f ks st = .ok st := by
  induction ks with
  | nil => rfl
  | cons k ks ih =>
    rw [forRange, h k List.mem_cons_self]
    exact ih fun k' hk' => h k' (List.mem_cons_of_mem k hk')

theorem histBody_empty {g : Geom} (hn : g.n = 0) (s : State) :
    histBody g s = .ok { s with h1 := Table.ofFun fun _ => 0 } :=
  histBody_ok.2 ⟨_, by rw [hn]; rfl, rfl⟩

theorem xremapBody_empty {g : Geom} (hn : g.n = 0) (s : State) :
    xremapBody g s = .ok { s with cnt := Table.ofFun fun _ => 0 } :=
  xremapBody_ok.2 ⟨_, by rw [hn]; rfl, rfl⟩

theorem lutapplyBody_empty {g : Geom} (hn : g.n = 0) (s : State) : lutapplyBody g s = .ok s :=
  lutapplyBody_ok.2 ⟨_, by rw [hn]; rfl, rfl⟩

theorem scaleBin_zero (sum x : Nat) : scaleBin 0 sum x = 0 := by
  have hhalf : sum / (2 * sum) = 0 := by
    rcases Nat.eq_zero_or_pos sum with rfl | h
    · rfl
    · exact Nat.div_eq_of_lt (by omega)
  rw [scaleBin, roundHalfAway_nat]
  simp [hhalf]

theorem rescaleLoop_zero (sum : Nat) (xs : List Nat) :
    rescaleLoop 0 sum xs 0 false = (List.replicate xs.length 0, 0) := by
  induction xs with
  | nil => rfl
  | cons x xs ih => simp [rescaleLoop, scaleBin_zero, ih, List.replicate_succ]

theorem rescaleFlat_zero : rescaleFlat 0 = List.replicate 256 0 := by simp [rescaleFlat]

/-- A total of 0 rescales to zeros, on the flat path and on the scaled one (R124, R125). -/
theorem rescale_zero {xs : List Nat} (hlen : xs.length = 256) (pol : Policy) : rescale xs 0 pol = List.replicate 256 0 := by
  unfold rescale
  split
  · exact rescaleFlat_zero
  · rw [rescaleLoop_zero, hlen]
    simp [addShortfall]

theorem ofList_replicate_zero (w : Nat) :
    (Table.ofList (List.replicate 256 0) : Table w) = Table.ofFun fun _ => 0 := by
  apply Table.ext
  intro i hi
  rw [Table.get_ofList hi, Table.get_ofFun _ hi, List.getElem?_replicate, if_pos hi]

theorem rescaleBody_empty {g : Geom} (hn : g.n = 0) (pol : Policy) {s : State} (hw : entriesWritten s.shape) :
    rescaleBody pol g s = .ok { s with tgt := Table.ofFun fun _ => 0 } := by
  obtain ⟨vs, hvs⟩ := readTable_of_written .shape hw
  have hlen : (vs.map BitVec.toNat).length = 256 := by rw [List.length_map, readTable_length hvs]
  refine rescaleBody_ok.2 ⟨vs, hvs, ?_⟩
  rw [hn, rescale_zero hlen, List.map_replicate, ← ofList_replicate_zero]
  rfl

/-- A row that is all zeros, padding included. -/
def zeroRow (kr : Kernel) (w : Nat) : List Int := List.replicate (w + 2 * kr.rx) 0

/-- Without pixels a row of the buffer has no samples or lies past the bottom of the image (R188). -/
theorem loadRow_empty {w h : Nat} (hn : w * h = 0) (kr : Kernel) (src : Memory) (glut : Table 8) (y : Nat) :
    loadRow kr w h src glut y = .ok (zeroRow kr w) := by
  unfold loadRow
  split
  · obtain rfl : w = 0 := (Nat.mul_eq_zero.1 hn).resolve_right (by omega)
    simp [collect, zeroRow, two_mul]
  · rfl

theorem initialRing_empty {w h : Nat} (hn : w * h = 0) (kr : Kernel) (src : Memory) (glut : Table 8) :
    initialRing kr w h src glut = .ok (List.replicate kr.rows (zeroRow kr w)) := by
  rw [initialRing, collect_map (g := fun _ => zeroRow kr w) fun y _ => loadRow_empty hn kr src glut y]
  simp

/-- Without pixels a line changes nothing: the row that it advances to is zero like those of the ring (R193). -/
theorem diffuseLine_empty {w h y : Nat} (hn : w * h = 0) (hy : y < h) (kr : Kernel) (c : Scan) (src dst : Memory)
    (glut : Table 8) :
    diffuseLine kr c w h src glut { rb := List.replicate kr.rows (zeroRow kr w), dst := dst } y =
      .ok { rb := List.replicate kr.rows (zeroRow kr w), dst := dst } := by
  rw [diffuseLine, loadRow_empty hn]
  obtain rfl : w = 0 := (Nat.mul_eq_zero.1 hn).resolve_right (by omega)
  simp [diffuseRow]

theorem diffuseBody_empty {g : Geom} (hn : g.n = 0) (m : Method) (c : Scan) (s : State) :
    diffuseBody m c g s =
      .ok { s with rb := List.replicate (kernelOf s.params m).rows (zeroRow (kernelOf s.params m) g.w) } := by
  refine diffuseBody_ok.2 ⟨{ rb := _, dst := s.dst }, ?_, rfl⟩
  rw [diffuseImage, initialRing_empty hn]
  exact forRange_fixed fun y hy => diffuseLine_empty hn (List.mem_range.1 hy) _ c s.src s.dst s.glut

theorem replicate_zeroRow_cells {kr : Kernel} {w n : Nat} {row : List Int} {cell : Int}
    (hrow : row ∈ List.replicate n (zeroRow kr w)) (hcell : cell ∈ row) : cell = 0 := by
  rw [List.eq_of_mem_replicate hrow] at hcell
  exact List.eq_of_mem_replicate hcell

/-- A body that leaves `DST` as it is where there are no pixels. -/
def KeepsDstOnEmpty (b : Geom → State → Except Fault State) : Prop :=
  ∀ (g : Geom) (s t : State), g.n = 0 → b g s = .ok t → t.dst = s.dst

theorem KeepsDstOnEmpty.andThen {a b : Geom → State → Except Fault State} (ha : KeepsDstOnEmpty a) (hb : KeepsDstOnEmpty b) :
    KeepsDstOnEmpty (andThen a b) := by
  intro g s t hn h
  obtain ⟨u, hu, ht⟩ := andThen_ok.1 h
  exact (hb g u t hn ht).trans (ha g s u hn hu)

theorem LeavesOutputs.keepsDstOnEmpty {b : Geom → State → Except Fault State} (hb : LeavesOutputs b) : KeepsDstOnEmpty b :=
  fun g s t _ h => (hb g s t h).1

theorem xremapBody_keepsDstOnEmpty : KeepsDstOnEmpty xremapBody := by
  intro g s t hn h
  rw [xremapBody_empty hn] at h
  cases h
  rfl

theorem lutapplyBody_keepsDstOnEmpty : KeepsDstOnEmpty lutapplyBody := by
  intro g s t hn h
  rw [lutapplyBody_empty hn] at h
  cases h
  rfl

theorem diffuseBody_keepsDstOnEmpty (m : Method) (c : Scan) : KeepsDstOnEmpty (diffuseBody m c) := by
  intro g s t hn h
  rw [diffuseBody_empty hn] at h
  cases h
  rfl

theorem bodyOf_keepsDstOnEmpty (i : Instr) : KeepsDstOnEmpty (bodyOf i) := by
  cases i with
  | nop => exact nopBody_leaves.keepsDstOnEmpty
  | hist => exact histBody_leaves.keepsDstOnEmpty
  | shape => exact shapeBody_leaves.keepsDstOnEmpty
  | rescale pol => exact (rescaleBody_leaves pol).keepsDstOnEmpty
  | ivbuild => exact ivbuildBody_leaves.keepsDstOnEmpty
  | xremap => exact xremapBody_keepsDstOnEmpty
  | cdflut => exact cdflutBody_leaves.keepsDstOnEmpty
  | lutapply => exact lutapplyBody_keepsDstOnEmpty
  | gamma => exact gammaBody_leaves.keepsDstOnEmpty
  | diffuse m c => exact diffuseBody_keepsDstOnEmpty m c
  | matchx =>
    exact histBody_leaves.keepsDstOnEmpty.andThen <| shapeBody_leaves.keepsDstOnEmpty.andThen <|
      (rescaleBody_leaves .last).keepsDstOnEmpty.andThen <|
        ivbuildBody_leaves.keepsDstOnEmpty.andThen xremapBody_keepsDstOnEmpty
  | matcha =>
    exact histBody_leaves.keepsDstOnEmpty.andThen <| shapeBody_leaves.keepsDstOnEmpty.andThen <|
      (rescaleBody_leaves .lastNonzero).keepsDstOnEmpty.andThen <|
        cdflutBody_leaves.keepsDstOnEmpty.andThen lutapplyBody_keepsDstOnEmpty
  | dither m c => exact gammaBody_leaves.keepsDstOnEmpty.andThen (diffuseBody_keepsDstOnEmpty m c)

theorem exec_empty_dst {i : Instr} {s t : State} (hj : s.job = none) (hn : (latchGeom s).n = 0) (h : exec i s = .next t) :
    t.dst = s.dst := by
  rcases exec_next h with ⟨-, -, rfl⟩ | ⟨g, u, hu, rfl, hidle, -⟩
  · rfl
  · obtain ⟨rfl, -⟩ := hidle hj
    exact bodyOf_keepsDstOnEmpty i _ s u hn hu

/-- Settles O24: each body on a geometry without pixels, and what every body does to `DST` there. -/
theorem emptyPlaneRunsNoPixelLoop : Obligations.EmptyPlaneRunsNoPixelLoop := by
  unfold Obligations.EmptyPlaneRunsNoPixelLoop
  intro s pol m c hj hpixels hacc
  obtain ⟨-, hhist⟩ := hacc
  have hn : (latchGeom s).n = 0 := hpixels
  -- the commands named need the check of `HIST` and no other
  have hexec : ∀ i u, needsRef i = false → bodyOf i (latchGeom s) s = .ok u →
      exec i s = .next { u with status := doneStatus s } := fun i u href hu =>
    exec_of_body_ok hj (checksOk_iff.2 ⟨fun _ => (checksOk_iff.1 hhist).1 rfl, fun h => by rw [href] at h; cases h⟩) hu
  exact ⟨(hexec .hist _ rfl (histBody_empty hn s) :),
    fun hw => (hexec (.rescale pol) _ rfl (rescaleBody_empty hn pol hw) :),
    (hexec .xremap _ rfl (xremapBody_empty hn s) :),
    (hexec .lutapply _ rfl (lutapplyBody_empty hn s) :),
    ⟨_, (hexec (.diffuse m c) _ rfl (diffuseBody_empty hn m c s) :),
      fun _ hrow _ hcell => replicate_zeroRow_cells hrow hcell⟩,
    fun _ _ h => exec_empty_dst hj hn h⟩

end Sys2Proof.Machine
end

section
/-! What the commands of 41_histogram share: the check of a command that needs one only (40_control R102), the fault that stops a
command or a loop (60_exceptions R259), and a table given as a list. -/

namespace Sys2Proof.Machine

/-- An accepted command whose body stops at a fault stops with that fault (R259). -/
theorem exec_of_body_error {i : Instr} {s : State} {f : Fault} (hj : s.job = none)
    (hc : checksOk s.params i (latchGeom s) = true) (hf : bodyOf i (latchGeom s) s = .error f) : exec i s = .fault f := by
  rw [exec_idle hj hc, hf]
  rfl

theorem range_eq_append_cons {k n : Nat} (h : k < n) : ∃ ks, List.range n = List.range k ++ k :: ks := by
  obtain ⟨m, rfl⟩ := Nat.exists_eq_add_of_lt h
  exact ⟨_, by rw [Nat.add_assoc, List.range_add, List.range_succ_eq_map, List.map_cons, Nat.add_zero]⟩

/-- A loop stops at the first round that faults. -/
theorem forRange_stops {σ : Type} {f : σ → Nat → Except Fault σ} {k n : Nat} {st st' : σ} {e : Fault} (hk : k < n)
    (hok : forRange f (List.range k) st = .ok st') (he : f st' k = .error e) :
    forRange f (List.range n) st = .error e := by
  obtain ⟨ks, hks⟩ := range_eq_append_cons hk
  simp only [hks, forRange_append, hok, forRange, he]

/-- Collecting stops at the first element that faults. -/
theorem collect_stops {α β : Type} {f : α → Except Fault β} {as bs : List α} {a : α} {e : Fault}
    (hok : ∀ a' ∈ as, ∃ b, f a' = .ok b) (he : f a = .error e) : collect f (as ++ a :: bs) = .error e := by
  induction as with
  | nil => simp only [List.nil_append, collect, he]
  | cons a' as ih =>
    obtain ⟨⟨b, hb⟩, has⟩ := List.forall_mem_cons.1 hok
    simp only [List.cons_append, collect, hb, ih has]

theorem collect_range_stops {β : Type} {f : Nat → Except Fault β} {k n : Nat} {e : Fault} (hk : k < n)
    (hok : ∀ j < k, ∃ b, f j = .ok b) (he : f k = .error e) : collect f (List.range n) = .error e := by
  obtain ⟨ks, hks⟩ := range_eq_append_cons hk
  rw [hks]
  exact collect_stops (fun j hj => hok j (List.mem_range.1 hj)) he

theorem pixelCount_lt {s : State} (hwf : s.params.wf = true) (hg : geomOk s.params (latchGeom s) = true) :
    pixelCount s < 2 ^ 32 := by
  obtain ⟨-, -, hn⟩ := geomOk_iff.1 hg
  exact (hn.trans (maxPix_le hwf)).trans_lt (by norm_num)

theorem checksOk_geom {i : Instr} {p : Params} {g : Geom} (hg : needsGeom i = true) (hr : needsRef i = false) :
    checksOk p i g = geomOk p g := by simp [checksOk, hg, hr]

theorem checksOk_ref {i : Instr} {p : Params} {g : Geom} (hg : needsGeom i = false) (hr : needsRef i = true) :
    checksOk p i g = refOk p g := by simp [checksOk, hg, hr]

theorem Table.ofList_eq_ofFun {w : Nat} {vs : List (BitVec w)} {f : Nat → BitVec w} (h : ∀ i < 256, vs[i]? = some (f i)) :
    Table.ofList vs = Table.ofFun f := by
  apply Table.ext
  intro i hi
  rw [Table.get_ofList hi, Table.get_ofFun _ hi, h i hi]

end Sys2Proof.Machine
end

section
/-! `HIST` (41_histogram R120): after `k` pixels the table holds the occurrences among the first `k` bytes. -/

namespace Sys2Proof.Machine

theorem levelAt_of_read {m : Memory} {k : Nat} {b : Byte} (h : Memory.read m k = some b) : levelAt m k = b.toNat := by
  simp [levelAt, h]

theorem levelAt_lt (m : Memory) (k : Nat) : levelAt m k < 256 := by
  cases h : Memory.read m k with
  | none => simp [levelAt, h]
  | some b =>
    rw [levelAt_of_read h]
    exact b.isLt

theorem occurrences_succ (m : Memory) (n v : Nat) :
    occurrences m (n + 1) v = occurrences m n v + if levelAt m n = v then 1 else 0 := by
  rw [occurrences, occurrences, Finset.range_add_one, Finset.filter_insert]
  split
  · exact Finset.card_insert_of_notMem (by simp)
  · rfl

theorem occurrences_le (m : Memory) (n v : Nat) : occurrences m n v ≤ n :=
  (Finset.card_filter_le _ _).trans_eq (Finset.card_range n)

theorem sum_occurrences (m : Memory) (n : Nat) : ∑ v ∈ Finset.range 256, occurrences m n v = n := by
  have hmaps : Set.MapsTo (levelAt m) (Finset.range n) (Finset.range 256) :=
    fun k _ => Finset.mem_coe.2 (Finset.mem_range.2 (levelAt_lt m k))
  exact (Finset.card_eq_sum_card_fiberwise hmaps).symm.trans (Finset.card_range n)

/-- The table of `HIST` after `n` pixels. -/
def countTable (m : Memory) (n : Nat) : Table 32 := Table.ofFun fun v => BitVec.ofNat 32 (occurrences m n v)

theorem histPixel_countTable {src : Memory} {k : Nat} (h : (Memory.read src k).isSome = true) :
    histPixel src (countTable src k) k = .ok (countTable src (k + 1)) := by
  obtain ⟨b, hb⟩ := Option.isSome_iff_exists.1 h
  refine histPixel_ok.2 ⟨b, _, hb, Table.get_ofFun _ b.isLt, Table.ext fun i hi => ?_⟩
  rw [countTable, Table.get_ofFun _ hi, occurrences_succ, levelAt_of_read hb, Table.get_put]
  by_cases hib : i = b.toNat
  · subst hib
    simp [hi, BitVec.ofNat_add]
  · simp [hib, Ne.symm hib, countTable, Table.get_ofFun _ hi]

theorem histogram_written {src : Memory} {n : Nat} (h : bytesWritten src n) : histogram src n = .ok (countTable src n) := by
  have hzero : countTable src 0 = Table.ofFun fun _ => 0 := rfl
  obtain ⟨t, ht, rfl⟩ := forRange_succeeds (fun k t => t = countTable src k) hzero.symm
    fun k hk a ha => ⟨_, ha ▸ histPixel_countTable (h k hk), rfl⟩
  exact ht

theorem histPixel_unwritten {src : Memory} {k : Nat} (h : Memory.read src k = none) (t : Table 32) :
    histPixel src t k = .error (.unwrittenRead (.plane .src k)) := by
  rw [histPixel, readByte_error.2 ⟨h, rfl⟩]

theorem histogram_unwritten {src : Memory} {k n : Nat} (hk : k < n) (h : bytesWritten src k)
    (hnone : Memory.read src k = none) : histogram src n = .error (.unwrittenRead (.plane .src k)) :=
  forRange_stops hk (histogram_written h) (histPixel_unwritten hnone _)

theorem histBody_written {g : Geom} {s : State} (h : bytesWritten s.src g.n) :
    histBody g s = .ok { s with h1 := countTable s.src g.n } :=
  histBody_ok.2 ⟨_, histogram_written h, rfl⟩

theorem histBody_unwritten {g : Geom} {s : State} {k : Nat} (hk : k < g.n) (h : bytesWritten s.src k)
    (hnone : Memory.read s.src k = none) : histBody g s = .error (.unwrittenRead (.plane .src k)) := by
  rw [histBody, histogram_unwritten hk h hnone]

/-- Settles O35: the counts after `N` pixels, and the first unwritten byte below `N`. -/
theorem histCountsTheLevels : Obligations.HistCountsTheLevels := by
  unfold Obligations.HistCountsTheLevels
  refine ⟨by decide, fun s hwf hj => ?_⟩
  have hchecks : checksOk s.params .hist (latchGeom s) = geomOk s.params (latchGeom s) := checksOk_geom rfl rfl
  exact ⟨fun hg => exec_idle_rejected hj (hchecks.trans hg),
    fun hg hw => ⟨exec_of_body_ok hj (hchecks.trans hg) (histBody_written hw),
      fun v => (occurrences_le _ _ v).trans_lt (pixelCount_lt hwf hg), sum_occurrences _ _⟩,
    fun k hg hk hw hnone => exec_of_body_error hj (hchecks.trans hg) (histBody_unwritten hk hw hnone)⟩

end Sys2Proof.Machine
end

section
/-! `SHAPE` (41_histogram R121): one sample of the reference for each entry. -/

namespace Sys2Proof.Machine

theorem shapeSample_written {ref : Memory} {l k : Nat} (h : k < l → (Memory.read ref k).isSome = true) :
    shapeSample ref l k = .ok (if k < l then BitVec.ofNat 32 (levelAt ref k) else 0) := by
  unfold shapeSample
  split
  next hk =>
    obtain ⟨b, hb⟩ := Option.isSome_iff_exists.1 (h hk)
    simp only [readByte_ok.2 hb, levelAt_of_read hb, BitVec.ofNat_toNat]
  next => rfl

theorem shapeSample_unwritten {ref : Memory} {l k : Nat} (hk : k < l) (h : Memory.read ref k = none) :
    shapeSample ref l k = .error (.unwrittenRead (.plane .ref k)) := by
  rw [shapeSample, if_pos hk, readByte_error.2 ⟨h, rfl⟩]

theorem shapeBody_written {g : Geom} {s : State} (h : bytesWritten s.ref (min g.l 256)) :
    shapeBody g s = .ok { s with
      shape := Table.ofFun fun k => if k < g.l then BitVec.ofNat 32 (levelAt s.ref k) else 0 } := by
  have hsamples := collect_map (as := List.range 256) fun k hk =>
    shapeSample_written (ref := s.ref) (l := g.l) fun hl => h k (lt_min hl (List.mem_range.1 hk))
  refine shapeBody_ok.2 ⟨_, hsamples, ?_⟩
  rw [Table.ofList_eq_ofFun fun i hi => ?_]
  rw [List.getElem?_map, List.getElem?_range hi, Option.map_some]

theorem shapeBody_unwritten {g : Geom} {s : State} {k : Nat} (hk : k < min g.l 256) (h : bytesWritten s.ref k)
    (hnone : Memory.read s.ref k = none) : shapeBody g s = .error (.unwrittenRead (.plane .ref k)) := by
  obtain ⟨hl, h256⟩ := lt_min_iff.1 hk
  rw [shapeBody, collect_range_stops h256 (fun j hj => ⟨_, shapeSample_written fun _ => h j hj⟩) (shapeSample_unwritten hl hnone)]

/-- Settles O36. `SHAPE` needs the check of the reference only (R102). -/
theorem shapeCopiesTheSamples : Obligations.ShapeCopiesTheSamples := by
  unfold Obligations.ShapeCopiesTheSamples
  refine ⟨by decide, fun s hj => ?_⟩
  have hchecks : checksOk s.params .shape (latchGeom s) = refOk s.params (latchGeom s) := checksOk_ref rfl rfl
  have haccept : s.reflen.toNat ≤ s.params.maxPix → checksOk s.params .shape (latchGeom s) = true :=
    fun hl => hchecks.trans (refOk_iff.2 hl)
  exact ⟨fun hl => exec_idle_rejected hj (hchecks.trans (decide_eq_false (Nat.not_le.2 hl))),
    fun hl hw => exec_of_body_ok hj (haccept hl) (shapeBody_written hw),
    fun k hl hk hw hnone => exec_of_body_error hj (haccept hl) (shapeBody_unwritten hk hw hnone)⟩

end Sys2Proof.Machine
end

section
/-! The parts of the rescaler (41_histogram R125, R126): the loop of R125 and the shortfall of R126 as functions of the bin. -/

namespace Sys2Proof.Machine

theorem sum_modify_add {ts : List Nat} {i : Nat} (d : Nat) (hi : i < ts.length) :
    (ts.modify i (· + d)).sum = ts.sum + d := by
  induction ts generalizing i with
  | nil => simp at hi
  | cons t ts ih =>
    cases i with
    | zero => simp only [List.modify_zero_cons, List.sum_cons]; omega
    | succ i => simp only [List.modify_succ_cons, List.sum_cons, ih (Nat.lt_of_succ_lt_succ hi)]; omega

theorem addShortfall_of_total_le {pol : Policy} {total acc : Nat} {ts : List Nat} (h : total ≤ acc) :
    addShortfall pol total ts acc = ts := if_neg (Nat.not_lt.2 h)

theorem length_addShortfall (pol : Policy) (total : Nat) (ts : List Nat) (acc : Nat) :
    (addShortfall pol total ts acc).length = ts.length := by
  unfold addShortfall
  split <;> simp

theorem getD_addShortfall (pol : Policy) (total : Nat) {ts : List Nat} (acc : Nat) {k : Nat} (hk : k < ts.length) :
    (addShortfall pol total ts acc).getD k 0 = ts.getD k 0 + if k = remainderBin pol ts then total - acc else 0 := by
  rcases Nat.lt_or_ge acc total with hshort | hfull
  · rw [addShortfall, if_pos hshort]
    by_cases hbin : k = remainderBin pol ts
    · simp [← hbin, hk]
    · simp [hbin, Ne.symm hbin, hk]
  · simp [addShortfall_of_total_le hfull, Nat.sub_eq_zero_of_le hfull]

theorem sum_addShortfall {pol : Policy} {total : Nat} {ts : List Nat} (hbin : remainderBin pol ts < ts.length)
    (hle : ts.sum ≤ total) : (addShortfall pol total ts ts.sum).sum = total := by
  rcases Nat.lt_or_ge ts.sum total with hshort | hfull
  · rw [addShortfall, if_pos hshort, sum_modify_add _ hbin]
    omega
  · rw [addShortfall_of_total_le hfull]
    omega

theorem lastNonzeroFrom_zeros {ts : List Nat} (k best : Nat) (h : ∀ j, ts.getD j 0 = 0) : lastNonzeroFrom ts k best = best := by
  induction ts generalizing k with
  | nil => rfl
  | cons t ts ih =>
    have ht : t = 0 := h 0
    subst ht
    exact ih (k + 1) fun j => h (j + 1)

theorem lastNonzeroFrom_last {ts : List Nat} {i : Nat} (k best : Nat) (hi : 0 < ts.getD i 0)
    (hlast : ∀ j, i < j → ts.getD j 0 = 0) : lastNonzeroFrom ts k best = k + i := by
  induction ts generalizing k best i with
  | nil => simp at hi
  | cons t ts ih =>
    rw [lastNonzeroFrom]
    cases i with
    | zero =>
      have ht : 0 < t := hi
      rw [if_pos ht, lastNonzeroFrom_zeros _ _ fun j => hlast (j + 1) j.succ_pos, Nat.add_zero]
    | succ i => rw [ih _ _ hi fun j hj => hlast (j + 1) (Nat.succ_lt_succ hj), Nat.add_assoc, Nat.add_comm 1 i]

theorem lastNonzeroFrom_lt {ts : List Nat} {k best n : Nat} (hbest : best < n) (hlen : k + ts.length ≤ n) :
    lastNonzeroFrom ts k best < n := by
  induction ts generalizing k best with
  | nil => exact hbest
  | cons t ts ih =>
    rw [List.length_cons] at hlen
    refine ih ?_ (by omega)
    split <;> omega

theorem remainderBin_lt (pol : Policy) {ts : List Nat} (h : ts.length = 256) : remainderBin pol ts < ts.length := by
  cases pol with
  | last => simp [remainderBin, h]
  | lastNonzero => exact lastNonzeroFrom_lt (by omega) (by omega)

theorem rescaleLoop_over (total sum : Nat) (xs : List Nat) (acc : Nat) :
    rescaleLoop total sum xs acc true = (List.replicate xs.length 0, acc) := by
  induction xs with
  | nil => rfl
  | cons x xs ih => rw [rescaleLoop, ih]; rfl

theorem length_rescaleLoop (total sum : Nat) (xs : List Nat) (acc : Nat) :
    (rescaleLoop total sum xs acc false).1.length = xs.length := by
  induction xs generalizing acc with
  | nil => rfl
  | cons x xs ih =>
    rw [rescaleLoop]
    split
    · simp [rescaleLoop_over]
    · simp [ih]

/-- The accumulator of R125 holds the sum of the bins. -/
theorem rescaleLoop_acc {total sum acc : Nat} {xs : List Nat} (hacc : acc ≤ total) :
    (rescaleLoop total sum xs acc false).2 = acc + (rescaleLoop total sum xs acc false).1.sum := by
  induction xs generalizing acc with
  | nil => rfl
  | cons x xs ih =>
    rw [rescaleLoop]
    split
    next hexceeds => simp [rescaleLoop_over, Nat.add_sub_cancel' hacc]
    next hfits => simp only [ih (Nat.not_lt.1 hfits), List.sum_cons, Nat.add_assoc]

/-- A bin of the loop of R125: the scaled value, capped by what the scaled values before it leave of the total. -/
theorem getD_rescaleLoop {total sum acc : Nat} {xs : List Nat} {k : Nat} (hacc : acc ≤ total) (hk : k < xs.length) :
    (rescaleLoop total sum xs acc false).1.getD k 0 =
      min (scaleBin total sum (xs.getD k 0)) (total - (acc + ∑ j ∈ Finset.range k, scaleBin total sum (xs.getD j 0))) := by
  induction xs generalizing acc k with
  | nil => simp at hk
  | cons x xs ih =>
    rw [rescaleLoop]
    cases k with
    | zero => split <;> simp <;> omega
    | succ k =>
      have hk' : k < xs.length := Nat.lt_of_succ_lt_succ hk
      simp only [Finset.sum_range_succ', List.getD_cons_succ, List.getD_cons_zero]
      split
      next hexceeds =>
        rw [rescaleLoop_over, List.getD_cons_succ, List.getD_replicate _ hk']
        omega
      next hfits =>
        rw [List.getD_cons_succ, ih (Nat.not_lt.1 hfits) hk']
        omega

end Sys2Proof.Machine
end

section
/-! The rescaler (41_histogram R122 to R128): its two paths in closed form, the sum of the bins, and where the policies differ. -/

namespace Sys2Proof.Machine

/-- The bins that the loop of R125 leaves for a whole shape, in closed form. -/
def cappedBins (shape : List Nat) (total : Nat) : List Nat := (List.range shape.length).map (cappedShape shape total)

theorem length_cappedBins (shape : List Nat) (total : Nat) : (cappedBins shape total).length = shape.length := by
  simp [cappedBins]

theorem getD_cappedBins {shape : List Nat} (total : Nat) {k : Nat} (hk : k < shape.length) :
    (cappedBins shape total).getD k 0 = cappedShape shape total k := by
  simp [cappedBins, hk]

theorem sum_take_cappedBins (shape : List Nat) (total : Nat) {k : Nat} (hk : k ≤ shape.length) :
    ((cappedBins shape total).take k).sum = ∑ j ∈ Finset.range k, cappedShape shape total j := by
  rw [cappedBins, ← List.map_take, List.take_range, Nat.min_eq_left hk]
  rfl

theorem sum_cappedBins (shape : List Nat) (total : Nat) :
    (cappedBins shape total).sum = ∑ j ∈ Finset.range shape.length, cappedShape shape total j := rfl

theorem scaleBin_eq_scaledShape (shape : List Nat) (total k : Nat) :
    scaleBin total shape.sum (shape.getD k 0) = scaledShape shape total k := by
  rw [scaleBin, roundHalfAway_nat]
  rfl

/-- The capped values add up to the scaled ones until these reach the total. -/
theorem sum_cappedShape (shape : List Nat) (total n : Nat) :
    ∑ j ∈ Finset.range n, cappedShape shape total j = min total (∑ j ∈ Finset.range n, scaledShape shape total j) := by
  induction n with
  | zero => simp
  | succ n ih =>
    rw [Finset.sum_range_succ, Finset.sum_range_succ, ih, cappedShape]
    omega

theorem sum_cappedBins_le (shape : List Nat) (total : Nat) : (cappedBins shape total).sum ≤ total := by
  rw [sum_cappedBins, sum_cappedShape]
  exact min_le_left _ _

/-- The loop of R125 over a whole shape. -/
theorem rescaleLoop_shape (shape : List Nat) (total : Nat) :
    rescaleLoop total shape.sum shape 0 false = (cappedBins shape total, (cappedBins shape total).sum) := by
  have hlen := length_rescaleLoop total shape.sum shape 0
  have hbins : (rescaleLoop total shape.sum shape 0 false).1 = cappedBins shape total := by
    refine List.ext_getElem (by rw [hlen, length_cappedBins]) fun k hk hk' => ?_
    have hks : k < shape.length := hlen ▸ hk
    rw [← List.getD_eq_getElem _ 0 hk, ← List.getD_eq_getElem _ 0 hk', getD_rescaleLoop (Nat.zero_le _) hks,
      getD_cappedBins total hks, cappedShape]
    simp only [scaleBin_eq_scaledShape, Nat.zero_add]
  refine Prod.ext hbins ?_
  rw [rescaleLoop_acc (Nat.zero_le _), hbins, Nat.zero_add]

theorem rescale_of_sum_zero {shape : List Nat} (h : shape.sum = 0) (total : Nat) (pol : Policy) :
    rescale shape total pol = rescaleFlat total := if_pos h

theorem rescale_of_sum_pos {shape : List Nat} (h : 0 < shape.sum) (total : Nat) (pol : Policy) :
    rescale shape total pol = addShortfall pol total (cappedBins shape total) (cappedBins shape total).sum := by
  rw [rescale, if_neg (Nat.ne_of_gt h), rescaleLoop_shape]

theorem length_rescaleFlat (total : Nat) : (rescaleFlat total).length = 256 := by simp [rescaleFlat]

theorem getD_rescaleFlat (total : Nat) {k : Nat} (hk : k < 256) :
    (rescaleFlat total).getD k 0 = total / 256 + if k < total % 256 then 1 else 0 := by
  simp [rescaleFlat, hk]

theorem sum_rescaleFlat (total : Nat) : (rescaleFlat total).sum = total := by
  have hextra : (Finset.range 256).filter (· < total % 256) = Finset.range (total % 256) := by
    ext k
    simp only [Finset.mem_filter, Finset.mem_range]
    omega
  calc (rescaleFlat total).sum
      = ∑ k ∈ Finset.range 256, (total / 256 + if k < total % 256 then 1 else 0) := rfl
    _ = 256 * (total / 256) + total % 256 := by
      rw [Finset.sum_add_distrib, Finset.sum_boole, hextra]
      simp
    _ = total := Nat.div_add_mod total 256

theorem length_rescale {shape : List Nat} (hlen : shape.length = 256) (total : Nat) (pol : Policy) :
    (rescale shape total pol).length = 256 := by
  rcases Nat.eq_zero_or_pos shape.sum with h | h
  · rw [rescale_of_sum_zero h, length_rescaleFlat]
  · rw [rescale_of_sum_pos h, length_addShortfall, length_cappedBins, hlen]

/-- The bins sum to the total exactly (R128). -/
theorem sum_rescale {shape : List Nat} (hlen : shape.length = 256) (total : Nat) (pol : Policy) :
    (rescale shape total pol).sum = total := by
  rcases Nat.eq_zero_or_pos shape.sum with h | h
  · rw [rescale_of_sum_zero h, sum_rescaleFlat]
  · rw [rescale_of_sum_pos h]
    exact sum_addShortfall (remainderBin_lt pol (by rw [length_cappedBins, hlen])) (sum_cappedBins_le shape total)

theorem le_total_of_mem_rescale {shape : List Nat} (hlen : shape.length = 256) {total : Nat} {pol : Policy} {x : Nat}
    (hx : x ∈ rescale shape total pol) : x ≤ total :=
  (List.le_sum_of_mem hx).trans_eq (sum_rescale hlen total pol)

theorem getD_rescale_le {shape : List Nat} (hlen : shape.length = 256) (total : Nat) (pol : Policy) {k : Nat} (hk : k < 256) :
    (rescale shape total pol).getD k 0 ≤ total := by
  have hbin : k < (rescale shape total pol).length := by rwa [length_rescale hlen]
  rw [List.getD_eq_getElem _ 0 hbin]
  exact le_total_of_mem_rescale hlen (List.getElem_mem hbin)

/-- Settles O37. -/
theorem zeroShapeRescalesFlat : Obligations.ZeroShapeRescalesFlat := by
  unfold Obligations.ZeroShapeRescalesFlat
  intro shape total pol hlen hsum
  refine ⟨length_rescale hlen total pol, fun k hk => ?_⟩
  rw [rescale_of_sum_zero (Nat.le_zero.1 hsum), getD_rescaleFlat total hk]

/-- The bin of R126 under `LAST_NONZERO`: the last one that the loop left nonzero, or 255 if it left none. -/
theorem lastNonzeroFrom_cappedBins {shape : List Nat} {total b : Nat} (hlen : shape.length = 256) (hb : b < 256)
    (h : (0 < cappedShape shape total b ∧ ∀ k, b < k → k < 256 → cappedShape shape total k = 0) ∨
      (b = 255 ∧ ∀ k < 256, cappedShape shape total k = 0)) :
    lastNonzeroFrom (cappedBins shape total) 0 255 = b := by
  have hbin : ∀ k < 256, (cappedBins shape total).getD k 0 = cappedShape shape total k :=
    fun k hk => getD_cappedBins total (hlen ▸ hk)
  have hpast : ∀ k, 256 ≤ k → (cappedBins shape total).getD k 0 = 0 :=
    fun k hk => List.getD_eq_default _ _ (by rw [length_cappedBins, hlen]; exact hk)
  rcases h with ⟨hpos, hlater⟩ | ⟨rfl, hzero⟩
  · refine (lastNonzeroFrom_last 0 255 (by rw [hbin b hb]; exact hpos) fun k hk => ?_).trans (Nat.zero_add b)
    rcases Nat.lt_or_ge k 256 with hk' | hk'
    · rw [hbin k hk', hlater k hk hk']
    · exact hpast k hk'
  · refine lastNonzeroFrom_zeros 0 255 fun k => ?_
    rcases Nat.lt_or_ge k 256 with hk | hk
    · rw [hbin k hk, hzero k hk]
    · exact hpast k hk

/-- Settles O38: the capped bins of the loop, and the shortfall at the remainder bin. -/
theorem positiveShapeRescalesScaled : Obligations.PositiveShapeRescalesScaled := by
  unfold Obligations.PositiveShapeRescalesScaled
  intro shape total pol b hlen hpos hb hbin
  have hremainder : remainderBin pol (cappedBins shape total) = b := by
    cases pol with
    | last => exact hbin.symm
    | lastNonzero => exact lastNonzeroFrom_cappedBins hlen hb hbin
  refine ⟨length_rescale hlen total pol, fun k hk => ?_⟩
  have hks : k < shape.length := hlen ▸ hk
  rw [rescale_of_sum_pos hpos, getD_addShortfall pol total _ (by rw [length_cappedBins]; exact hks), hremainder,
    getD_cappedBins total hks, sum_cappedBins, hlen]

/-- The policies agree on the flat path, and wherever the loop of R125 leaves no shortfall (R128). -/
theorem rescale_policies_agree {shape : List Nat} {total : Nat}
    (h : shape.sum = 0 ∨ total ≤ (cappedBins shape total).sum) (pol pol' : Policy) :
    rescale shape total pol = rescale shape total pol' := by
  rcases Nat.eq_zero_or_pos shape.sum with hflat | hpos
  · rw [rescale_of_sum_zero hflat, rescale_of_sum_zero hflat]
  · have hfull := h.resolve_left hpos.ne'
    rw [rescale_of_sum_pos hpos, rescale_of_sum_pos hpos, addShortfall_of_total_le hfull, addShortfall_of_total_le hfull]

/-- Settles O39: what the loop leaves falls short of the total by what R126 adds, and the policy says only to which bin. -/
theorem rescalePreservesTheTotal : Obligations.RescalePreservesTheTotal := by
  unfold Obligations.RescalePreservesTheTotal
  intro shape total pol hlen
  simp only [rescaleLoop_shape]
  refine ⟨sum_rescale hlen total pol, fun x hx => le_total_of_mem_rescale hlen hx,
    fun x hx => Nat.le_zero.1 (le_total_of_mem_rescale hlen hx), fun _ k hk => ?_,
    fun h => rescale_policies_agree (h.imp_right Eq.ge) _ _, fun hne => ?_⟩
  · have hks : k < shape.length := hlen ▸ hk
    rw [getD_cappedBins total hks, scaleBin_eq_scaledShape, sum_take_cappedBins shape total hks.le, sum_cappedShape,
      cappedShape]
    omega
  · obtain ⟨hscaled, hshort⟩ := not_or.1 fun h => hne (rescale_policies_agree h _ _)
    refine ⟨Nat.lt_of_not_le hshort, fun h255 => hne ?_⟩
    have hpos : 0 < shape.sum := Nat.pos_of_ne_zero hscaled
    simp only [rescale_of_sum_pos hpos, addShortfall, remainderBin, h255]

theorem scaleBin_mul_left {c : Nat} (hc : 0 < c) (total sum x : Nat) :
    scaleBin total (c * sum) (c * x) = scaleBin total sum x := by
  rw [scaleBin, scaleBin, roundHalfAway_nat, roundHalfAway_nat, Int.toNat_natCast, Int.toNat_natCast,
    show 2 * (c * x * total) + c * sum = c * (2 * (x * total) + sum) by ring,
    show 2 * (c * sum) = c * (2 * sum) by ring, Nat.mul_div_mul_left _ _ hc]

theorem rescaleLoop_mul_left {c : Nat} (hc : 0 < c) (total sum : Nat) (xs : List Nat) (acc : Nat) (o : Bool) :
    rescaleLoop total (c * sum) (xs.map (c * ·)) acc o = rescaleLoop total sum xs acc o := by
  induction xs generalizing acc o with
  | nil => rfl
  | cons x xs ih => cases o <;> simp only [List.map_cons, rescaleLoop, scaleBin_mul_left hc, ih]

/-- Settles O40: the factor cancels in every scaled value. -/
theorem rescaleIgnoresTheShapesScale : Obligations.RescaleIgnoresTheShapesScale := by
  unfold Obligations.RescaleIgnoresTheShapesScale
  intro shape total c pol hc
  have hsum : (shape.map (c * ·)).sum = c * shape.sum := by simpa using List.sum_map_mul_left shape id c
  have hzero : c * shape.sum = 0 ↔ shape.sum = 0 := by simp [hc.ne']
  simp only [rescale, hsum, hzero, rescaleLoop_mul_left hc]

end Sys2Proof.Machine
end

section
/-! `RESCALE` (41_histogram R127): the rescaled shape for the total `N`. -/

namespace Sys2Proof.Machine

theorem length_tableValues {w : Nat} (t : Table w) : (tableValues t).length = 256 := by simp [tableValues]

theorem map_toNat_readTable {w : Nat} {id : TableId} {t : Table w} {vs : List (BitVec w)} (h : readTable id t = .ok vs) :
    vs.map BitVec.toNat = tableValues t := by
  refine List.ext_getElem (by rw [List.length_map, readTable_length h, length_tableValues]) fun i hi _ => ?_
  have hvs : i < vs.length := by simpa using hi
  have hget : Table.get t i = some vs[i] := by
    rw [← readTable_getElem? h (readTable_length h ▸ hvs), List.getElem?_eq_getElem hvs]
  simp [tableValues, entryAt, hget]

theorem entriesWritten_of_readTable {w : Nat} {id : TableId} {t : Table w} {vs : List (BitVec w)}
    (h : readTable id t = .ok vs) : entriesWritten t := fun i hi => by
  rw [← readTable_getElem? h hi, List.getElem?_eq_getElem (by rw [readTable_length h]; exact hi)]
  rfl

theorem readTable_unwritten {w : Nat} (id : TableId) {t : Table w} (h : ¬entriesWritten t) :
    ∃ k < 256, Table.get t k = none ∧ readTable id t = .error (.unwrittenRead (.table id k)) := by
  cases hr : readTable id t with
  | ok vs => exact absurd (entriesWritten_of_readTable hr) h
  | error e =>
    obtain ⟨k, hk, hnone, rfl⟩ := readTable_error hr
    exact ⟨k, hk, hnone, rfl⟩

theorem rescaleBody_written (pol : Policy) (g : Geom) {s : State} (h : entriesWritten s.shape) :
    rescaleBody pol g s = .ok { s with
      tgt := Table.ofFun fun k => BitVec.ofNat 32 ((rescale (tableValues s.shape) g.n pol).getD k 0) } := by
  obtain ⟨vs, hvs⟩ := readTable_of_written .shape h
  refine rescaleBody_ok.2 ⟨vs, hvs, ?_⟩
  rw [map_toNat_readTable hvs, Table.ofList_eq_ofFun fun i hi => ?_]
  have hbin : i < (rescale (tableValues s.shape) g.n pol).length := by
    rw [length_rescale (length_tableValues _)]
    exact hi
  rw [List.getElem?_map, List.getElem?_eq_getElem hbin, List.getD_eq_getElem _ 0 hbin, Option.map_some]

theorem rescaleBody_unwritten (pol : Policy) (g : Geom) {s : State} (h : ¬entriesWritten s.shape) :
    ∃ k < 256, Table.get s.shape k = none ∧ rescaleBody pol g s = .error (.unwrittenRead (.table .shape k)) := by
  obtain ⟨k, hk, hnone, hr⟩ := readTable_unwritten .shape h
  exact ⟨k, hk, hnone, by rw [rescaleBody, hr]⟩

/-- Settles O41: a bin fits its entry because it is at most `N`. -/
theorem rescaleWritesTheTarget : Obligations.RescaleWritesTheTarget := by
  unfold Obligations.RescaleWritesTheTarget
  intro pol s hwf ⟨hj, hc⟩
  refine ⟨fun hw => ⟨exec_of_body_ok hj hc (rescaleBody_written pol _ hw), fun k hk => ?_⟩, fun hw => ?_⟩
  · have hg : geomOk s.params (latchGeom s) = true := (checksOk_iff.1 hc).1 rfl
    exact (getD_rescale_le (length_tableValues _) _ pol hk).trans_lt (pixelCount_lt hwf hg)
  · obtain ⟨k, hk, hnone, hf⟩ := rescaleBody_unwritten pol (latchGeom s) hw
    exact ⟨k, hk, hnone, exec_of_body_error hj hc hf⟩

end Sys2Proof.Machine
end

section
/-! The bins of `IVBUILD` (42_exact_matcher R140, R141): where the crossing lies, and the interval of each level. -/

namespace Sys2Proof.Machine

theorem entryAt_of_get {w : Nat} {t : Table w} {i : Nat} {v : BitVec w} (h : Table.get t i = some v) :
    entryAt t i = v.toNat := by
  simp [entryAt, h]

theorem cumulative_mono (f : Nat → Nat) : Monotone (cumulative f) := fun _ _ hij =>
  Finset.sum_le_sum_of_subset (Finset.range_mono (Nat.succ_le_succ hij))

theorem cumulative_eq_add (f : Nat → Nat) (i : Nat) : cumulative f i = ∑ k ∈ Finset.range i, f k + f i :=
  Finset.sum_range_succ f i

/-- The bins below the crossing are those whose cumulative target falls short of the cumulative source. -/
theorem lt_crossing_iff {h t : Nat → Nat} {i r : Nat} :
    r < crossing h t i ↔ r < 255 ∧ cumulative t r < cumulative h i := by
  constructor
  · intro hr
    by_contra hshort
    refine hr.not_ge ((Finset.card_le_card fun b hb => ?_).trans_eq (Finset.card_range r))
    simp only [Finset.mem_filter, Finset.mem_range] at hb ⊢
    obtain ⟨hb255, hb⟩ := hb
    by_contra hrb
    exact hshort ⟨by omega, (cumulative_mono t (Nat.not_lt.1 hrb)).trans_lt hb⟩
  · rintro ⟨hr255, hr⟩
    refine Nat.lt_of_succ_le ((Finset.card_range (r + 1)).symm.trans_le (Finset.card_le_card fun b hb => ?_))
    simp only [Finset.mem_filter, Finset.mem_range] at hb ⊢
    exact ⟨by omega, (cumulative_mono t (Nat.le_of_lt_succ hb)).trans_lt hr⟩

theorem crossing_le (h t : Nat → Nat) (i : Nat) : crossing h t i ≤ 255 :=
  (Finset.card_filter_le _ _).trans_eq (Finset.card_range 255)

theorem crossing_mono (h t : Nat → Nat) : Monotone (crossing h t) := by
  intro i j hij
  refine le_of_forall_lt fun r hr => lt_crossing_iff.2 ?_
  obtain ⟨hr255, hlt⟩ := lt_crossing_iff.1 hr
  exact ⟨hr255, hlt.trans_le (cumulative_mono h hij)⟩

/-- The bins that the pointer of R140 has passed hold less than the levels so far. -/
theorem sum_below_crossing_le (h t : Nat → Nat) (i : Nat) :
    ∑ b ∈ Finset.range (crossing h t i), t b ≤ cumulative h i := by
  cases hc : crossing h t i with
  | zero => simp
  | succ c => exact (lt_crossing_iff.1 (hc ▸ c.lt_succ_self)).2.le

/-- Where the pointer of R140 stands before level `i`. -/
def startBin (h t : Nat → Nat) (i : Nat) : Nat := if i = 0 then 0 else crossing h t (i - 1)

@[simp] theorem startBin_zero (h t : Nat → Nat) : startBin h t 0 = 0 := rfl

@[simp] theorem startBin_succ (h t : Nat → Nat) (i : Nat) : startBin h t (i + 1) = crossing h t i := rfl

theorem startBin_le_crossing (h t : Nat → Nat) (i : Nat) : startBin h t i ≤ crossing h t i := by
  cases i with
  | zero => exact Nat.zero_le _
  | succ i => exact crossing_mono h t i.le_succ

theorem startBin_mono (h t : Nat → Nat) : Monotone (startBin h t) := by
  refine monotone_nat_of_le_succ fun i => ?_
  rw [startBin_succ]
  exact startBin_le_crossing h t i

/-- The intervals of the levels up to `i` cover the bins up to the crossing at `i`. -/
theorem exists_level_of_le_crossing {h t : Nat → Nat} {i b : Nat} (hb : b ≤ crossing h t i) :
    ∃ k ≤ i, startBin h t k ≤ b ∧ b ≤ crossing h t k := by
  induction i with
  | zero => exact ⟨0, le_rfl, Nat.zero_le b, hb⟩
  | succ i ih =>
    rcases Nat.le_total b (crossing h t i) with hle | hge
    · obtain ⟨k, hk, hkb⟩ := ih hle
      exact ⟨k, hk.trans i.le_succ, hkb⟩
    · exact ⟨i + 1, le_rfl, hge, hb⟩

end Sys2Proof.Machine
end

section
/-! `IVBUILD` (42_exact_matcher R140): the `while` ends at the crossing, and the loop over the levels reads just `H1` and the bins
of `TGT` up to the last crossing. -/

namespace Sys2Proof.Machine

/-- The `while` of R140 at level `i`, from a pointer `r` whose running sum is what the bins below `r` leave of the cumulative
source: it tests the bins from `r` to the crossing and ends there. -/
theorem advanceBin_ok_iff {tgt : Table 32} {h : Nat → Nat} {i f sum r : Nat} {q : Nat × Nat} (hf : 256 ≤ f + r)
    (hr : r ≤ crossing h (entryAt tgt) i) (hsum : sum + ∑ b ∈ Finset.range r, entryAt tgt b = cumulative h i) :
    advanceBin tgt f sum r = .ok q ↔
      (∀ b, r ≤ b → b ≤ crossing h (entryAt tgt) i → (Table.get tgt b).isSome = true) ∧
      q = (cumulative h i - ∑ b ∈ Finset.range (crossing h (entryAt tgt) i), entryAt tgt b, crossing h (entryAt tgt) i) := by
  induction f generalizing sum r with
  | zero =>
    have hle := crossing_le h (entryAt tgt) i
    omega
  | succ f ih =>
    rw [advanceBin]
    cases ht : Table.get tgt r with
    | none =>
      rw [readEntry_error.2 ⟨ht, rfl⟩]
      simp only [reduceCtorEq, false_iff]
      rintro ⟨hw, -⟩
      simpa [ht] using hw r le_rfl hr
    | some t =>
      have hsucc := cumulative_eq_add (entryAt tgt) r
      rw [entryAt_of_get ht] at hsucc
      have htest : (t.toNat < sum ∧ r < 255) ↔ r < crossing h (entryAt tgt) i := by
        rw [lt_crossing_iff]
        omega
      simp only [readEntry_ok.2 ht, htest]
      split
      next hlt =>
        rw [ih (by omega) hlt (by rw [Finset.sum_range_succ, entryAt_of_get ht]; have := htest.2 hlt; omega)]
        refine and_congr_left fun _ => ⟨fun hw b hb => ?_, fun hw b hb => hw b (Nat.le_of_succ_le hb)⟩
        rcases hb.eq_or_lt with rfl | hb
        · exact fun _ => Option.isSome_iff_exists.2 ⟨t, ht⟩
        · exact hw b hb
      next hend =>
        obtain rfl : r = crossing h (entryAt tgt) i := by omega
        rw [Nat.sub_eq_of_eq_add hsum.symm, Except.ok.injEq, eq_comm, iff_and_self]
        rintro - b hb hb'
        exact Option.isSome_iff_exists.2 ⟨t, le_antisymm hb' hb ▸ ht⟩

/-- What R140 reads at level `i` is written: the level's entry of `H1`, and the bins of `TGT` that its `while` tests. -/
def LevelReadsWritten (h1 tgt : Table 32) (i : Nat) : Prop :=
  (Table.get h1 i).isSome = true ∧
  ∀ b, startBin (entryAt h1) (entryAt tgt) i ≤ b → b ≤ crossing (entryAt h1) (entryAt tgt) i →
    (Table.get tgt b).isSome = true

/-- The entries that R140 writes at level `i`. -/
def intervalAt (h1 tgt : Table 32) (i : Nat) : Byte × Byte :=
  (BitVec.ofNat 8 (startBin (entryAt h1) (entryAt tgt) i), BitVec.ofNat 8 (crossing (entryAt h1) (entryAt tgt) i))

theorem intervalsFrom_cons_ok {tgt : Table 32} {i : Nat} {v : Word} {es : List (Option Word)} {sum r : Nat}
    {ps : List (Byte × Byte)} :
    intervalsFrom tgt i (some v :: es) sum r = .ok ps ↔
      ∃ q ps', advanceBin tgt 256 (sum + v.toNat) r = .ok q ∧ intervalsFrom tgt (i + 1) es q.1 q.2 = .ok ps' ∧
        ps = (BitVec.ofNat 8 r, BitVec.ofNat 8 q.2) :: ps' := by
  rw [intervalsFrom]
  cases advanceBin tgt 256 (sum + v.toNat) r with
  | error e => simp
  | ok q => cases hi : intervalsFrom tgt (i + 1) es q.1 q.2 <;> simp [hi, eq_comm]

/-- The loop of R140 from level `i` on. The running sum is what the bins below the pointer leave of the levels before `i`. -/
theorem intervalsFrom_ok_iff {h1 tgt : Table 32} {i sum : Nat} {es : List (Option Word)} {ps : List (Byte × Byte)}
    (hes : h1.toList.drop i = es)
    (hsum : sum + ∑ b ∈ Finset.range (startBin (entryAt h1) (entryAt tgt) i), entryAt tgt b =
      ∑ k ∈ Finset.range i, entryAt h1 k) :
    intervalsFrom tgt i es sum (startBin (entryAt h1) (entryAt tgt) i) = .ok ps ↔
      (∀ k, i ≤ k → k < 256 → LevelReadsWritten h1 tgt k) ∧ ps = (List.range' i es.length).map (intervalAt h1 tgt) := by
  induction es generalizing i sum ps with
  | nil =>
    have hi : 256 ≤ i := by simpa using List.drop_eq_nil_iff.1 hes
    rw [intervalsFrom, Except.ok.injEq, eq_comm, List.length_nil, List.range'_zero, List.map_nil, iff_and_self]
    intro _ k hk hk'
    omega
  | cons x es ih =>
    have hlt : i < h1.toList.length := by
      by_contra hge
      rw [List.drop_eq_nil_of_le (Nat.not_lt.1 hge)] at hes
      cases hes
    have hi : i < 256 := by rwa [Table.length_toList] at hlt
    rw [List.drop_eq_getElem_cons hlt, List.cons.injEq] at hes
    obtain ⟨hhead, hrest⟩ := hes
    have hget : Table.get h1 i = x := by
      rw [← hhead, ← Option.some.injEq, ← Table.toList_getElem? h1 hi, List.getElem?_eq_getElem hlt]
    cases x with
    | none =>
      rw [intervalsFrom]
      simp only [reduceCtorEq, false_iff]
      rintro ⟨hlevels, -⟩
      simpa [hget] using (hlevels i le_rfl hi).1
    | some v =>
      have hcum := cumulative_eq_add (entryAt h1) i
      rw [entryAt_of_get hget] at hcum
      have hadvance := fun q => advanceBin_ok_iff (q := q) (Nat.le_add_right 256 _)
        (startBin_le_crossing (entryAt h1) (entryAt tgt) i) (sum := sum + v.toNat) (by omega)
      have hnext := fun ps' => ih (ps := ps') hrest
        (Nat.sub_add_cancel (sum_below_crossing_le (entryAt h1) (entryAt tgt) i))
      rw [intervalsFrom_cons_ok]
      constructor
      · rintro ⟨q, ps', hq, hps', rfl⟩
        obtain ⟨htested, rfl⟩ := (hadvance q).1 hq
        obtain ⟨hlevels, rfl⟩ := (hnext ps').1 hps'
        refine ⟨fun k hk => ?_, rfl⟩
        rcases hk.eq_or_lt with rfl | hk
        · exact fun _ => ⟨Option.isSome_iff_exists.2 ⟨v, hget⟩, htested⟩
        · exact hlevels k hk
      · rintro ⟨hlevels, rfl⟩
        exact ⟨_, _, (hadvance _).2 ⟨(hlevels i le_rfl hi).2, rfl⟩,
          (hnext _).2 ⟨fun k hk => hlevels k (Nat.le_of_succ_le hk), rfl⟩, rfl⟩

theorem levelReadsWritten_iff {h1 tgt : Table 32} :
    (∀ k < 256, LevelReadsWritten h1 tgt k) ↔ entriesWritten h1 ∧ testedBinsWritten h1 tgt := by
  constructor
  · intro hlevels
    refine ⟨fun k hk => (hlevels k hk).1, fun b hb => ?_⟩
    obtain ⟨k, hk, hstart, hend⟩ := exists_level_of_le_crossing hb
    exact (hlevels k (by omega)).2 b hstart hend
  · rintro ⟨hh1, htested⟩ k hk
    exact ⟨hh1 k hk, fun b _ hb => htested b (hb.trans (crossing_mono _ _ (by omega)))⟩

theorem intervals_ok_iff {h1 tgt : Table 32} {ps : List (Byte × Byte)} :
    intervals h1 tgt = .ok ps ↔
      (entriesWritten h1 ∧ testedBinsWritten h1 tgt) ∧ ps = (List.range 256).map (intervalAt h1 tgt) := by
  have hfrom := intervalsFrom_ok_iff (h1 := h1) (tgt := tgt) (i := 0) (sum := 0) (ps := ps) rfl (by simp)
  rw [startBin_zero, List.drop_zero, Table.length_toList, ← List.range_eq_range'] at hfrom
  rw [intervals, hfrom, ← levelReadsWritten_iff]
  simp only [Nat.zero_le, forall_const]

theorem Table.ofList_map_range {w : Nat} {α : Type} (f : Nat → α) (g : α → BitVec w) :
    Table.ofList (((List.range 256).map f).map g) = Table.ofFun fun i => g (f i) :=
  Table.ofList_eq_ofFun fun i hi => by
    rw [List.getElem?_map, List.getElem?_map, List.getElem?_range hi, Option.map_some, Option.map_some]

/-- The state with the interval table that R140 builds. -/
def withIntervals (s : State) : State :=
  { s with
    left := Table.ofFun fun i => BitVec.ofNat 8 (startBin (entryAt s.h1) (entryAt s.tgt) i)
    right := Table.ofFun fun i => BitVec.ofNat 8 (crossing (entryAt s.h1) (entryAt s.tgt) i) }

theorem ivbuildBody_ok_iff {s t : State} (g : Geom) :
    ivbuildBody g s = .ok t ↔ (entriesWritten s.h1 ∧ testedBinsWritten s.h1 s.tgt) ∧ t = withIntervals s := by
  simp only [ivbuildBody_ok, intervals_ok_iff, and_assoc, exists_and_left, exists_eq_left, Table.ofList_map_range]
  rfl

theorem ivbuildBody_unwritten {s : State} (g : Geom) (h : ¬(entriesWritten s.h1 ∧ testedBinsWritten s.h1 s.tgt)) :
    ∃ k < 256, (Table.get s.h1 k = none ∧ ivbuildBody g s = .error (.unwrittenRead (.table .h1 k))) ∨
      (Table.get s.tgt k = none ∧ ivbuildBody g s = .error (.unwrittenRead (.table .tgt k))) := by
  cases hi : intervals s.h1 s.tgt with
  | ok ps => exact absurd (intervals_ok_iff.1 hi).1 h
  | error e =>
    obtain ⟨k, hk, ⟨hnone, rfl⟩ | ⟨hnone, rfl⟩⟩ := intervals_error hi
    · exact ⟨k, hk, .inl ⟨hnone, by rw [ivbuildBody, hi]⟩⟩
    · exact ⟨k, hk, .inr ⟨hnone, by rw [ivbuildBody, hi]⟩⟩

/-- Settles O42. -/
theorem ivbuildPlacesTheCrossings : Obligations.IvbuildPlacesTheCrossings := by
  unfold Obligations.IvbuildPlacesTheCrossings
  intro s hj
  have hc : checksOk s.params .ivbuild (latchGeom s) = true := checksOk_of_free rfl rfl
  refine ⟨fun hh1 htested => ?_, fun hw => ?_⟩
  · rw [exec_of_body_ok hj hc ((ivbuildBody_ok_iff (latchGeom s)).2 ⟨⟨hh1, htested⟩, rfl⟩)]
    simp only [withIntervals, startBin, apply_ite (BitVec.ofNat 8), BitVec.ofNat_eq_ofNat]
  · obtain ⟨k, hk, ⟨hnone, hf⟩ | ⟨hnone, hf⟩⟩ := ivbuildBody_unwritten (latchGeom s) hw
    · exact ⟨k, hk, .inl ⟨hnone, exec_of_body_error hj hc hf⟩⟩
    · exact ⟨k, hk, .inr ⟨hnone, exec_of_body_error hj hc hf⟩⟩

end Sys2Proof.Machine
end

section
/-! The interval table (42_exact_matcher R141). -/

namespace Sys2Proof.Machine

theorem entriesWritten_ofFun {w : Nat} (f : Nat → BitVec w) : entriesWritten (Table.ofFun f) := fun i hi => by
  rw [Table.get_ofFun f hi]
  rfl

theorem entryAt_ofFun {w : Nat} {f : Nat → Nat} {i : Nat} (hi : i < 256) (hf : f i < 2 ^ w) :
    entryAt (Table.ofFun fun k => BitVec.ofNat w (f k)) i = f i := by
  rw [entryAt_of_get (Table.get_ofFun _ hi), BitVec.toNat_ofNat, Nat.mod_eq_of_lt hf]

theorem entryAt_withIntervals_right (s : State) {i : Nat} (hi : i < 256) :
    entryAt (withIntervals s).right i = crossing (entryAt s.h1) (entryAt s.tgt) i :=
  entryAt_ofFun hi (Nat.lt_succ_of_le (crossing_le _ _ i))

theorem entryAt_withIntervals_left (s : State) {i : Nat} (hi : i < 256) :
    entryAt (withIntervals s).left i = startBin (entryAt s.h1) (entryAt s.tgt) i :=
  entryAt_ofFun hi (Nat.lt_succ_of_le ((startBin_le_crossing _ _ i).trans (crossing_le _ _ i)))

/-- `IVBUILD` is never rejected, so where it answers a next state its tables are those of R140. -/
theorem exec_ivbuild_tables {s t : State} (h : exec .ivbuild s = .next t) :
    t.left = (withIntervals s).left ∧ t.right = (withIntervals s).right := by
  rcases exec_next h with ⟨-, hrejected, -⟩ | ⟨g, u, hu, rfl, -, -⟩
  · rw [checksOk_of_free rfl rfl] at hrejected
    cases hrejected
  · obtain ⟨-, rfl⟩ := (ivbuildBody_ok_iff g).1 hu
    exact ⟨rfl, rfl⟩

/-- Settles O43: the crossings rise with the level, and each level starts where the one before it ends. -/
theorem intervalTableIsContiguous : Obligations.IntervalTableIsContiguous := by
  unfold Obligations.IntervalTableIsContiguous
  intro s t h
  obtain ⟨hleft, hright⟩ := exec_ivbuild_tables h
  rw [hleft, hright]
  refine ⟨entriesWritten_ofFun _, entriesWritten_ofFun _, entryAt_withIntervals_left s (by omega), fun i hi => ?_,
    fun i hi => ?_, fun i j hij hj => ?_, fun i hi => ?_⟩
  · rw [entryAt_withIntervals_left s hi, entryAt_withIntervals_right s hi]
    exact startBin_le_crossing _ _ i
  · rw [entryAt_withIntervals_left s (by omega), entryAt_withIntervals_right s (by omega), startBin_succ]
  · rw [entryAt_withIntervals_left s hj, entryAt_withIntervals_right s hj, entryAt_withIntervals_left s (by omega),
      entryAt_withIntervals_right s (by omega)]
    exact ⟨startBin_mono _ _ hij, crossing_mono _ _ hij⟩
  · rw [entryAt_withIntervals_left s hi, entryAt_withIntervals_right s hi]
    exact ⟨(startBin_le_crossing _ _ i).trans (crossing_le _ _ i), crossing_le _ _ i⟩

end Sys2Proof.Machine
end

section
/-! The scan of 42_exact_matcher R142 on levels as numbers: the bin of each pixel, and what `LEFT` and `CNT` hold after `n` of
them. -/

namespace Sys2Proof.Machine

theorem entryAt_lt {w : Nat} (t : Table w) (i : Nat) : entryAt t i < 2 ^ w := by
  cases h : Table.get t i with
  | none => simp [entryAt, h]
  | some v =>
    rw [entryAt_of_get h]
    exact v.isLt

/-- The scan of R142 on the planes and tables of a state, after `n` pixels. -/
def scanAt (s : State) (n : Nat) : (Nat → Nat) × (Nat → Nat) × List Nat :=
  scanRemap (levelAt s.src) (entryAt s.left) (entryAt s.right) (entryAt s.tgt) n

/-- `LEFT` after `n` pixels. -/
def scanLeft (s : State) (n : Nat) : Nat → Nat := (scanAt s n).1

/-- `CNT` after `n` pixels. -/
def scanCount (s : State) (n : Nat) : Nat → Nat := (scanAt s n).2.1

/-- The bin that R142 tests for pixel `k`. -/
def testedBin (s : State) (k : Nat) : Nat := scanLeft s k (levelAt s.src k)

/-- The bin that R142 emits for pixel `k`: the one tested if it is open, else the next one, at most `RIGHT`. -/
def emittedBin (s : State) (k : Nat) : Nat :=
  if scanCount s k (testedBin s k) < entryAt s.tgt (testedBin s k) then testedBin s k
  else min (testedBin s k + 1) (entryAt s.right (levelAt s.src k))

@[simp] theorem scanLeft_zero (s : State) : scanLeft s 0 = entryAt s.left := rfl

@[simp] theorem scanCount_zero (s : State) : scanCount s 0 = fun _ => 0 := rfl

theorem scanLeft_succ (s : State) (n : Nat) :
    scanLeft s (n + 1) = Function.update (scanLeft s n) (levelAt s.src n) (emittedBin s n) := rfl

theorem scanCount_succ (s : State) (n : Nat) :
    scanCount s (n + 1) = Function.update (scanCount s n) (emittedBin s n) (scanCount s n (emittedBin s n) + 1) := rfl

theorem scanAt_output (s : State) (n : Nat) : (scanAt s n).2.2 = (List.range n).map (emittedBin s) := by
  induction n with
  | zero => rfl
  | succ n ih =>
    have hsucc : (scanAt s (n + 1)).2.2 = (scanAt s n).2.2 ++ [emittedBin s n] := rfl
    rw [hsucc, ih, List.range_succ, List.map_append, List.map_singleton]

theorem scanAt_output_getD {s : State} {n k : Nat} (hk : k < n) : (scanAt s n).2.2.getD k 0 = emittedBin s k := by
  rw [scanAt_output, List.getD_eq_getElem _ 0 (by simpa using hk), List.getElem_map, List.getElem_range]

theorem remapReadsWritten_iff {s : State} {k : Nat} :
    remapReadsWritten s k ↔ (Memory.read s.src k).isSome = true ∧ (Table.get s.left (levelAt s.src k)).isSome = true ∧
      (Table.get s.tgt (testedBin s k)).isSome = true ∧
      (scanCount s k (testedBin s k) < entryAt s.tgt (testedBin s k) ∨
        (Table.get s.right (levelAt s.src k)).isSome = true) := Iff.rfl

theorem emittedBin_of_open {s : State} {k : Nat} (h : scanCount s k (testedBin s k) < entryAt s.tgt (testedBin s k)) :
    emittedBin s k = testedBin s k := if_pos h

theorem emittedBin_of_full {s : State} {k : Nat} (h : ¬scanCount s k (testedBin s k) < entryAt s.tgt (testedBin s k)) :
    emittedBin s k = min (testedBin s k + 1) (entryAt s.right (levelAt s.src k)) := if_neg h

theorem emittedBin_cases (s : State) (k : Nat) :
    emittedBin s k = testedBin s k ∨
    emittedBin s k = min (testedBin s k + 1) (entryAt s.right (levelAt s.src k)) := ite_eq_or_eq _ _ _

theorem scanLeft_lt (s : State) (n v : Nat) : scanLeft s n v < 256 := by
  induction n generalizing v with
  | zero => exact entryAt_lt s.left v
  | succ n ih =>
    rw [scanLeft_succ]
    refine Function.forall_update_iff (scanLeft s n) (p := fun _ b => b < 256) |>.2 ⟨?_, fun v _ => ih v⟩ v
    rcases emittedBin_cases s n with htested | hnext
    · exact htested ▸ ih _
    · exact hnext ▸ (min_le_right _ _).trans_lt (entryAt_lt s.right _)

theorem testedBin_lt (s : State) (k : Nat) : testedBin s k < 256 := scanLeft_lt s k _

theorem emittedBin_lt (s : State) (k : Nat) : emittedBin s k < 256 := by
  have h := scanLeft_lt s (k + 1) (levelAt s.src k)
  rwa [scanLeft_succ, Function.update_self] at h

/-- `CNT` counts the outputs (R144, 3). -/
theorem scanCount_eq_card (s : State) (n b : Nat) :
    scanCount s n b = ((Finset.range n).filter fun k => emittedBin s k = b).card := by
  induction n with
  | zero => simp
  | succ n ih =>
    rw [scanCount_succ, Finset.range_add_one, Finset.filter_insert]
    by_cases hb : emittedBin s n = b
    · subst hb
      rw [Function.update_self, if_pos rfl, Finset.card_insert_of_notMem (by simp), ih]
    · rw [Function.update_of_ne (Ne.symm hb), if_neg hb, ih]

theorem scanCount_le (s : State) (n b : Nat) : scanCount s n b ≤ n := by
  rw [scanCount_eq_card]
  exact (Finset.card_filter_le _ _).trans_eq (Finset.card_range n)

end Sys2Proof.Machine
end

section
/-! `XREMAP` (42_exact_matcher R142, R143): the loop over the pixels holds in its tables what the scan on numbers holds, and goes
on exactly where what the scan reads is written. -/

namespace Sys2Proof.Machine

/-- The loop of R142 holds what the scan holds after `k` pixels. -/
structure FollowsScan (s : State) (k : Nat) (st : Remap) : Prop where
  left : ∀ v, Table.get st.left v = (Table.get s.left v).map fun _ => BitVec.ofNat 8 (scanLeft s k v)
  cnt : st.cnt = Table.ofFun fun b => BitVec.ofNat 32 (scanCount s k b)
  dst : ∀ j, Memory.read st.dst j = if j < k then some (BitVec.ofNat 8 (emittedBin s j)) else Memory.read s.dst j

/-- The loop variables of R142 at the start. -/
def remapStart (s : State) : Remap := { left := s.left, cnt := Table.ofFun fun _ => 0, dst := s.dst }

theorem followsScan_zero (s : State) : FollowsScan s 0 (remapStart s) where
  left v := by
    rw [scanLeft_zero]
    cases h : Table.get s.left v with
    | none => exact h
    | some b => rw [Option.map_some, entryAt_of_get h, BitVec.ofNat_toNat, BitVec.setWidth_eq]; exact h
  cnt := rfl
  dst j := by rw [if_neg j.not_lt_zero]; rfl

theorem FollowsScan.left_tested {s : State} {k : Nat} {st : Remap} {p : Byte} (hst : FollowsScan s k st)
    (hp : Table.get st.left (levelAt s.src k) = some p) :
    (Table.get s.left (levelAt s.src k)).isSome = true ∧ p.toNat = testedBin s k := by
  rw [hst.left, Option.map_eq_some_iff] at hp
  obtain ⟨b, hb, rfl⟩ := hp
  rw [hb, BitVec.toNat_ofNat]
  exact ⟨rfl, Nat.mod_eq_of_lt (testedBin_lt s k)⟩

theorem FollowsScan.get_cnt {s : State} {k : Nat} {st : Remap} (hst : FollowsScan s k st) {b : Nat} (hb : b < 256) :
    Table.get st.cnt b = some (BitVec.ofNat 32 (scanCount s k b)) := by
  rw [hst.cnt, Table.get_ofFun _ hb]

/-- The counter of a bin cannot wrap, for there are fewer pixels than 32-bit values. -/
theorem toNat_scanCount {s : State} {k : Nat} (hk : k < 2 ^ 32) (b : Nat) :
    (BitVec.ofNat 32 (scanCount s k b)).toNat = scanCount s k b := by
  rw [BitVec.toNat_ofNat, Nat.mod_eq_of_lt ((scanCount_le s k b).trans_lt hk)]

theorem toNat_nextBin (p q : Byte) : (nextBin p q).toNat = min (p.toNat + 1) q.toNat := by
  rw [nextBin, BitVec.toNat_ofNat, Nat.mod_eq_of_lt ((min_le_right _ _).trans_lt q.isLt)]

/-- Emitting the bin of the scan into the loop variables, with `LEFT` already as the scan leaves it, makes them follow the scan to
the next pixel. -/
theorem FollowsScan.emit {s : State} {k : Nat} {st st' : Remap} {p : Byte} {l : Table 8} (hst : FollowsScan s k st)
    (hp : p.toNat = emittedBin s k)
    (hl : ∀ v, Table.get l v = (Table.get s.left v).map fun _ => BitVec.ofNat 8 (scanLeft s (k + 1) v))
    (he : emitBin k p { st with left := l } = .ok st') : FollowsScan s (k + 1) st' := by
  obtain ⟨c, hc, rfl⟩ := emitBin_ok.1 he
  obtain rfl : p = BitVec.ofNat 8 (emittedBin s k) := by rw [← hp, BitVec.ofNat_toNat, BitVec.setWidth_eq]
  have hcnt := hst.get_cnt (emittedBin_lt s k)
  refine ⟨hl, Table.ext fun b hb => ?_, fun j => ?_⟩
  · rw [hp, hcnt, Option.some.injEq] at hc
    rw [Table.get_put, hp, Table.get_ofFun _ hb, scanCount_succ]
    by_cases hbin : b = emittedBin s k
    · subst hbin
      rw [if_pos ⟨rfl, hb⟩, Function.update_self, BitVec.ofNat_add, hc]
      rfl
    · rw [if_neg fun h => hbin h.1, Function.update_of_ne hbin, hst.get_cnt hb]
  · rw [Memory.read_write]
    by_cases hj : j = k
    · subst hj
      rw [if_pos rfl, if_pos j.lt_succ_self]
    · rw [if_neg hj, hst.dst j]
      exact if_congr (by omega) rfl rfl

/-- `LEFT` of the scan is unchanged where the tested bin is open. -/
theorem scanLeft_succ_of_open {s : State} {k : Nat} (h : emittedBin s k = testedBin s k) :
    scanLeft s (k + 1) = scanLeft s k := by
  rw [scanLeft_succ, h]
  exact Function.update_eq_self _ _

/-- `LEFT` after the store of R142 into the entry of the level. -/
theorem FollowsScan.get_put_left {s : State} {k : Nat} {st : Remap} {p : Byte} (hst : FollowsScan s k st)
    (hw : (Table.get s.left (levelAt s.src k)).isSome = true) (hp : p.toNat = emittedBin s k) (v : Nat) :
    Table.get (Table.put st.left (levelAt s.src k) p) v =
      (Table.get s.left v).map fun _ => BitVec.ofNat 8 (scanLeft s (k + 1) v) := by
  rw [scanLeft_succ]
  by_cases hv : v = levelAt s.src k
  · subst hv
    obtain ⟨b, hb⟩ := Option.isSome_iff_exists.1 hw
    rw [Table.get_put_same _ (levelAt_lt _ _), hb, Option.map_some, Function.update_self, ← hp, BitVec.ofNat_toNat,
      BitVec.setWidth_eq]
  · rw [Table.get_put_other _ _ hv, hst.left, Function.update_of_ne hv]

/-- A pixel that succeeds has what the scan reads written, and follows the scan. -/
theorem FollowsScan.pixel_ok {s : State} {k : Nat} {st st' : Remap} (hst : FollowsScan s k st) (hk : k < 2 ^ 32)
    (h : remapPixel s.src s.tgt s.right st k = .ok st') : remapReadsWritten s k ∧ FollowsScan s (k + 1) st' := by
  obtain ⟨v, p, c, t, hv, hp, hc, ht, hbranch⟩ := remapPixel_ok.1 h
  rw [← levelAt_of_read hv] at hp hbranch
  obtain ⟨hleft, htested⟩ := hst.left_tested hp
  rw [htested] at hc ht
  rw [hst.get_cnt (testedBin_lt s k), Option.some.injEq] at hc
  rw [← hc, toNat_scanCount hk, ← entryAt_of_get ht] at hbranch
  have hreads := fun hopen => remapReadsWritten_iff.2
    ⟨Option.isSome_iff_exists.2 ⟨v, hv⟩, hleft, Option.isSome_iff_exists.2 ⟨t, ht⟩, hopen⟩
  rcases hbranch with ⟨hopen, he⟩ | ⟨hfull, q, hq, he⟩
  · have hbin := emittedBin_of_open hopen
    refine ⟨hreads (.inl hopen), hst.emit (htested.trans hbin.symm) (fun u => ?_) he⟩
    rw [scanLeft_succ_of_open hbin, hst.left]
  · have hbin : (nextBin p q).toNat = emittedBin s k := by
      rw [toNat_nextBin, htested, emittedBin_of_full hfull, entryAt_of_get hq]
    exact ⟨hreads (.inr (Option.isSome_iff_exists.2 ⟨q, hq⟩)), hst.emit hbin (hst.get_put_left hleft hbin) he⟩

theorem FollowsScan.cnt_written {s : State} {k : Nat} {st : Remap} (hst : FollowsScan s k st) : entriesWritten st.cnt :=
  hst.cnt ▸ entriesWritten_ofFun _

theorem emitBin_succeeds {st : Remap} (h : entriesWritten st.cnt) (k : Nat) (p : Byte) : ∃ st', emitBin k p st = .ok st' := by
  obtain ⟨c, hc⟩ := Option.isSome_iff_exists.1 (h p.toNat p.isLt)
  exact ⟨_, emitBin_ok.2 ⟨c, hc, rfl⟩⟩

/-- A pixel whose reads are written succeeds. -/
theorem FollowsScan.pixel_succeeds {s : State} {k : Nat} {st : Remap} (hst : FollowsScan s k st) (hk : k < 2 ^ 32)
    (h : remapReadsWritten s k) : ∃ st', remapPixel s.src s.tgt s.right st k = .ok st' := by
  obtain ⟨hsrc, hleft, htgt, hright⟩ := remapReadsWritten_iff.1 h
  obtain ⟨v, hv⟩ := Option.isSome_iff_exists.1 hsrc
  obtain ⟨t, ht⟩ := Option.isSome_iff_exists.1 htgt
  obtain ⟨p, hp⟩ : ∃ p, Table.get st.left (levelAt s.src k) = some p := by
    rw [hst.left]
    exact Option.isSome_iff_exists.1 (by rwa [Option.isSome_map])
  have hcnt := hst.get_cnt (testedBin_lt s k)
  rw [← (hst.left_tested hp).2] at hcnt ht
  have hpixel := fun st' hbranch => (remapPixel_ok (right := s.right) (st' := st')).2
    ⟨v, p, _, t, hv, levelAt_of_read hv ▸ hp, hcnt, ht, hbranch⟩
  rw [toNat_scanCount hk, ← entryAt_of_get ht, ← levelAt_of_read hv, (hst.left_tested hp).2] at hpixel
  by_cases hopen : scanCount s k (testedBin s k) < entryAt s.tgt (testedBin s k)
  · obtain ⟨st', he⟩ := emitBin_succeeds hst.cnt_written k p
    exact ⟨st', hpixel st' (.inl ⟨hopen, he⟩)⟩
  · obtain ⟨q, hq⟩ := Option.isSome_iff_exists.1 (hright.resolve_left hopen)
    obtain ⟨st', he⟩ := emitBin_succeeds (st := { st with left := Table.put st.left (levelAt s.src k) (nextBin p q) })
      hst.cnt_written k (nextBin p q)
    exact ⟨st', hpixel st' (.inr ⟨hopen, q, hq, he⟩)⟩

/-- A scan that runs to its end has what it reads written, and leaves what the scan on numbers leaves. -/
theorem remap_ok {s : State} {n : Nat} {st : Remap} (hn : n ≤ 2 ^ 32)
    (h : remap s.src s.tgt s.right n (remapStart s) = .ok st) :
    (∀ k < n, remapReadsWritten s k) ∧ FollowsScan s n st := by
  refine forRange_invariant (fun k st => (∀ j < k, remapReadsWritten s j) ∧ FollowsScan s k st)
    ⟨fun j hj => absurd hj j.not_lt_zero, followsScan_zero s⟩ ?_ h
  rintro k hk a b ⟨hbefore, ha⟩ hab
  obtain ⟨hreads, hb⟩ := ha.pixel_ok (hk.trans_le hn) hab
  refine ⟨fun j hj => ?_, hb⟩
  rcases (Nat.le_of_lt_succ hj).eq_or_lt with rfl | hj
  · exact hreads
  · exact hbefore j hj

theorem remap_succeeds {s : State} {n : Nat} (hn : n ≤ 2 ^ 32) (h : ∀ k < n, remapReadsWritten s k) :
    ∃ st, remap s.src s.tgt s.right n (remapStart s) = .ok st ∧ FollowsScan s n st := by
  refine forRange_succeeds (FollowsScan s) (followsScan_zero s) fun k hk a ha => ?_
  obtain ⟨b, hb⟩ := ha.pixel_succeeds (hk.trans_le hn) (h k hk)
  exact ⟨b, hb, (ha.pixel_ok (hk.trans_le hn) hb).2⟩

/-- An unwritten place that can stop a scan of `n` pixels (R259): a byte of `SRC`, `LEFT` or `RIGHT` at the level of one, or an
entry of `TGT`. -/
def UnwrittenForRemap (s : State) (n : Nat) (l : Loc) : Prop :=
  (∃ k < n, (Memory.read s.src k = none ∧ l = .plane .src k) ∨
    ∃ v, Memory.read s.src k = some v ∧
      ((Table.get s.left v.toNat = none ∧ l = .table .left v.toNat) ∨
       (Table.get s.right v.toNat = none ∧ l = .table .right v.toNat))) ∨
  ∃ b < 256, Table.get s.tgt b = none ∧ l = .table .tgt b

theorem remap_error {s : State} {n : Nat} {e : Fault} (hn : n ≤ 2 ^ 32)
    (h : remap s.src s.tgt s.right n (remapStart s) = .error e) : ∃ l, e = .unwrittenRead l ∧ UnwrittenForRemap s n l := by
  obtain ⟨k, hk, st, hok, he⟩ := forRange_error h
  obtain ⟨-, hst⟩ := remap_ok (hk.le.trans hn) hok
  rcases remapPixel_error hst.cnt_written he with
    ⟨hsrc, rfl⟩ | ⟨v, hv, ⟨hleft, rfl⟩ | ⟨p, -, ⟨htgt, rfl⟩ | ⟨hright, rfl⟩⟩⟩
  · exact ⟨_, rfl, .inl ⟨k, hk, .inl ⟨hsrc, rfl⟩⟩⟩
  · rw [hst.left, Option.map_eq_none_iff] at hleft
    exact ⟨_, rfl, .inl ⟨k, hk, .inr ⟨v, hv, .inl ⟨hleft, rfl⟩⟩⟩⟩
  · exact ⟨_, rfl, .inr ⟨p.toNat, p.isLt, htgt, rfl⟩⟩
  · exact ⟨_, rfl, .inl ⟨k, hk, .inr ⟨v, hv, .inr ⟨hright, rfl⟩⟩⟩⟩

theorem xremapBody_remap {g : Geom} {s t : State} :
    xremapBody g s = .ok t ↔ ∃ st, remap s.src s.tgt s.right g.n (remapStart s) = .ok st ∧
      t = { s with left := st.left, cnt := st.cnt, dst := st.dst } := xremapBody_ok

theorem xremapBody_error {g : Geom} {s : State} {e : Fault} (h : xremapBody g s = .error e) :
    remap s.src s.tgt s.right g.n (remapStart s) = .error e := by
  rw [xremapBody] at h
  rw [remapStart]
  split at h
  · cases h
  · rename_i he
    cases h
    exact he

/-- All of `TGT` is more than the scan reads of it (R282). -/
theorem remapReadsWritten_of_ready {s : State} (h : ready .xremap s) {k : Nat} (hk : k < pixelCount s) :
    remapReadsWritten s k := by
  obtain ⟨hsrc, hleft, hright, htgt⟩ := h
  obtain ⟨v, hv⟩ := Option.isSome_iff_exists.1 (hsrc k hk)
  have hlevel := levelAt_of_read hv
  exact remapReadsWritten_iff.2
    ⟨hsrc k hk, hlevel ▸ hleft k hk v hv, htgt _ (testedBin_lt s k), .inr (hlevel ▸ hright k hk v hv)⟩

theorem pixelCount_lt_of_accepts {s : State} (hwf : s.params.wf = true) (hacc : accepts .xremap s) :
    pixelCount s < 2 ^ 32 := pixelCount_lt hwf ((checksOk_iff.1 hacc.2).1 rfl)

/-- Settles O44. -/
theorem xremapFollowsTheScan : Obligations.XremapFollowsTheScan := by
  unfold Obligations.XremapFollowsTheScan
  intro s hwf hacc
  have hn : pixelCount s < 2 ^ 32 := pixelCount_lt_of_accepts hwf hacc
  obtain ⟨hj, hc⟩ := hacc
  refine ⟨fun hreads => ?_, fun h k => remapReadsWritten_of_ready h, fun hreads => ?_⟩
  · obtain ⟨st, hst, hfollows⟩ := remap_succeeds hn.le hreads
    refine ⟨st.left, st.dst, ?_, hfollows.left, scanLeft_lt s _, fun b => (scanCount_le s _ b).trans_lt hn, fun k => ?_⟩
    · rw [exec_of_body_ok hj hc (xremapBody_remap.2 ⟨st, hst, rfl⟩), hfollows.cnt]
      rfl
    · rw [hfollows.dst]
      exact ite_congr rfl (fun hk => congrArg (fun b => some (BitVec.ofNat 8 b)) (scanAt_output_getD hk).symm) fun _ => rfl
  · cases hb : xremapBody (latchGeom s) s with
    | ok t =>
      obtain ⟨st, hst, -⟩ := xremapBody_remap.1 hb
      exact absurd (remap_ok hn.le hst).1 hreads
    | error e =>
      have hf : exec .xremap s = .fault e := exec_of_body_error hj hc hb
      obtain ⟨l, rfl, hl⟩ := remap_error hn.le (xremapBody_error hb)
      rw [hf]
      simpa only [UnwrittenForRemap, Host.Outcome.fault.injEq, Fault.unwrittenRead.injEq] using hl

end Sys2Proof.Machine
end

section
/-! What the scan keeps (42_exact_matcher R144): outputs within their intervals, the motion of `LEFT`, and the counts. -/

namespace Sys2Proof.Machine

/-- `LEFT` of a level stays in the level's interval and moves by at most one per pixel of the level (R144, 2). -/
theorem scanLeft_bounds {s : State} {v : Nat} (hv : entryAt s.left v ≤ entryAt s.right v) (n : Nat) :
    entryAt s.left v ≤ scanLeft s n v ∧ scanLeft s n v ≤ entryAt s.right v ∧
      scanLeft s n v ≤ entryAt s.left v + occurrences s.src n v := by
  induction n with
  | zero => exact ⟨le_rfl, hv, Nat.le_add_right _ _⟩
  | succ n ih =>
    rw [scanLeft_succ, occurrences_succ]
    by_cases hlevel : levelAt s.src n = v
    · subst hlevel
      rw [Function.update_self, if_pos rfl]
      rw [← testedBin] at ih
      rcases emittedBin_cases s n with hb | hb <;> omega
    · rwa [Function.update_of_ne (Ne.symm hlevel), if_neg hlevel, Nat.add_zero]

theorem scanLeft_succ_level (s : State) (k : Nat) : scanLeft s (k + 1) (levelAt s.src k) = emittedBin s k := by
  rw [scanLeft_succ, Function.update_self]

theorem FollowsScan.entryAt_left {s : State} {n : Nat} {st : Remap} (hst : FollowsScan s n st) {v : Nat}
    (hw : (Table.get s.left v).isSome = true) : entryAt st.left v = scanLeft s n v := by
  obtain ⟨b, hb⟩ := Option.isSome_iff_exists.1 hw
  have hget := hst.left v
  rw [hb, Option.map_some] at hget
  rw [entryAt_of_get hget, BitVec.toNat_ofNat, Nat.mod_eq_of_lt (scanLeft_lt s n v)]

theorem FollowsScan.levelAt_dst {s : State} {n : Nat} {st : Remap} (hst : FollowsScan s n st) {k : Nat} (hk : k < n) :
    levelAt st.dst k = emittedBin s k := by
  have hread := hst.dst k
  rw [if_pos hk] at hread
  rw [levelAt_of_read hread, BitVec.toNat_ofNat, Nat.mod_eq_of_lt (emittedBin_lt s k)]

theorem FollowsScan.entryAt_cnt {s : State} {n : Nat} {st : Remap} (hst : FollowsScan s n st) (hn : n < 2 ^ 32) {b : Nat}
    (hb : b < 256) : entryAt st.cnt b = occurrences st.dst n b := by
  rw [hst.cnt, entryAt_ofFun hb ((scanCount_le s n b).trans_lt hn), scanCount_eq_card, occurrences]
  exact congrArg Finset.card (Finset.filter_congr fun k hk => by rw [hst.levelAt_dst (Finset.mem_range.1 hk)])

/-- An accepted `XREMAP` that completes has run its scan to the end. -/
theorem exec_xremap_followsScan {s t : State} (hwf : s.params.wf = true) (hacc : accepts .xremap s)
    (h : exec .xremap s = .next t) : (∀ k < pixelCount s, remapReadsWritten s k) ∧
      FollowsScan s (pixelCount s) { left := t.left, cnt := t.cnt, dst := t.dst } := by
  have hn := pixelCount_lt_of_accepts hwf hacc
  obtain ⟨hj, hc⟩ := hacc
  rw [exec_idle hj hc] at h
  obtain ⟨u, hu, rfl⟩ := conclude_next.1 h
  obtain ⟨st, hst, rfl⟩ := xremapBody_remap.1 hu
  exact remap_ok hn.le hst

/-- Settles O45. -/
theorem xremapStaysInItsIntervals : Obligations.XremapStaysInItsIntervals := by
  unfold Obligations.XremapStaysInItsIntervals
  intro s t hwf hacc h hle
  have hn := pixelCount_lt_of_accepts hwf hacc
  obtain ⟨hreads, hst⟩ := exec_xremap_followsScan hwf hacc h
  have hcounts : ∀ b < 256, entryAt t.cnt b = occurrences t.dst (pixelCount s) b := fun b hb => hst.entryAt_cnt hn hb
  refine ⟨fun k hk => ?_, fun k hk => ?_, hcounts, ?_⟩
  · obtain ⟨hlow, hhigh, -⟩ := scanLeft_bounds (hle k hk) (k + 1)
    rw [scanLeft_succ_level, ← hst.levelAt_dst hk] at hlow hhigh
    exact ⟨hlow, hhigh⟩
  · obtain ⟨-, hleft, -⟩ := remapReadsWritten_iff.1 (hreads k hk)
    have hbounds := scanLeft_bounds (hle k hk) (pixelCount s)
    rwa [← hst.entryAt_left hleft] at hbounds
  · exact (Finset.sum_congr rfl fun b hb => hcounts b (Finset.mem_range.1 hb)).trans (sum_occurrences _ _)

end Sys2Proof.Machine
end

section
/-! The two tables that `CDFLUT` reads (43_cdf_matcher R160): reading them pair by pair succeeds exactly when both are written. -/

namespace Sys2Proof.Machine

theorem readPairsFrom_map_some (i : Nat) (us vs : List Word) :
    readPairsFrom i (us.map some) (vs.map some) = .ok ((us.map BitVec.toNat).zip (vs.map BitVec.toNat)) := by
  induction us generalizing i vs with
  | nil => rfl
  | cons u us ih =>
    cases vs with
    | nil => rfl
    | cons v vs => simp only [List.map_cons, readPairsFrom, ih, List.zip_cons_cons]

theorem exists_values_of_readPairsFrom {i : Nat} {hs ts : List (Option Word)} {ps : List (Nat × Nat)}
    (hlen : hs.length = ts.length) (h : readPairsFrom i hs ts = .ok ps) :
    ∃ us vs : List Word, hs = us.map some ∧ ts = vs.map some := by
  induction hs generalizing i ts ps with
  | nil => exact ⟨[], [], rfl, List.eq_nil_of_length_eq_zero hlen.symm⟩
  | cons x hs ih =>
    obtain ⟨y, ts, rfl⟩ := List.exists_cons_of_length_eq_add_one hlen.symm
    cases x with
    | none => cases h
    | some u =>
      cases y with
      | none => cases h
      | some v =>
        rw [readPairsFrom] at h
        split at h
        next hrest =>
          obtain ⟨us, vs, rfl, rfl⟩ := ih (Nat.succ.inj hlen) hrest
          exact ⟨u :: us, v :: vs, rfl, rfl⟩
        next => cases h

theorem readPairs_ok_iff {h1 tgt : Table 32} {ps : List (Nat × Nat)} :
    readPairsFrom 0 h1.toList tgt.toList = .ok ps ↔
      (entriesWritten h1 ∧ entriesWritten tgt) ∧ ps = (tableValues h1).zip (tableValues tgt) := by
  have hvalues : ∀ {us vs}, readTable .h1 h1 = .ok us → readTable .tgt tgt = .ok vs →
      readPairsFrom 0 h1.toList tgt.toList = .ok ((tableValues h1).zip (tableValues tgt)) := fun hus hvs => by
    rw [readTable_ok.1 hus, readTable_ok.1 hvs, readPairsFrom_map_some, map_toNat_readTable hus, map_toNat_readTable hvs]
  constructor
  · intro h
    obtain ⟨us, vs, hus, hvs⟩ := exists_values_of_readPairsFrom (by rw [Table.length_toList, Table.length_toList]) h
    have hh1 := readTable_ok (id := .h1).2 hus
    have htgt := readTable_ok (id := .tgt).2 hvs
    exact ⟨⟨entriesWritten_of_readTable hh1, entriesWritten_of_readTable htgt⟩,
      Except.ok.inj (h.symm.trans (hvalues hh1 htgt))⟩
  · rintro ⟨⟨hh1, htgt⟩, rfl⟩
    obtain ⟨us, hus⟩ := readTable_of_written .h1 hh1
    obtain ⟨vs, hvs⟩ := readTable_of_written .tgt htgt
    exact hvalues hus hvs

end Sys2Proof.Machine
end

section
/-! The loops of `CDFLUT` (43_cdf_matcher R160) on numbers: the running sums, the shared pointer and the choice between the
crossing and the level below it, as functions of the level. -/

namespace Sys2Proof.Machine

theorem runningSums_range' (f : Nat → Nat) (i n : Nat) :
    runningSums ((List.range' i n).map f) (∑ k ∈ Finset.range i, f k) = (List.range' i n).map (cumulative f) := by
  induction n generalizing i with
  | zero => rfl
  | succ n ih =>
    rw [List.range'_succ, List.map_cons, List.map_cons, runningSums, ← Finset.sum_range_succ, ih]
    rfl

theorem runningSums_range (f : Nat → Nat) (n : Nat) :
    runningSums ((List.range n).map f) 0 = (List.range n).map (cumulative f) := by
  rw [List.range_eq_range']
  exact runningSums_range' f 0 n

/-- The list `cTs` of R160. -/
def cumulativeList (t : Nat → Nat) : List Nat := (List.range 256).map (cumulative t)

theorem getD_cumulativeList (t : Nat → Nat) {r : Nat} (hr : r < 256) : (cumulativeList t).getD r 0 = cumulative t r := by
  rw [cumulativeList, List.getD_eq_getElem?_getD, List.getElem?_map, List.getElem?_range hr]
  rfl

/-- The `while` of R160 at level `i`, from a pointer that has not passed the crossing, ends there. -/
theorem advancePointer_eq_crossing {h t : Nat → Nat} {i f j : Nat} (hf : 255 ≤ f + j) (hj : j ≤ crossing h t i) :
    advancePointer (cumulativeList t) (cumulative h i) f j = crossing h t i := by
  have hle := crossing_le h t i
  induction f generalizing j with
  | zero =>
    rw [advancePointer]
    omega
  | succ f ih =>
    rw [advancePointer, getD_cumulativeList t (by omega)]
    split
    next hshort => exact ih (by omega) (lt_crossing_iff.2 hshort)
    next hreached => exact hj.antisymm (Nat.not_lt.1 (mt lt_crossing_iff.1 hreached))

theorem chooseLevel_crossing (h t : Nat → Nat) (i : Nat) :
    chooseLevel (cumulativeList t) (cumulative h i) (crossing h t i) = nearestLevel h t i := by
  have hle := crossing_le h t i
  rw [chooseLevel, getD_cumulativeList t (by omega), getD_cumulativeList t (by omega)]
  rfl

/-- The second loop of R160 from level `i` on. Its pointer starts where the one of R140 does. -/
theorem matchLevels_range' (h t : Nat → Nat) (i n : Nat) :
    matchLevels (cumulativeList t) ((List.range' i n).map (cumulative h)) (startBin h t i) =
      (List.range' i n).map (nearestLevel h t) := by
  induction n generalizing i with
  | zero => rfl
  | succ n ih =>
    rw [List.range'_succ, List.map_cons, List.map_cons, matchLevels,
      advancePointer_eq_crossing (Nat.le_add_right 255 _) (startBin_le_crossing h t i), chooseLevel_crossing, ← ih (i + 1),
      startBin_succ]

theorem cdfMatch_tableValues (h t : Table 32) :
    cdfMatch (tableValues h) (tableValues t) = (List.range 256).map (nearestLevel (entryAt h) (entryAt t)) := by
  have hloop := matchLevels_range' (entryAt h) (entryAt t) 0 256
  rw [cumulativeList, startBin_zero, ← List.range_eq_range'] at hloop
  rw [cdfMatch, tableValues, tableValues, runningSums_range, runningSums_range, hloop]

end Sys2Proof.Machine
end

section
/-! `CDFLUT` (43_cdf_matcher R160) as a command. -/

namespace Sys2Proof.Machine

/-- The state with the lookup table that R160 builds. -/
def withNearestLevels (s : State) : State :=
  { s with lut := Table.ofFun fun i => BitVec.ofNat 8 (nearestLevel (entryAt s.h1) (entryAt s.tgt) i) }

theorem cdflutBody_ok_iff {s t : State} (g : Geom) :
    cdflutBody g s = .ok t ↔ (entriesWritten s.h1 ∧ entriesWritten s.tgt) ∧ t = withNearestLevels s := by
  have hlen : (tableValues s.h1).length = (tableValues s.tgt).length := by rw [length_tableValues, length_tableValues]
  simp only [cdflutBody_ok, readPairs_ok_iff, and_assoc, exists_and_left, exists_eq_left, List.map_fst_zip hlen.le,
    List.map_snd_zip hlen.ge, cdfMatch_tableValues, Table.ofList_map_range]
  rfl

theorem cdflutBody_unwritten {s : State} (g : Geom) (h : ¬(entriesWritten s.h1 ∧ entriesWritten s.tgt)) :
    ∃ k < 256, (Table.get s.h1 k = none ∧ cdflutBody g s = .error (.unwrittenRead (.table .h1 k))) ∨
      (Table.get s.tgt k = none ∧ cdflutBody g s = .error (.unwrittenRead (.table .tgt k))) := by
  cases hr : readPairsFrom 0 s.h1.toList s.tgt.toList with
  | ok ps => exact absurd (readPairs_ok_iff.1 hr).1 h
  | error e =>
    obtain ⟨k, hk, ⟨hnone, rfl⟩ | ⟨hnone, rfl⟩⟩ := readPairs_error hr
    · exact ⟨k, hk, .inl ⟨hnone, by rw [cdflutBody, hr]⟩⟩
    · exact ⟨k, hk, .inr ⟨hnone, by rw [cdflutBody, hr]⟩⟩

theorem exec_cdflut_written {s : State} (hacc : accepts .cdflut s) (hw : ready .cdflut s) :
    exec .cdflut s = .next { withNearestLevels s with status := doneStatus s } :=
  exec_of_body_ok hacc.1 hacc.2 ((cdflutBody_ok_iff (latchGeom s)).2 ⟨hw, rfl⟩)

/-- Settles O46. -/
theorem cdflutPicksTheNearestLevel : Obligations.CdflutPicksTheNearestLevel := by
  unfold Obligations.CdflutPicksTheNearestLevel
  intro s hacc
  refine ⟨exec_cdflut_written hacc, fun hw => ?_⟩
  obtain ⟨hj, hc⟩ := hacc
  obtain ⟨k, hk, ⟨hnone, hf⟩ | ⟨hnone, hf⟩⟩ := cdflutBody_unwritten (latchGeom s) hw
  · exact ⟨k, hk, .inl ⟨hnone, exec_of_body_error hj hc hf⟩⟩
  · exact ⟨k, hk, .inr ⟨hnone, exec_of_body_error hj hc hf⟩⟩

end Sys2Proof.Machine
end

section
/-! The lookup table (43_cdf_matcher R162): it never falls, and levels with equal cumulative source share an entry. -/

namespace Sys2Proof.Machine

theorem nearestLevel_le_crossing (h t : Nat → Nat) (i : Nat) : nearestLevel h t i ≤ crossing h t i := by
  simp only [nearestLevel]
  split_ifs <;> omega

theorem crossing_pred_le_nearestLevel (h t : Nat → Nat) (i : Nat) : crossing h t i - 1 ≤ nearestLevel h t i := by
  simp only [nearestLevel]
  split_ifs <;> omega

theorem nearestLevel_lt (h t : Nat → Nat) (i : Nat) : nearestLevel h t i < 256 :=
  Nat.lt_succ_of_le ((nearestLevel_le_crossing h t i).trans (crossing_le h t i))

/-- Of two levels that cross at one bin the higher is no nearer to the bin below, whose cumulative target falls short of both. -/
theorem nearestLevel_le_of_crossing_eq {h t : Nat → Nat} {i j : Nat} (hij : i ≤ j) (hc : crossing h t i = crossing h t j) :
    nearestLevel h t i ≤ nearestLevel h t j := by
  have hsource := cumulative_mono h hij
  have hbelow : crossing h t j ≠ 0 → cumulative t (crossing h t j - 1) < cumulative h i := fun hpos =>
    (lt_crossing_iff.1 (by rw [hc]; omega)).2
  simp only [nearestLevel, hc]
  split_ifs <;> omega

theorem nearestLevel_mono (h t : Nat → Nat) : Monotone (nearestLevel h t) := by
  intro i j hij
  rcases (crossing_mono h t hij).eq_or_lt with hc | hlt
  · exact nearestLevel_le_of_crossing_eq hij hc
  · calc nearestLevel h t i ≤ crossing h t i := nearestLevel_le_crossing h t i
      _ ≤ crossing h t j - 1 := Nat.le_pred_of_lt hlt
      _ ≤ nearestLevel h t j := crossing_pred_le_nearestLevel h t j

/-- An empty level adds nothing to the cumulative source, so it has the entry of the level below it. -/
theorem nearestLevel_succ_of_empty {h : Nat → Nat} (t : Nat → Nat) {i : Nat} (hempty : h (i + 1) = 0) :
    nearestLevel h t (i + 1) = nearestLevel h t i := by
  have hsource : cumulative h (i + 1) = cumulative h i := by
    rw [cumulative_eq_add, hempty]
    rfl
  have hcross : crossing h t (i + 1) = crossing h t i := by
    rw [crossing, hsource]
    rfl
  simp only [nearestLevel, hcross, hsource]

theorem entryAt_withNearestLevels_lut (s : State) {i : Nat} (hi : i < 256) :
    entryAt (withNearestLevels s).lut i = nearestLevel (entryAt s.h1) (entryAt s.tgt) i :=
  entryAt_ofFun hi (nearestLevel_lt _ _ i)

theorem exec_cdflut_lut {s t : State} (hacc : accepts .cdflut s) (h : exec .cdflut s = .next t) :
    t.lut = (withNearestLevels s).lut := by
  obtain ⟨hj, hc⟩ := hacc
  rw [exec_idle hj hc] at h
  obtain ⟨u, hu, rfl⟩ := conclude_next.1 h
  obtain ⟨-, rfl⟩ := (cdflutBody_ok_iff (latchGeom s)).1 hu
  rfl

/-- An image of one pixel of level 0, to be matched to a target of one pixel of level 7. -/
def onePixelMatch : State :=
  { State.reset with
    width := 1, height := 1
    h1 := Table.ofFun fun i => if i = 0 then 1 else 0
    tgt := Table.ofFun fun i => if i = 7 then 1 else 0 }

theorem onePixelMatch_accepted : accepts .cdflut onePixelMatch := ⟨rfl, by decide⟩

theorem onePixelMatch_ready : ready .cdflut onePixelMatch := ⟨entriesWritten_ofFun _, entriesWritten_ofFun _⟩

/-- Settles O47: level 1 of `onePixelMatch` is empty, so it shares the entry of level 0. -/
theorem lutIsNonDecreasing : Obligations.LutIsNonDecreasing := by
  unfold Obligations.LutIsNonDecreasing
  constructor
  · intro s t hacc h
    rw [exec_cdflut_lut hacc h]
    refine ⟨entriesWritten_ofFun _, fun i j hij hj => ?_⟩
    rw [entryAt_withNearestLevels_lut s (by omega), entryAt_withNearestLevels_lut s hj]
    exact nearestLevel_mono _ _ hij
  · have hempty : entryAt onePixelMatch.h1 (0 + 1) = 0 := entryAt_of_get (Table.get_ofFun _ (by decide))
    refine ⟨onePixelMatch, _, onePixelMatch_accepted, exec_cdflut_written onePixelMatch_accepted onePixelMatch_ready,
      0, by decide, 1, by decide, by decide, ?_⟩
    exact (entryAt_withNearestLevels_lut onePixelMatch (by decide)).trans <|
      (nearestLevel_succ_of_empty _ hempty).symm.trans (entryAt_withNearestLevels_lut onePixelMatch (by decide)).symm

end Sys2Proof.Machine
end

section
/-! `LUTAPPLY` (43_cdf_matcher R163): after `k` pixels the bytes below `k` hold the entries of their levels. -/

namespace Sys2Proof.Machine

/-- After `k` pixels of `LUTAPPLY`: what they read is written, and `DST` holds what they stored. -/
structure AppliedBelow (s : State) (k : Nat) (d : Memory) : Prop where
  src : bytesWritten s.src k
  lut : levelsWritten s.src k s.lut
  dst : ∀ j, Memory.read d j =
    if j < k then some (BitVec.ofNat 8 (entryAt s.lut (levelAt s.src j))) else Memory.read s.dst j

theorem appliedBelow_zero (s : State) : AppliedBelow s 0 s.dst where
  src j hj := absurd hj j.not_lt_zero
  lut j hj := absurd hj j.not_lt_zero
  dst j := (if_neg j.not_lt_zero).symm

theorem AppliedBelow.pixel_ok {s : State} {k : Nat} {d d' : Memory} (hd : AppliedBelow s k d)
    (h : applyPixel s.src s.lut d k = .ok d') : AppliedBelow s (k + 1) d' := by
  obtain ⟨v, q, hv, hq, rfl⟩ := applyPixel_ok.1 h
  refine ⟨fun j hj => ?_, fun j hj => ?_, fun j => ?_⟩
  · rcases Nat.lt_succ_iff_lt_or_eq.1 hj with hj | rfl
    · exact hd.src j hj
    · exact Option.isSome_iff_exists.2 ⟨v, hv⟩
  · rcases Nat.lt_succ_iff_lt_or_eq.1 hj with hj | rfl
    · exact hd.lut j hj
    · rintro u hu
      obtain rfl := Option.some.inj (hv.symm.trans hu)
      exact Option.isSome_iff_exists.2 ⟨q, hq⟩
  · rw [Memory.read_write]
    by_cases hj : j = k
    · subst hj
      rw [if_pos rfl, if_pos j.lt_succ_self, levelAt_of_read hv, entryAt_of_get hq, BitVec.ofNat_toNat, BitVec.setWidth_eq]
    · rw [if_neg hj, hd.dst j]
      exact if_congr (by omega) rfl rfl

theorem appliedBelow_of_ok {s : State} {n : Nat} {d : Memory}
    (h : forRange (applyPixel s.src s.lut) (List.range n) s.dst = .ok d) : AppliedBelow s n d :=
  forRange_invariant (AppliedBelow s) (appliedBelow_zero s) (fun _ _ _ _ hd hok => hd.pixel_ok hok) h

theorem applyPixel_succeeds {s : State} {n k : Nat} (hsrc : bytesWritten s.src n) (hlut : levelsWritten s.src n s.lut)
    (hk : k < n) (d : Memory) : ∃ d', applyPixel s.src s.lut d k = .ok d' := by
  obtain ⟨v, hv⟩ := Option.isSome_iff_exists.1 (hsrc k hk)
  obtain ⟨q, hq⟩ := Option.isSome_iff_exists.1 (hlut k hk v hv)
  exact ⟨_, applyPixel_ok.2 ⟨v, q, hv, hq, rfl⟩⟩

/-- A fault of a pixel of `LUTAPPLY`: the byte, or the entry at its level, is unwritten. -/
theorem applyPixel_error {src : Memory} {lut : Table 8} {d : Memory} {k : Nat} {e : Fault}
    (h : applyPixel src lut d k = .error e) :
    (Memory.read src k = none ∧ e = .unwrittenRead (.plane .src k)) ∨
    ∃ v, Memory.read src k = some v ∧ Table.get lut v.toNat = none ∧ e = .unwrittenRead (.table .lut v.toNat) := by
  rw [applyPixel] at h
  split at h
  next f hv =>
    cases h
    exact .inl (readByte_error.1 hv)
  next v hv =>
    split at h
    next f hq =>
      cases h
      exact .inr ⟨v, readByte_ok.1 hv, readEntry_error.1 hq⟩
    next => cases h

theorem lutapplyBody_written {g : Geom} {s : State} (hsrc : bytesWritten s.src g.n) (hlut : levelsWritten s.src g.n s.lut) :
    ∃ d, lutapplyBody g s = .ok { s with dst := d } ∧ AppliedBelow s g.n d := by
  obtain ⟨d, hd, hbelow⟩ := forRange_succeeds (AppliedBelow s) (appliedBelow_zero s) fun k hk a ha => by
    obtain ⟨b, hb⟩ := applyPixel_succeeds hsrc hlut hk a
    exact ⟨b, hb, ha.pixel_ok hb⟩
  exact ⟨d, lutapplyBody_ok.2 ⟨d, hd, rfl⟩, hbelow⟩

theorem lutapplyBody_unwritten {g : Geom} {s : State} (h : ¬(bytesWritten s.src g.n ∧ levelsWritten s.src g.n s.lut)) :
    ∃ k < g.n, (Memory.read s.src k = none ∧ lutapplyBody g s = .error (.unwrittenRead (.plane .src k))) ∨
      ∃ v, Memory.read s.src k = some v ∧ Table.get s.lut v.toNat = none ∧
        lutapplyBody g s = .error (.unwrittenRead (.table .lut v.toNat)) := by
  cases hr : forRange (applyPixel s.src s.lut) (List.range g.n) s.dst with
  | ok d => exact absurd ⟨(appliedBelow_of_ok hr).src, (appliedBelow_of_ok hr).lut⟩ h
  | error e =>
    obtain ⟨k, hk, d, -, he⟩ := forRange_error hr
    rcases applyPixel_error he with ⟨hnone, rfl⟩ | ⟨v, hv, hnone, rfl⟩
    · exact ⟨k, hk, .inl ⟨hnone, by rw [lutapplyBody, hr]⟩⟩
    · exact ⟨k, hk, .inr ⟨v, hv, hnone, by rw [lutapplyBody, hr]⟩⟩

/-- Settles O48. -/
theorem lutapplyMapsEachByte : Obligations.LutapplyMapsEachByte := by
  unfold Obligations.LutapplyMapsEachByte
  refine ⟨by decide, fun s hj => ?_⟩
  have hchecks : checksOk s.params .lutapply (latchGeom s) = geomOk s.params (latchGeom s) := checksOk_geom rfl rfl
  refine ⟨fun hg => exec_idle_rejected hj (hchecks.trans hg), fun hg hw => ?_, fun hg hw => ?_⟩
  · obtain ⟨hsrc, hlut⟩ := hw
    obtain ⟨d, hd, hbelow⟩ := lutapplyBody_written (g := latchGeom s) hsrc hlut
    exact ⟨d, exec_of_body_ok hj (hchecks.trans hg) hd, hbelow.dst⟩
  · obtain ⟨k, hk, ⟨hnone, hf⟩ | ⟨v, hv, hnone, hf⟩⟩ := lutapplyBody_unwritten (g := latchGeom s) hw
    · exact ⟨k, hk, .inl ⟨hnone, exec_of_body_error hj (hchecks.trans hg) hf⟩⟩
    · exact ⟨k, hk, .inr ⟨v, hv, hnone, exec_of_body_error hj (hchecks.trans hg) hf⟩⟩

end Sys2Proof.Machine
end

section
/-! The quantizer (44_error_diffusion R191). -/

namespace Sys2Proof.Machine

theorem quantize_of_ge {a : Int} (h : 128 ≤ a) : quantize a = 255 := if_pos h

theorem quantize_of_lt {a : Int} (h : a < 128) : quantize a = 0 := if_neg (by omega)

/-- Settles O54. -/
theorem quantizerThresholdIs128 : Obligations.QuantizerThresholdIs128 := by
  unfold Obligations.QuantizerThresholdIs128
  exact fun _ => ⟨quantize_of_ge, quantize_of_lt⟩

end Sys2Proof.Machine
end

section
/-! The old rolling buffer (44_error_diffusion R189, R196 (1)): the body of `DIFFUSE` starts from the initial load. -/

namespace Sys2Proof.Machine

/-- A body whose result does not depend on the rolling buffer it finds. -/
def IgnoresBuffer (b : Geom → State → Except Fault State) : Prop :=
  ∀ (g : Geom) (s : State) (rb' : List (List Int)), b g { s with rb := rb' } = b g s

theorem diffuseBody_ignoresBuffer (m : Method) (c : Scan) : IgnoresBuffer (diffuseBody m c) := fun _ _ _ => rfl

/-- The `GAMMA` step hands the buffer on to the `DIFFUSE` step, which ignores it. -/
theorem ditherBody_ignoresBuffer (m : Method) (c : Scan) : IgnoresBuffer (ditherBody m c) := by
  intro g s rb'
  rw [ditherBody_eq, ditherBody_eq]
  exact diffuseBody_ignoresBuffer m c g { s with glut := gammaTable s.params (effGamma (gammaPair s)) } rb'

theorem exec_ignoresBuffer {i : Instr} {s : State} (hacc : accepts i s) (hb : IgnoresBuffer (bodyOf i))
    (rb' : List (List Int)) : exec i { s with rb := rb' } = exec i s := by
  obtain ⟨hj, hc⟩ := hacc
  rw [exec_idle hj hc, exec_idle (s := { s with rb := rb' }) hj hc]
  exact congrArg conclude (hb _ s rb')

/-- Settles O22. -/
theorem diffusionIgnoresTheOldBuffer : Obligations.DiffusionIgnoresTheOldBuffer := by
  unfold Obligations.DiffusionIgnoresTheOldBuffer
  intro m c s rb' hacc
  -- `DITHER` needs the check of `DIFFUSE` and no other
  have hdither : accepts (.dither m c) s := hacc
  exact ⟨exec_ignoresBuffer hacc (diffuseBody_ignoresBuffer m c) rb',
    exec_ignoresBuffer hdither (ditherBody_ignoresBuffer m c) rb'⟩

end Sys2Proof.Machine
end

section
/-! The effective gamma (44_error_diffusion R182): which branch each class of binary64 patterns takes, and that trimming keeps the
value of a finite exponent. -/

namespace Sys2Proof.Machine

/-- Bits 62:52 of a binary64 pattern. -/
def biasedExponent (g : DWord) : Nat := (g.extractLsb' 52 11).toNat

/-- Bits 51:0 of a binary64 pattern. -/
def fractionField (g : DWord) : Nat := (g.extractLsb' 0 52).toNat

theorem effGamma_eq (g : DWord) :
    effGamma g =
      if biasedExponent g = 2047 then (if fractionField g = 0 ∧ g.getLsbD 63 = false then .infinite else .dyadic 1 0)
      else if g.getLsbD 63 = true ∨ (biasedExponent g = 0 ∧ fractionField g = 0) then .dyadic 1 0
      else if biasedExponent g = 0 then trimExponent 1100 (fractionField g) (-1074)
      else trimExponent 1100 (2 ^ 52 + fractionField g) (biasedExponent g - 1075) := rfl

theorem effGamma_nan {g : DWord} (hex : biasedExponent g = 2047) (hfr : fractionField g ≠ 0) : effGamma g = .dyadic 1 0 := by
  rw [effGamma_eq, if_pos hex, if_neg fun ⟨hzero, _⟩ => hfr hzero]

theorem effGamma_nonpositive {g : DWord}
    (h : g.getLsbD 63 = true ∨ biasedExponent g = 0 ∧ fractionField g = 0) : effGamma g = .dyadic 1 0 := by
  rw [effGamma_eq]
  split_ifs with hmax hinf
  · -- `+inf` has its sign bit clear and its exponent bits set
    rcases h with hneg | ⟨hzero, -⟩
    · obtain ⟨-, hpositive⟩ := hinf
      rw [hneg] at hpositive
      cases hpositive
    · omega
  · rfl
  · rfl

theorem effGamma_normal {g : DWord} (hneg : g.getLsbD 63 = false) (hpos : 0 < biasedExponent g)
    (hlt : biasedExponent g < 2047) :
    effGamma g = trimExponent 1100 (2 ^ 52 + fractionField g) (biasedExponent g - 1075) := by
  rw [effGamma_eq, if_neg hlt.ne, if_neg (by rw [hneg]; simp [hpos.ne']), if_neg hpos.ne']

theorem effGamma_subnormal {g : DWord} (hneg : g.getLsbD 63 = false) (hex : biasedExponent g = 0)
    (hfr : fractionField g ≠ 0) : effGamma g = trimExponent 1100 (fractionField g) (-1074) := by
  rw [effGamma_eq, if_neg (by omega), if_neg (by rw [hneg]; simp [hfr]), if_pos hex]

/-- What an effective gamma can be. -/
theorem effGamma_cases (g : DWord) :
    effGamma g = .infinite ∨ effGamma g = .dyadic 1 0 ∨
      ∃ m e, 0 < m ∧ -1100 ≤ e ∧ effGamma g = trimExponent 1100 m e := by
  rw [effGamma_eq]
  split_ifs with hmax hinf hone hsub
  · exact .inl rfl
  · exact .inr (.inl rfl)
  · exact .inr (.inl rfl)
  · exact .inr (.inr ⟨_, _, Nat.pos_of_ne_zero fun hfr => hone (.inr ⟨hsub, hfr⟩), by omega, rfl⟩)
  · exact .inr (.inr ⟨_, _, by positivity, by omega, rfl⟩)

/-- Trimming keeps the value `m * 2^e`. -/
theorem trimExponent_value (f m : Nat) (e : Int) :
    ∃ m' e', trimExponent f m e = .dyadic m' e' ∧ (m' : ℚ) * 2 ^ e' = m * 2 ^ e := by
  induction f generalizing m e with
  | zero => exact ⟨m, e, rfl, rfl⟩
  | succ f ih =>
    rw [trimExponent]
    split_ifs with h
    · obtain ⟨m', e', htrim, hvalue⟩ := ih (m / 2) (e + 1)
      refine ⟨m', e', htrim, hvalue.trans ?_⟩
      have hm : (m : ℚ) = (m / 2 : Nat) * 2 := by exact_mod_cast (Nat.div_mul_cancel (Nat.dvd_of_mod_eq_zero h.2)).symm
      rw [zpow_add_one₀ two_ne_zero, hm]
      ring
    · exact ⟨m, e, rfl, rfl⟩

theorem effGamma_lowest {g : DWord} {m : Nat} {e : Int} (h : effGamma g = .dyadic m e) : 0 < m ∧ (e < 0 → m % 2 = 1) := by
  rcases effGamma_cases g with hg | hg | ⟨m', e', hm, he, hg⟩ <;> rw [hg] at h
  · cases h
  · cases h
    exact ⟨one_pos, fun _ => rfl⟩
  · obtain ⟨m'', e'', htrim, hlowest⟩ := trimExponent_lowest 1100 hm he
    rw [htrim] at h
    cases h
    exact hlowest

/-- Settles O51, class by class of the patterns. -/
theorem effectiveGammaIsSanitized : Obligations.EffectiveGammaIsSanitized := by
  unfold Obligations.EffectiveGammaIsSanitized
  intro g
  refine ⟨fun ⟨hex, hfr⟩ => effGamma_nan hex hfr, effGamma_nonpositive, ?_, fun hneg hpos hlt => ?_, fun hneg hex hfr => ?_,
    fun _ _ => effGamma_lowest⟩
  · rintro rfl
    decide
  · obtain ⟨m, e, htrim, hvalue⟩ := trimExponent_value 1100 (2 ^ 52 + fractionField g) (biasedExponent g - 1075)
    refine ⟨m, e, (effGamma_normal hneg hpos hlt).trans htrim, hvalue.trans ?_⟩
    change _ = (1 + (fractionField g : ℚ) / 2 ^ 52) * 2 ^ ((biasedExponent g : Int) - 1023)
    rw [show (biasedExponent g : Int) - 1023 = (biasedExponent g - 1075) + (52 : Nat) by omega, zpow_add₀ two_ne_zero, zpow_natCast]
    push_cast
    ring
  · obtain ⟨m, e, htrim, hvalue⟩ := trimExponent_value 1100 (fractionField g) (-1074)
    refine ⟨m, e, (effGamma_subnormal hneg hex hfr).trans htrim, hvalue.trans ?_⟩
    change _ = (fractionField g : ℚ) / 2 ^ 52 * 2 ^ (-1022 : Int)
    rw [show (-1022 : Int) = -1074 + (52 : Nat) by norm_num, zpow_add₀ two_ne_zero, zpow_natCast]
    ring

end Sys2Proof.Machine
end

section
/-! The `gammaFn` that an implementation may take (00_scope R8, 44_error_diffusion R181, log 4): what a legal row gives, and that every function
with the laws is given by one. -/

namespace Sys2Proof.Machine

/-- The laws L1, L2, L4 and L6 of R181 for the values of a function at the levels. -/
def ObeysGammaLaws (f : Nat → Nat) : Prop :=
  f 0 = 0 ∧ f 255 = 255 ∧ (∀ v ≤ 255, f v ≤ 255) ∧ ∀ u v, u ≤ v → v ≤ 255 → f u ≤ f v

theorem Params.wf_iff {p : Params} : p.wf = true ↔ p.sizesOk = true ∧ p.tapsOk = true ∧ p.gammaOk = true := by
  simp [Params.wf, and_assoc]

theorem Params.gammaOk_iff {p : Params} :
    p.gammaOk = true ↔ (∀ r ∈ p.gammaRows, r.ok = true) ∧ (p.gammaRows.map fun r => (r.num, r.shift)).Nodup := by
  simp [Params.gammaOk]

theorem GammaRow.obeysGammaLaws {r : GammaRow} (h : r.ok = true) : ObeysGammaLaws fun v => r.levels.getD v 0 := by
  obtain ⟨⟨-, -, hlen⟩, ⟨hzero, htop⟩, hle, hmono⟩ := GammaRow.ok_iff.1 h
  have hget : ∀ v ≤ 255, ∃ hv : v < r.levels.length, r.levels.getD v 0 = r.levels[v] := fun v hv =>
    ⟨by omega, List.getD_eq_getElem _ _ (by omega)⟩
  refine ⟨hzero, htop, fun v hv => ?_, fun u v huv hv => ?_⟩
  · obtain ⟨hlt, he⟩ := hget v hv
    exact he.trans_le (hle _ (List.getElem_mem hlt))
  · obtain ⟨hu', hu⟩ := hget u (huv.trans hv)
    obtain ⟨hv', hv⟩ := hget v hv
    simp only [hu, hv]
    rcases huv.eq_or_lt with rfl | hlt
    · exact le_rfl
    · exact List.pairwise_iff_getElem.1 hmono u v hu' hv' hlt

theorem rowExponent_eq_iff {r : GammaRow} {num shift : Nat} :
    rowExponent r = .dyadic num (-(shift : Int)) ↔ r.num = num ∧ r.shift = shift := by
  simp [rowExponent]

/-- Legal rows give R181's function, or at a non-integer exponent a function with the laws. -/
theorem gammaOf_of_wf {p : Params} (h : p.wf = true) (g : Exponent) :
    gammaOf p g = gammaFn g ∨
      ∃ num shift : Nat, num % 2 = 1 ∧ 0 < shift ∧ g = .dyadic num (-(shift : Int)) ∧ ObeysGammaLaws (gammaOf p g) := by
  obtain ⟨-, -, hgamma⟩ := Params.wf_iff.1 h
  obtain ⟨hrows, -⟩ := Params.gammaOk_iff.1 hgamma
  rcases gammaOf_cases p g with ⟨-, hg⟩ | ⟨r, hr, rfl, hg⟩
  · exact .inl hg
  · obtain ⟨⟨hodd, hshift, -⟩, -⟩ := GammaRow.ok_iff.1 (hrows r hr)
    exact .inr ⟨r.num, r.shift, hodd, hshift, rfl, hg ▸ GammaRow.obeysGammaLaws (hrows r hr)⟩

/-- The row that gives a function at the exponent `num / 2^shift`. -/
def rowOf (num shift : Nat) (f : Nat → Nat) : GammaRow := { num := num, shift := shift, levels := (List.range 256).map f }

theorem rowOf_levels (num shift : Nat) (f : Nat → Nat) {v : Nat} (hv : v ≤ 255) : (rowOf num shift f).levels.getD v 0 = f v := by
  rw [rowOf, List.getD_eq_getElem?_getD, List.getElem?_map, List.getElem?_range (by omega)]
  rfl

theorem rowOf_ok {num shift : Nat} {f : Nat → Nat} (hodd : num % 2 = 1) (hshift : 0 < shift) (hf : ObeysGammaLaws f) :
    (rowOf num shift f).ok = true := by
  obtain ⟨hzero, htop, hle, hmono⟩ := hf
  refine GammaRow.ok_iff.2 ⟨⟨hodd, hshift, by simp [rowOf]⟩, ⟨?_, ?_⟩, ?_, ?_⟩
  · rw [rowOf_levels _ _ _ (by omega), hzero]
  · rw [rowOf_levels _ _ _ le_rfl, htop]
  · intro x hx
    obtain ⟨v, hv, rfl⟩ := List.mem_map.1 hx
    exact hle v (Nat.le_of_lt_succ (List.mem_range.1 hv))
  · refine List.pairwise_map.2 (List.pairwise_lt_range.imp_of_mem fun {u v} _ hv huv => ?_)
    exact hmono u v huv.le (Nat.le_of_lt_succ (List.mem_range.1 hv))

/-- The rows at other exponents than `num / 2^shift`. -/
def rowsElsewhere (p : Params) (num shift : Nat) : List GammaRow :=
  p.gammaRows.filter fun r => decide (rowExponent r ≠ .dyadic num (-(shift : Int)))

/-- The parameters with the function `f` at the exponent `num / 2^shift`. -/
def withGammaRow (p : Params) (num shift : Nat) (f : Nat → Nat) : Params :=
  { p with gammaRows := rowOf num shift f :: rowsElsewhere p num shift }

theorem withGammaRow_wf {p : Params} {num shift : Nat} {f : Nat → Nat} (h : p.wf = true) (hrow : (rowOf num shift f).ok = true) :
    (withGammaRow p num shift f).wf = true := by
  obtain ⟨hsizes, htaps, hgamma⟩ := Params.wf_iff.1 h
  obtain ⟨hrows, hdistinct⟩ := Params.gammaOk_iff.1 hgamma
  refine Params.wf_iff.2 ⟨hsizes, htaps, Params.gammaOk_iff.2 ⟨List.forall_mem_cons.2 ⟨hrow, ?_⟩, List.nodup_cons.2 ⟨?_, ?_⟩⟩⟩
  · exact fun r hr => hrows r (List.mem_of_mem_filter hr)
  · intro hmem
    obtain ⟨r, hr, hkey⟩ := List.mem_map.1 hmem
    obtain ⟨hnum, hshift⟩ := Prod.mk.inj hkey
    exact of_decide_eq_true (List.mem_filter.1 hr).2 (rowExponent_eq_iff.2 ⟨hnum, hshift⟩)
  · exact hdistinct.sublist (List.filter_sublist.map _)

theorem gammaOf_withGammaRow_same (p : Params) (num shift : Nat) (f : Nat → Nat) {v : Nat} (hv : v ≤ 255) :
    gammaOf (withGammaRow p num shift f) (.dyadic num (-(shift : Int))) v = f v := by
  rw [gammaOf, withGammaRow, List.find?_cons_of_pos (by simp [rowExponent, rowOf])]
  exact rowOf_levels num shift f hv

theorem gammaOf_withGammaRow_other (p : Params) (num shift : Nat) (f : Nat → Nat) {g : Exponent}
    (hg : g ≠ .dyadic num (-(shift : Int))) : gammaOf (withGammaRow p num shift f) g = gammaOf p g := by
  have hhead : rowExponent (rowOf num shift f) ≠ g := fun h => hg h.symm
  have hfind : (withGammaRow p num shift f).gammaRows.find? (fun r => decide (rowExponent r = g)) =
      p.gammaRows.find? fun r => decide (rowExponent r = g) := by
    rw [withGammaRow, List.find?_cons_of_neg (by simpa using hhead), rowsElsewhere, List.find?_filter]
    congr 1
    funext r
    by_cases hr : rowExponent r = g
    · simp [hr, hg]
    · simp [hr]
  funext v
  rw [gammaOf, gammaOf, hfind]

theorem gammaOf_of_no_rows {p : Params} (h : p.gammaRows = []) : gammaOf p = gammaFn := by
  funext g v
  rw [gammaOf, h]
  rfl

theorem exec_gamma {s : State} (hj : s.job = none) :
    exec .gamma s = .next { s with
      glut := gammaTable s.params (effGamma (gammaPair s))
      status := doneStatus s } :=
  (exec_of_body_ok (i := .gamma) hj (checksOk_of_free rfl rfl) ((gammaBody_ok (g := latchGeom s)).2 rfl) :)

/-- Settles O52. -/
theorem gammaWritesItsTable : Obligations.GammaWritesItsTable := by
  unfold Obligations.GammaWritesItsTable
  refine ⟨by decide, fun s hj => exec_gamma hj, fun p g h => gammaOf_of_wf h g, ?_,
    fun p => gammaOf_of_no_rows⟩
  intro p num shift f h hodd hshift hzero htop hmono
  have hlaws : ObeysGammaLaws f := ⟨hzero, htop, fun v hv => htop ▸ hmono v 255 hv le_rfl, hmono⟩
  exact ⟨(withGammaRow p num shift f).gammaRows, withGammaRow_wf h (rowOf_ok hodd hshift hlaws),
    fun v => gammaOf_withGammaRow_same p num shift f, fun g => gammaOf_withGammaRow_other p num shift f⟩

end Sys2Proof.Machine
end

section
/-! The gamma function (44_error_diffusion R181): the scaled bounds enclose the real power, the exact comparison counts the
half-integers below it, so either way the result is the real value rounded. -/

namespace Sys2Proof.Machine

/-- `(v/255)^(m * 2^e)` over the reals. -/
noncomputable def realGamma (m : Nat) (e : Int) (v : Nat) : ℝ := ((v : ℝ) / 255) ^ ((m : ℝ) * (2 : ℝ) ^ e)

/-- `255*x` rounded to the nearest integer. -/
noncomputable def roundedLevel (x : ℝ) : Nat := ⌊255 * x + 1 / 2⌋₊

theorem roundedLevel_mono : Monotone roundedLevel := fun _ _ h => Nat.floor_mono (by linarith)

theorem roundedLevel_zero : roundedLevel 0 = 0 := by
  norm_num [roundedLevel, Nat.floor_eq_zero]

theorem roundedLevel_one : roundedLevel 1 = 255 := by
  rw [roundedLevel, Nat.floor_eq_iff (by norm_num)]
  norm_num

theorem lt_roundedLevel_iff {r : Nat} {x : ℝ} : r < roundedLevel x ↔ (2 * r + 1) / 510 ≤ x := by
  rw [roundedLevel, ← Nat.succ_le_iff, Nat.le_floor_iff' r.succ_ne_zero, div_le_iff₀ (by norm_num)]
  push_cast
  constructor <;> intro h <;> linarith

theorem level_nonneg (v : Nat) : (0 : ℝ) ≤ (v : ℝ) / 255 := by positivity

theorem level_le_one {v : Nat} (hv : v ≤ 255) : (v : ℝ) / 255 ≤ 1 := by
  have : (v : ℝ) ≤ 255 := by exact_mod_cast hv
  linarith

theorem exponent_nonneg (m : Nat) (e : Int) : (0 : ℝ) ≤ (m : ℝ) * 2 ^ e := by positivity

theorem realGamma_nonneg (m : Nat) (e : Int) (v : Nat) : 0 ≤ realGamma m e v := Real.rpow_nonneg (level_nonneg v) _

theorem realGamma_le_one (m : Nat) (e : Int) {v : Nat} (hv : v ≤ 255) : realGamma m e v ≤ 1 :=
  Real.rpow_le_one (level_nonneg v) (level_le_one hv) (exponent_nonneg m e)

theorem realGamma_mono (m : Nat) (e : Int) {u v : Nat} (h : u ≤ v) : realGamma m e u ≤ realGamma m e v :=
  Real.rpow_le_rpow (level_nonneg u) (by gcongr) (exponent_nonneg m e)

theorem realGamma_zero {m : Nat} (hm : 0 < m) (e : Int) : realGamma m e 0 = 0 := by
  have hexp : (m : ℝ) * 2 ^ e ≠ 0 := by positivity
  rw [realGamma, Nat.cast_zero, zero_div, Real.zero_rpow hexp]

theorem realGamma_top (m : Nat) (e : Int) : realGamma m e 255 = 1 := by
  rw [realGamma, Nat.cast_ofNat, div_self (by norm_num), Real.one_rpow]

theorem realGamma_int (n v : Nat) : realGamma n 0 v = ((v : ℝ) / 255) ^ n := by
  rw [realGamma, zpow_zero, mul_one, Real.rpow_natCast]

/-- `2^e` with the two directions of `e` apart, as the operations of GammaFn take it. -/
theorem two_zpow_eq (e : Int) : (2 : ℝ) ^ e = 2 ^ e.toNat / 2 ^ (-e).toNat := by
  rcases le_total 0 e with h | h
  · obtain ⟨n, rfl⟩ := Int.eq_ofNat_of_zero_le h
    simp
  · obtain ⟨n, hn⟩ := Int.eq_ofNat_of_zero_le (neg_nonneg.2 h)
    obtain rfl : e = -(n : Int) := by omega
    simp

/-- The real power as the roots, squarings and the power that `boundGamma` follows. -/
theorem realGamma_eq (m : Nat) (e : Int) (v : Nat) :
    realGamma m e v = ((((v : ℝ) / 255) ^ (((2 : ℝ) ^ (-e).toNat)⁻¹)) ^ 2 ^ e.toNat) ^ m := by
  rw [realGamma, ← Real.rpow_natCast _ m, ← Real.rpow_natCast _ (2 ^ e.toNat), ← Real.rpow_mul (level_nonneg v),
    ← Real.rpow_mul (level_nonneg v), two_zpow_eq]
  congr 1
  push_cast
  ring

theorem boundGamma_down {s : Nat} (hs : 0 < s) (m : Nat) (e : Int) (v : Nat) :
    (boundGamma s false m e v : ℝ) ≤ s * realGamma m e v := by
  have hroot : 0 ≤ ((v : ℝ) / 255) ^ (((2 : ℝ) ^ (-e).toNat)⁻¹) := Real.rpow_nonneg (level_nonneg v) _
  have hroots := boundRoots_down hs (-e).toNat (boundBase_down s v) (level_nonneg v)
  have hpow := boundPow_down (m := m) (a := s) (z := 1) hs 64 (boundSquares_down hs e.toNat hroots) (by simp)
    (pow_nonneg hroot _) zero_le_one
  rwa [one_mul, ← realGamma_eq, ← withNumeral_eq (boundSquares _ _ _ _) fun x => boundPow s false 64 x m s] at hpow

theorem boundGamma_up {s : Nat} (hs : 0 < s) (m : Nat) (e : Int) {v : Nat} (hv : v ≤ 255) :
    (s : ℝ) * realGamma m e v ≤ boundGamma s true m e v := by
  have hroot : 0 ≤ ((v : ℝ) / 255) ^ (((2 : ℝ) ^ (-e).toNat)⁻¹) := Real.rpow_nonneg (level_nonneg v) _
  have hroot1 : ((v : ℝ) / 255) ^ (((2 : ℝ) ^ (-e).toNat)⁻¹) ≤ 1 :=
    Real.rpow_le_one (level_nonneg v) (level_le_one hv) (by positivity)
  have hroots := boundRoots_up hs (-e).toNat (boundBase_up s v) (level_nonneg v)
  have hpow := boundPow_up (m := m) (a := s) (z := 1) hs 64 (boundSquares_up hs e.toNat hroots hroot) (by simp)
    (pow_nonneg hroot _) (pow_le_one₀ hroot hroot1) zero_le_one
  rwa [one_mul, ← realGamma_eq, ← withNumeral_eq (boundSquares _ _ _ _) fun x => boundPow s true 64 x m s] at hpow

theorem roundScaled_eq {s : Nat} (hs : 0 < s) (x : Nat) : roundScaled s x = roundedLevel (x / s) := by
  have hS : (s : ℝ) ≠ 0 := by positivity
  rw [roundScaled, roundedLevel, ← Nat.floor_div_eq_div (K := ℝ)]
  congr 1
  push_cast
  field_simp
  ring

theorem roundScaled_boundGamma_down {s : Nat} (hs : 0 < s) (m : Nat) (e : Int) (v : Nat) :
    roundScaled s (boundGamma s false m e v) ≤ roundedLevel (realGamma m e v) := by
  rw [roundScaled_eq hs]
  exact roundedLevel_mono ((div_le_iff₀' (by positivity)).2 (boundGamma_down hs m e v))

theorem roundScaled_boundGamma_up {s : Nat} (hs : 0 < s) (m : Nat) (e : Int) {v : Nat} (hv : v ≤ 255) :
    roundedLevel (realGamma m e v) ≤ roundScaled s (boundGamma s true m e v) := by
  rw [roundScaled_eq hs]
  exact roundedLevel_mono ((le_div_iff₀' (by positivity)).2 (boundGamma_up hs m e hv))

/-- The comparison of `gammaExact` in integers is that of `r + 1/2` with the real value. -/
theorem gammaExact_test (m : Nat) (e : Int) (v r : Nat) :
    (2 * r + 1) ^ 2 ^ (-e).toNat * 255 ^ (m * 2 ^ e.toNat) ≤ v ^ (m * 2 ^ e.toNat) * 510 ^ 2 ^ (-e).toNat ↔
      ((2 * r + 1) / 510 : ℝ) ≤ realGamma m e v := by
  have hq : (2 ^ (-e).toNat : Nat) ≠ 0 := by positivity
  have hpow : realGamma m e v ^ 2 ^ (-e).toNat = ((v : ℝ) / 255) ^ (m * 2 ^ e.toNat) := by
    rw [realGamma, ← Real.rpow_natCast, ← Real.rpow_mul (level_nonneg v), ← Real.rpow_natCast, two_zpow_eq]
    congr 1
    push_cast
    field_simp
  rw [← pow_le_pow_iff_left₀ (by positivity) (realGamma_nonneg m e v) hq, hpow, div_pow, div_pow,
    div_le_div_iff₀ (by positivity) (by positivity)]
  exact_mod_cast Iff.rfl

theorem countP_range_lt (n k : Nat) : (List.range n).countP (fun r => decide (r < k)) = min n k := by
  induction n with
  | zero => simp
  | succ n ih =>
    rw [List.range_succ, List.countP_append, ih, List.countP_singleton]
    split_ifs with h
    · have := of_decide_eq_true h
      omega
    · have := of_decide_eq_false (eq_false_of_ne_true h)
      omega

theorem gammaExact_eq (m : Nat) (e : Int) {v : Nat} (hv : v ≤ 255) : gammaExact m e v = roundedLevel (realGamma m e v) := by
  have hle : roundedLevel (realGamma m e v) ≤ 255 := roundedLevel_one ▸ roundedLevel_mono (realGamma_le_one m e hv)
  simp only [gammaExact, gammaExact_test, ← lt_roundedLevel_iff]
  rw [countP_range_lt, min_eq_right hle]

/-- The value is enclosed by the rounded bounds, and where they differ the exact comparison decides. -/
theorem gammaBounded_eq {s : Nat} (hs : 0 < s) (m : Nat) (e : Int) {v : Nat} (hv : v ≤ 255) :
    gammaBounded s m e v = roundedLevel (realGamma m e v) := by
  rw [gammaBounded, withNumeral_eq]
  split_ifs with h
  · exact le_antisymm (roundScaled_boundGamma_down hs m e v) (h ▸ roundScaled_boundGamma_up hs m e hv)
  · exact gammaExact_eq m e hv

theorem gammaFn_dyadic (m : Nat) (e : Int) {v : Nat} (hv : v ≤ 255) :
    gammaFn (.dyadic m e) v = roundedLevel (realGamma m e v) := gammaBounded_eq (by unfold gammaScale; positivity) m e hv

/-- L3 of R181. -/
theorem gammaFn_one {v : Nat} (hv : v ≤ 255) : gammaFn (.dyadic 1 0) v = v := by
  rw [gammaFn_dyadic 1 0 hv, realGamma_int, pow_one, roundedLevel, mul_div_cancel₀ _ (by norm_num), Nat.floor_eq_iff (by positivity)]
  constructor <;> linarith

/-- L5 of R181: the real value is a quotient of integers. -/
theorem gammaFn_int {n v : Nat} (hn : 0 < n) (hv : v ≤ 255) :
    (gammaFn (.dyadic n 0) v : Int) = roundHalfAway ((v ^ n : Nat) : Int) (255 ^ (n - 1)) := by
  obtain ⟨k, rfl⟩ := Nat.exists_eq_add_of_lt hn
  rw [gammaFn_dyadic _ 0 hv, realGamma_int, roundHalfAway_nat, roundedLevel, ← Nat.floor_div_eq_div (K := ℝ)]
  congr 2
  rw [Nat.zero_add, Nat.add_sub_cancel, div_pow, pow_succ (255 : ℝ)]
  push_cast
  field_simp

/-- L1, L2, L4 and L6 of R181 for a positive or infinite exponent. -/
theorem gammaFn_obeysGammaLaws {g : Exponent} (hg : ∀ e, g ≠ .dyadic 0 e) : ObeysGammaLaws (gammaFn g) := by
  cases g with
  | infinite =>
    refine ⟨rfl, rfl, fun v hv => ?_, fun u v huv hv => ?_⟩ <;> simp only [gammaFn] <;> split_ifs <;> omega
  | dyadic m e =>
    have hm : 0 < m := Nat.pos_of_ne_zero fun h => hg e (h ▸ rfl)
    refine ⟨?_, ?_, fun v hv => ?_, fun u v huv hv => ?_⟩
    · rw [gammaFn_dyadic m e (by omega), realGamma_zero hm, roundedLevel_zero]
    · rw [gammaFn_dyadic m e le_rfl, realGamma_top, roundedLevel_one]
    · rw [gammaFn_dyadic m e hv, ← roundedLevel_one]
      exact roundedLevel_mono (realGamma_le_one m e hv)
    · rw [gammaFn_dyadic m e (huv.trans hv), gammaFn_dyadic m e hv]
      exact roundedLevel_mono (realGamma_mono m e huv)

/-- Settles O50. -/
theorem gammaFnRoundsRealPower : Obligations.GammaFnRoundsRealPower := by
  unfold Obligations.GammaFnRoundsRealPower
  exact ⟨fun m e v _ hv => gammaFn_dyadic m e hv, fun _ _ => rfl, fun _ => gammaFn_one, fun _ _ => gammaFn_int,
    fun _ => gammaFn_obeysGammaLaws⟩

end Sys2Proof.Machine
end

section
/-! The kernels (44_error_diffusion R183 to R186): what a legal tap table reaches. -/

namespace Sys2Proof.Machine

/-- Where a tap lands relative to its pixel. -/
def tapOffset (t : Tap) : Int × Nat := (t.dx, t.dy)

/-- Distinct taps within the radius and the rows of the kernel, on later pixels only (R183, R186). -/
structure KernelLegal (kr : Kernel) : Prop where
  distinct : (kr.taps.map tapOffset).Nodup
  reach : ∀ t ∈ kr.taps, t.dx.natAbs ≤ kr.rx ∧ t.dy + 1 ≤ kr.rows ∧ (t.dy = 0 → 0 < t.dx)

theorem Params.tapsOk_iff {p : Params} :
    p.tapsOk = true ↔ p.kernel1Taps.length = 12 ∧ (∀ t ∈ p.kernel1Taps, t.okForKernel1 = true) ∧
      (p.kernel1Taps.map tapOffset).Nodup ∧ (p.kernel1Taps.map Tap.w).sum = 48 := by
  simp only [Params.tapsOk, Bool.and_eq_true, beq_iff_eq, decide_eq_true_eq, List.all_eq_true, and_assoc]
  rfl

theorem Tap.okForKernel1_iff {t : Tap} :
    t.okForKernel1 = true ↔ t.dy ≤ 2 ∧ (-2 ≤ t.dx ∧ t.dx ≤ 2) ∧ (t.dy ≠ 0 ∨ 0 < t.dx) ∧ 0 < t.w := by
  simp [Tap.okForKernel1, and_assoc]

theorem kernel0_legal : KernelLegal kernel0 := ⟨by decide, by decide⟩

theorem kernel1_legal {p : Params} (h : p.tapsOk = true) : KernelLegal (kernel1 p) := by
  obtain ⟨-, hok, hdistinct, -⟩ := Params.tapsOk_iff.1 h
  refine ⟨hdistinct, fun t ht => ?_⟩
  obtain ⟨hdy, ⟨hlow, hupp⟩, hlater, -⟩ := Tap.okForKernel1_iff.1 (hok t ht)
  simp only [kernel1]
  omega

theorem kernelOf_legal {p : Params} (h : p.wf = true) (m : Method) : KernelLegal (kernelOf p m) := by
  obtain ⟨-, htaps, -⟩ := Params.wf_iff.1 h
  cases m with
  | m0 => exact kernel0_legal
  | m1 => exact kernel1_legal htaps

theorem kernelOf_rows_pos (p : Params) (m : Method) : 0 < (kernelOf p m).rows := by cases m <;> exact Nat.succ_pos _

/-- Twelve distinct offsets do not fit in fewer cells. -/
theorem exists_tap_outside {p : Params} (h : p.tapsOk = true) (cells : Finset (Int × Nat)) (hcard : cells.card < 12) :
    ∃ t ∈ p.kernel1Taps, tapOffset t ∉ cells := by
  obtain ⟨hlen, -, hdistinct, -⟩ := Params.tapsOk_iff.1 h
  by_contra! hall
  have hsub : (p.kernel1Taps.map tapOffset).toFinset ⊆ cells := by
    intro o ho
    obtain ⟨t, ht, rfl⟩ := List.mem_map.1 (List.mem_toFinset.1 ho)
    exact hall t ht
  have hle := Finset.card_le_card hsub
  rw [List.toFinset_card_of_nodup hdistinct, List.length_map, hlen] at hle
  omega

/-- One column on each side holds seven later cells, so a tap reaches the second (R185). -/
theorem kernel1_reaches_radius {p : Params} (h : p.tapsOk = true) : ∃ t ∈ p.kernel1Taps, t.dx.natAbs = 2 := by
  obtain ⟨t, ht, hout⟩ := exists_tap_outside h (insert (1, 0) (Finset.Icc (-1) 1 ×ˢ Finset.Icc 1 2)) (by decide)
  obtain ⟨-, hok, -, -⟩ := Params.tapsOk_iff.1 h
  obtain ⟨hdy, ⟨hlow, hupp⟩, hlater, -⟩ := Tap.okForKernel1_iff.1 (hok t ht)
  simp only [tapOffset, Finset.mem_insert, Prod.mk.injEq, Finset.mem_product, Finset.mem_Icc] at hout
  exact ⟨t, ht, by omega⟩

/-- The current row and the next hold seven later cells, so a tap reaches the row after them. -/
theorem kernel1_reaches_rows {p : Params} (h : p.tapsOk = true) : ∃ t ∈ p.kernel1Taps, t.dy = 2 := by
  obtain ⟨t, ht, hout⟩ := exists_tap_outside h (Finset.Icc 1 2 ×ˢ {0} ∪ Finset.Icc (-2) 2 ×ˢ {1}) (by decide)
  obtain ⟨-, hok, -, -⟩ := Params.tapsOk_iff.1 h
  obtain ⟨hdy, ⟨hlow, hupp⟩, hlater, -⟩ := Tap.okForKernel1_iff.1 (hok t ht)
  simp only [tapOffset, Finset.mem_union, Finset.mem_product, Finset.mem_Icc, Finset.mem_singleton] at hout
  exact ⟨t, ht, by omega⟩

theorem kernelOf_weights {p : Params} (h : p.wf = true) (m : Method) :
    ((kernelOf p m).taps.map Tap.w).sum = (kernelOf p m).den := by
  obtain ⟨-, htaps, -⟩ := Params.wf_iff.1 h
  cases m with
  | m0 => rfl
  | m1 =>
    obtain ⟨-, -, -, hsum⟩ := Params.tapsOk_iff.1 htaps
    exact hsum

theorem kernelOf_extents {p : Params} (h : p.wf = true) (m : Method) :
    (∃ t ∈ (kernelOf p m).taps, t.dx.natAbs = (kernelOf p m).rx) ∧
      ∃ t ∈ (kernelOf p m).taps, t.dy + 1 = (kernelOf p m).rows := by
  obtain ⟨-, htaps, -⟩ := Params.wf_iff.1 h
  cases m with
  | m0 => exact ⟨⟨_, List.mem_cons_self, rfl⟩, ⟨⟨0, 1, 5⟩, (by decide : (⟨0, 1, 5⟩ : Tap) ∈ kernel0.taps), rfl⟩⟩
  | m1 =>
    obtain ⟨t, ht, hdy⟩ := kernel1_reaches_rows htaps
    exact ⟨kernel1_reaches_radius htaps, t, ht, congrArg (· + 1) hdy⟩

/-- Settles O53. -/
theorem kernelsHaveTheirExtents : Obligations.KernelsHaveTheirExtents := by
  unfold Obligations.KernelsHaveTheirExtents
  refine ⟨fun _ => ⟨rfl, rfl⟩, rfl, fun p m h => ?_⟩
  obtain ⟨hdistinct, hreach⟩ := kernelOf_legal h m
  exact ⟨kernelOf_weights h m, hdistinct, hreach, kernelOf_extents h m⟩

end Sys2Proof.Machine
end

section
/-! The cells of the rolling buffer (44_error_diffusion R187, R192): what an addition to a cell does to it and to the others. -/

namespace Sys2Proof.Machine

/-- A buffer of the given number of rows of one width, padding included (R187). -/
def RingShape (rows width : Nat) (rb : List (List Int)) : Prop := rb.length = rows ∧ ∀ row ∈ rb, row.length = width

theorem getD_modify_other {α : Type} {i j : Nat} (h : j ≠ i) (f : α → α) (l : List α) (d : α) :
    (l.modify i f).getD j d = l.getD j d := by
  rw [List.getD_eq_getElem?_getD, List.getD_eq_getElem?_getD, List.getElem?_modify]
  simp [h.symm]

theorem getD_modify_same {α : Type} {i : Nat} {l : List α} (h : i < l.length) (f : α → α) (d : α) :
    (l.modify i f).getD i d = f (l.getD i d) := by
  rw [List.getD_eq_getElem _ _ (by simpa using h), List.getD_eq_getElem _ _ h, List.getElem_modify, if_pos rfl]

theorem RingShape.row {rows width slot : Nat} {rb : List (List Int)} (h : RingShape rows width rb) (hslot : slot < rows) :
    (rb.getD slot []).length = width := by
  obtain ⟨hlen, hrow⟩ := h
  rw [List.getD_eq_getElem _ _ (hlen ▸ hslot)]
  exact hrow _ (List.getElem_mem _)

theorem RingShape.addToCell {rows width : Nat} {rb : List (List Int)} (h : RingShape rows width rb) (slot pos : Nat) (d : Int) :
    RingShape rows width (addToCell rb slot pos d) := by
  obtain ⟨hlen, hrow⟩ := h
  exact ⟨by rw [Machine.addToCell, List.length_modify, hlen],
    forall_mem_modify slot hrow fun row hr => by rw [List.length_modify, hr]⟩

theorem readCell_addToCell_same {rows width slot pos : Nat} {rb : List (List Int)} (h : RingShape rows width rb)
    (hslot : slot < rows) (hpos : pos < width) (d : Int) :
    readCell (addToCell rb slot pos d) slot pos = sat16 (readCell rb slot pos + d) := by
  have ⟨hlen, _⟩ := h
  rw [readCell, addToCell, getD_modify_same (hlen ▸ hslot), getD_modify_same (by rwa [h.row hslot])]
  rfl

theorem readCell_addToCell_other {slot pos slot' pos' : Nat} (h : ¬(slot' = slot ∧ pos' = pos)) (rb : List (List Int)) (d : Int) :
    readCell (addToCell rb slot pos d) slot' pos' = readCell rb slot' pos' := by
  rw [readCell, readCell, addToCell]
  by_cases hs : slot' = slot
  · subst hs
    have hp : pos' ≠ pos := fun hp => h ⟨rfl, hp⟩
    by_cases hb : slot' < rb.length
    · rw [getD_modify_same hb, getD_modify_other hp]
    · rw [List.modify_eq_self (by omega)]
  · rw [getD_modify_other hs]

/-- Additions to different cells commute. -/
theorem addToCell_comm {slot pos slot' pos' : Nat} (h : ¬(slot' = slot ∧ pos' = pos)) (rb : List (List Int)) (d d' : Int) :
    addToCell (addToCell rb slot pos d) slot' pos' d' = addToCell (addToCell rb slot' pos' d') slot pos d := by
  simp only [addToCell]
  by_cases hs : slot' = slot
  · subst hs
    have hp : pos ≠ pos' := fun hp => h ⟨rfl, hp.symm⟩
    rw [List.modify_modify_eq, List.modify_modify_eq]
    congr 1
    funext row
    exact List.modify_modify_ne _ _ row hp
  · exact List.modify_modify_ne _ _ rb (Ne.symm hs)

end Sys2Proof.Machine
end

section
/-! The taps of one pixel (44_error_diffusion R190, R192): within the buffer, each in a cell of its own. -/

namespace Sys2Proof.Machine

/-- Slot and position of the cell that a tap of pixel `(x, y)` adds to (R187, R192). -/
def tapCell (kr : Kernel) (sg : Int) (x y : Nat) (t : Tap) : Nat × Nat :=
  ((y + t.dy) % kr.rows, (x + sg * t.dx + kr.rx).toNat)

theorem applyTap_eq (kr : Kernel) (sg : Int) (x y : Nat) (e : Int) (rb : List (List Int)) (t : Tap) :
    applyTap kr sg x y e rb t =
      addToCell rb (tapCell kr sg x y t).1 (tapCell kr sg x y t).2 (roundHalfAway (e * t.w) kr.den) := rfl

/-- Two rows that are in the buffer at once have the same slot only if they are the same row. -/
theorem ringSlot_injective {rows y a b : Nat} (ha : y ≤ a) (ha' : a < y + rows) (hb : y ≤ b) (hb' : b < y + rows)
    (h : a % rows = b % rows) : a = b := by
  obtain ⟨i, rfl⟩ := Nat.exists_eq_add_of_le ha
  obtain ⟨j, rfl⟩ := Nat.exists_eq_add_of_le hb
  have hij : i ≡ j [MOD rows] := Nat.ModEq.add_left_cancel' y h
  rw [hij.eq_of_lt_of_lt (by omega) (by omega)]

section
variable {kr : Kernel} {sg : Int} {w x y : Nat} {t : Tap}

/-- The padding holds what the taps reach beyond the image columns (R187). -/
theorem tapColumn_bounds (hsg : sg = 1 ∨ sg = -1) (hx : x < w) (ht : t.dx.natAbs ≤ kr.rx) :
    0 ≤ x + sg * t.dx + kr.rx ∧ x + sg * t.dx + kr.rx < w + 2 * kr.rx := by
  rcases hsg with rfl | rfl <;> omega

theorem tapCell_lt (hsg : sg = 1 ∨ sg = -1) (hx : x < w) (ht : t.dx.natAbs ≤ kr.rx) (hrows : 0 < kr.rows) :
    (tapCell kr sg x y t).1 < kr.rows ∧ (tapCell kr sg x y t).2 < w + 2 * kr.rx := by
  have hcol := tapColumn_bounds hsg hx ht
  exact ⟨Nat.mod_lt _ hrows, by simp only [tapCell]; omega⟩

theorem tapCell_eq_iff (hsg : sg = 1 ∨ sg = -1) (hx : x < w) (ht : t.dx.natAbs ≤ kr.rx) (slot pos : Nat) :
    (slot = (tapCell kr sg x y t).1 ∧ pos = (tapCell kr sg x y t).2) ↔
      slot = (y + t.dy) % kr.rows ∧ (pos : Int) = x + sg * t.dx + kr.rx := by
  have hcol := tapColumn_bounds hsg hx ht
  simp only [tapCell]
  exact and_congr_right fun _ => by omega

theorem tapOffset_eq_of_tapCell_eq {t' : Tap} (hkr : KernelLegal kr) (hsg : sg = 1 ∨ sg = -1) (hx : x < w) (ht : t ∈ kr.taps)
    (ht' : t' ∈ kr.taps) (h : tapCell kr sg x y t = tapCell kr sg x y t') : tapOffset t = tapOffset t' := by
  obtain ⟨hdx, hdy, -⟩ := hkr.reach t ht
  obtain ⟨hdx', hdy', -⟩ := hkr.reach t' ht'
  have hcol := tapColumn_bounds hsg hx hdx
  have hcol' := tapColumn_bounds hsg hx hdx'
  obtain ⟨hslot, hpos⟩ := Prod.mk.inj h
  have hrow := ringSlot_injective (y := y) (by omega) (by omega) (by omega) (by omega) hslot
  have hcolumn : sg * t.dx = sg * t'.dx := by omega
  refine Prod.ext ?_ (by simp only [tapOffset]; omega)
  rcases hsg with rfl | rfl <;> simp only [tapOffset] <;> omega

theorem tapCells_distinct (hkr : KernelLegal kr) (hsg : sg = 1 ∨ sg = -1) (hx : x < w) :
    (kr.taps.map (tapCell kr sg x y)).Nodup := by
  have hoffsets := List.pairwise_map.1 hkr.distinct
  refine List.pairwise_map.2 (hoffsets.imp_of_mem fun ht ht' hne hcell => ?_)
  exact hne (tapOffset_eq_of_tapCell_eq hkr hsg hx ht ht' hcell)

theorem applyTap_comm {t' : Tap} (hkr : KernelLegal kr) (hsg : sg = 1 ∨ sg = -1) (hx : x < w) (e : Int) (ht : t ∈ kr.taps)
    (ht' : t' ∈ kr.taps) (rb : List (List Int)) :
    applyTap kr sg x y e (applyTap kr sg x y e rb t) t' = applyTap kr sg x y e (applyTap kr sg x y e rb t') t := by
  by_cases hcell : tapCell kr sg x y t' = tapCell kr sg x y t
  · have hoffset := tapOffset_eq_of_tapCell_eq hkr hsg hx ht' ht hcell
    rw [List.inj_on_of_nodup_map hkr.distinct ht' ht hoffset]
  · simp only [applyTap_eq]
    exact addToCell_comm (fun ⟨hslot, hpos⟩ => hcell (Prod.ext hslot hpos)) _ _ _

theorem foldl_applyTap_other (sg : Int) (x y : Nat) (e : Int) {ts : List Tap} {slot pos : Nat}
    (h : ∀ t ∈ ts, ¬(slot = (tapCell kr sg x y t).1 ∧ pos = (tapCell kr sg x y t).2)) (rb : List (List Int)) :
    readCell (ts.foldl (applyTap kr sg x y e) rb) slot pos = readCell rb slot pos := by
  induction ts generalizing rb with
  | nil => rfl
  | cons t ts ih =>
    obtain ⟨ht, hts⟩ := List.forall_mem_cons.1 h
    rw [List.foldl_cons, ih hts, applyTap_eq, readCell_addToCell_other ht]

/-- Among taps with cells of their own, each saturates its cell once. -/
theorem foldl_applyTap_cell {rows width : Nat} (sg : Int) (x y : Nat) (e : Int) {ts : List Tap}
    (hcells : (ts.map (tapCell kr sg x y)).Nodup)
    (hin : ∀ t ∈ ts, (tapCell kr sg x y t).1 < rows ∧ (tapCell kr sg x y t).2 < width) {rb : List (List Int)}
    (hrb : RingShape rows width rb) (ht : t ∈ ts) :
    readCell (ts.foldl (applyTap kr sg x y e) rb) (tapCell kr sg x y t).1 (tapCell kr sg x y t).2 =
      sat16 (readCell rb (tapCell kr sg x y t).1 (tapCell kr sg x y t).2 + roundHalfAway (e * t.w) kr.den) := by
  induction ts generalizing rb with
  | nil => cases ht
  | cons t' ts ih =>
    obtain ⟨hfresh, hrest⟩ := List.nodup_cons.1 hcells
    obtain ⟨⟨hslot, hpos⟩, hin⟩ := List.forall_mem_cons.1 hin
    rw [List.foldl_cons]
    rcases List.mem_cons.1 ht with rfl | ht
    · rw [foldl_applyTap_other sg x y e fun u hu ⟨hs, hp⟩ =>
        hfresh (List.mem_map.2 ⟨u, hu, (Prod.ext hs hp).symm⟩), applyTap_eq,
        readCell_addToCell_same hrb hslot hpos]
    · rw [applyTap_eq, ih hrest hin (hrb.addToCell _ _ _) ht, readCell_addToCell_other]
      exact fun ⟨hs, hp⟩ => hfresh (List.mem_map.2 ⟨t, ht, Prod.ext hs hp⟩)

end

theorem rowSign_eq (c : Scan) (y : Nat) : rowSign c y = if rightToLeft c y then -1 else 1 := by
  cases c with
  | raster => simp [rowSign, rowReversed, rightToLeft]
  | serpentine => simp [rowSign, rowReversed, rightToLeft]

theorem rowSign_cases (c : Scan) (y : Nat) : rowSign c y = 1 ∨ rowSign c y = -1 := by
  rw [rowSign_eq]
  split_ifs <;> simp

theorem residual_eq (a : Int) : residual a = a - if 128 ≤ a then 255 else 0 := by
  rw [residual, quantize]
  split_ifs <;> rfl

/-- Settles O55. -/
theorem tapsWriteDistinctCells : Obligations.TapsWriteDistinctCells := by
  unfold Obligations.TapsWriteDistinctCells
  refine ⟨rowSign_eq, map_scanColumn, residual_eq, fun _ => rfl, fun p m sg w x y e rb hwf hsg hx hlen hrows => ?_⟩
  have hkr := kernelOf_legal hwf m
  have hcells : ∀ t ∈ (kernelOf p m).taps, _ := fun t ht =>
    tapCell_lt (y := y) hsg hx (hkr.reach t ht).1 (kernelOf_rows_pos p m)
  refine ⟨fun t ht => ?_, fun slot pos hother => ?_, fun taps' hperm => ?_⟩
  · exact foldl_applyTap_cell sg x y e (tapCells_distinct hkr hsg hx) hcells ⟨hlen, hrows⟩ ht
  · exact foldl_applyTap_other sg x y e (fun t ht h => hother t ht ((tapCell_eq_iff hsg hx (hkr.reach t ht).1 slot pos).1 h)) rb
  · exact hperm.foldl_eq' (fun t ht t' ht' => applyTap_comm hkr hsg hx e (hperm.subset ht) (hperm.subset ht')) rb

end Sys2Proof.Machine
end

section
/-! The scan of `DIFFUSE` (44_error_diffusion R190, R194) pixel by pixel: what each pixel keeps and adds to the pixels already
scanned holds after a row of the pixels of that row, and bytes are bi-level where a pixel was scanned. -/

namespace Sys2Proof.Machine

/-- The pixels of row `y` in the order of R190, as column and row. -/
def rowPixels (c : Scan) (w y : Nat) : List (Nat × Nat) := (List.range w).map fun n => (scanColumn c w y n, y)

theorem scanOrder_zero (c : Scan) (w : Nat) : scanOrder c w 0 = [] := rfl

theorem scanOrder_succ (c : Scan) (w y : Nat) : scanOrder c w (y + 1) = scanOrder c w y ++ rowPixels c w y := by
  simp only [scanOrder_eq, List.range_succ, List.flatMap_append, List.flatMap_singleton]
  rfl

theorem mem_scanOrder {c : Scan} {w h x y : Nat} (hx : x < w) (hy : y < h) : (x, y) ∈ scanOrder c w h := by
  refine List.mem_flatMap.2 ⟨y, List.mem_range.2 hy, List.mem_map.2 ⟨x, ?_, rfl⟩⟩
  split_ifs
  · exact List.mem_reverse.2 (List.mem_range.2 hx)
  · exact List.mem_range.2 hx

theorem diffuseRow_invariant {P : List (Nat × Nat) → Diffusing → Prop} {kr : Kernel} {c : Scan} {w y : Nat}
    (hpixel : ∀ ps st x, x < w → P ps st → P (ps ++ [(x, y)]) (diffusePixel kr (rowSign c y) w x y st))
    {ps : List (Nat × Nat)} {st : Diffusing} (h : P ps st) : P (ps ++ rowPixels c w y) (diffuseRow kr c w y st) := by
  have hfirst : ∀ n ≤ w, P (ps ++ (List.range n).map fun n => (scanColumn c w y n, y))
      ((List.range n).foldl (fun st n => diffusePixel kr (rowSign c y) w (scanColumn c w y n) y st) st) := by
    intro n hn
    induction n with
    | zero => simpa using h
    | succ n ih =>
      rw [List.range_succ, List.map_append, List.foldl_append, ← List.append_assoc]
      exact hpixel _ _ _ (scanColumn_lt (by omega)) (ih (by omega))
  exact hfirst w le_rfl

/-- The bytes of the listed pixels are 0 or 255. -/
def BilevelOn (w : Nat) (ps : List (Nat × Nat)) (m : Memory) : Prop :=
  ∀ p ∈ ps, Memory.read m (p.2 * w + p.1) = some 0 ∨ Memory.read m (p.2 * w + p.1) = some 255

theorem BilevelOn.pixel {w : Nat} {ps : List (Nat × Nat)} {st : Diffusing} (h : BilevelOn w ps st.dst) (kr : Kernel) (sg : Int)
    (x y : Nat) : BilevelOn w (ps ++ [(x, y)]) (diffusePixel kr sg w x y st).dst := by
  have hq : ∀ a, some (quantize a) = some 0 ∨ some (quantize a) = some 255 := fun a =>
    (quantize_cases a).imp (congrArg some) (congrArg some)
  intro p hp
  simp only [diffusePixel, Memory.read_write]
  split_ifs with hk
  · exact hq _
  · rcases List.mem_append.1 hp with hp | hp
    · exact h p hp
    · obtain rfl := List.mem_singleton.1 hp
      exact absurd rfl hk

/-- A line is its pixels, then the ring advance of R193, which changes the buffer only. -/
theorem diffuseLine_ok {kr : Kernel} {c : Scan} {w h y : Nat} {src : Memory} {glut : Table 8} {st st' : Diffusing} :
    diffuseLine kr c w h src glut st y = .ok st' ↔
      ∃ row, loadRow kr w h src glut (y + kr.rows) = .ok row ∧
        st' = { diffuseRow kr c w y st with rb := (diffuseRow kr c w y st).rb.set (y % kr.rows) row } := by
  unfold diffuseLine
  cases loadRow kr w h src glut (y + kr.rows) <;> simp [eq_comm]

theorem diffuseImage_ok {kr : Kernel} {c : Scan} {w h : Nat} {src dst : Memory} {glut : Table 8} {r : Diffusing} :
    diffuseImage kr c w h src glut dst = .ok r ↔
      ∃ rb, initialRing kr w h src glut = .ok rb ∧
        forRange (diffuseLine kr c w h src glut) (List.range h) { rb := rb, dst := dst } = .ok r := by
  unfold diffuseImage
  cases initialRing kr w h src glut <;> simp

theorem diffuseImage_bilevel {kr : Kernel} {c : Scan} {w h : Nat} {src dst : Memory} {glut : Table 8} {r : Diffusing}
    (hr : diffuseImage kr c w h src glut dst = .ok r) : BilevelOn w (scanOrder c w h) r.dst := by
  obtain ⟨rb, -, hlines⟩ := diffuseImage_ok.1 hr
  refine forRange_invariant (fun y st => BilevelOn w (scanOrder c w y) st.dst) ?_ (fun y _ a b ha hab => ?_) hlines
  · rw [scanOrder_zero]
    exact fun p hp => absurd hp List.not_mem_nil
  · obtain ⟨row, -, rfl⟩ := diffuseLine_ok.1 hab
    rw [scanOrder_succ]
    exact diffuseRow_invariant (P := fun ps st => BilevelOn w ps st.dst) (fun _ _ x _ h => h.pixel _ _ x y) ha

theorem diffuseImage_agreeFrom {kr : Kernel} {c : Scan} {w h : Nat} {src dst : Memory} {glut : Table 8} {r : Diffusing}
    (hr : diffuseImage kr c w h src glut dst = .ok r) : AgreeFrom (w * h) dst r.dst := by
  obtain ⟨rb, -, hlines⟩ := diffuseImage_ok.1 hr
  exact forRange_invariant (fun _ st => AgreeFrom (w * h) dst st.dst) (.refl _ _)
    (fun _ hy _ _ ha hab => diffuseLine_agreeFrom hy ha hab) hlines

/-- Every index below `N` is that of a pixel in row-major order. -/
theorem exists_pixel_of_lt {w h k : Nat} (hk : k < w * h) : ∃ x y, x < w ∧ y < h ∧ k = y * w + x := by
  have hw : 0 < w := Nat.pos_of_mul_pos_right (Nat.zero_lt_of_lt hk)
  exact ⟨k % w, k / w, Nat.mod_lt _ hw, Nat.div_lt_of_lt_mul hk, (Nat.div_add_mod' k w).symm⟩

/-- What an accepted `DIFFUSE` that completes leaves: the scan's buffer and plane, and `DONE`. -/
theorem exec_diffuse_next {m : Method} {c : Scan} {s t : State} (hacc : accepts (.diffuse m c) s)
    (h : exec (.diffuse m c) s = .next t) :
    ∃ r, diffuseImage (kernelOf s.params m) c s.width.toNat s.height.toNat s.src s.glut s.dst = .ok r ∧
      t = { s with rb := r.rb, dst := r.dst, status := doneStatus s } := by
  obtain ⟨hj, hc⟩ := hacc
  have hbody := h
  rw [exec_idle hj hc] at hbody
  obtain ⟨u, hu, -⟩ := conclude_next.1 hbody
  obtain ⟨r, hr, rfl⟩ := diffuseBody_ok.1 hu
  rw [exec_of_body_ok hj hc hu] at h
  cases h
  exact ⟨r, hr, rfl⟩

/-- Settles O57: each scanned pixel is bi-level, the scan meets every index below `N`, and the frame is that of `DIFFUSE`. -/
theorem diffusionOutputIsBilevel : Obligations.DiffusionOutputIsBilevel := by
  unfold Obligations.DiffusionOutputIsBilevel
  intro m c s t hacc h
  obtain ⟨r, hr, rfl⟩ := exec_diffuse_next hacc h
  refine ⟨fun k hk => ?_, diffuseImage_agreeFrom hr, rfl⟩
  obtain ⟨x, y, hx, hy, rfl⟩ := exists_pixel_of_lt hk
  exact diffuseImage_bilevel hr (x, y) (mem_scanOrder hx hy)

end Sys2Proof.Machine
end

section
/-! The ring and the full-image error plane (44_error_diffusion R187 to R189, R193, R197): before row `y` the slots hold rows `y` to
`y + R - 1` of the plane, and the plane's later rows are as loaded. -/

namespace Sys2Proof.Machine

/-- The error plane before the first pixel: the corrected samples, zero outside the image (R188). -/
def initialPlane (w h : Nat) (px : Nat → Nat → Int) : Int → Nat → Int :=
  fun x y => if 0 ≤ x ∧ x < w ∧ y < h then px x.toNat y else 0

/-- Row `y` of a plane as a buffer row, padding included (R187). -/
def bufferRow (kr : Kernel) (w : Nat) (plane : Int → Nat → Int) (y : Nat) : List Int :=
  (List.range (w + 2 * kr.rx)).map fun pos : Nat => plane ((pos : Int) - kr.rx) y

theorem bufferRow_length (kr : Kernel) (w : Nat) (plane : Int → Nat → Int) (y : Nat) :
    (bufferRow kr w plane y).length = w + 2 * kr.rx := by
  rw [bufferRow, List.length_map, List.length_range]

theorem bufferRow_getD {kr : Kernel} {w pos : Nat} (plane : Int → Nat → Int) (y : Nat) (h : pos < w + 2 * kr.rx) :
    (bufferRow kr w plane y).getD pos 0 = plane ((pos : Int) - kr.rx) y := by
  rw [bufferRow, List.getD_eq_getElem?_getD, List.getElem?_map, List.getElem?_range h]
  rfl

theorem initialPlane_padded (kr : Kernel) {w h y : Nat} (px : Nat → Nat → Int) (hy : y < h) :
    List.replicate kr.rx 0 ++ (List.range w).map (fun x => px x y) ++ List.replicate kr.rx 0 =
      bufferRow kr w (initialPlane w h px) y := by
  refine List.ext_getElem (by simp [bufferRow_length]; omega) fun pos hpos hpos' => ?_
  rw [bufferRow_length] at hpos'
  simp only [bufferRow, List.getElem_map, List.getElem_range, initialPlane]
  rcases lt_or_ge pos kr.rx with hleft | hleft
  · rw [List.getElem_append_left (by simp; omega), List.getElem_append_left (by simpa using hleft), List.getElem_replicate,
      if_neg (by omega)]
  · rcases lt_or_ge pos (kr.rx + w) with hright | hright
    · rw [List.getElem_append_left (by simpa using hright), List.getElem_append_right (by simpa using hleft), if_pos (by omega)]
      simp only [List.getElem_map, List.getElem_range, List.length_replicate]
      congr 1
      omega
    · rw [List.getElem_append_right (by simpa using hright), List.getElem_replicate, if_neg (by omega)]

/-- Bytes written and, at their levels, entries: what `DIFFUSE` reads (R282). -/
def SamplesWritten (src : Memory) (glut : Table 8) (n : Nat) : Prop := bytesWritten src n ∧ levelsWritten src n glut

theorem correctedSample_written {src : Memory} {glut : Table 8} {w n x y : Nat} (h : SamplesWritten src glut n)
    (hk : y * w + x < n) : correctedSample src glut (y * w + x) = .ok (correctedLevel src glut w x y) := by
  obtain ⟨hsrc, hglut⟩ := h
  obtain ⟨v, hv⟩ := Option.isSome_iff_exists.1 (hsrc _ hk)
  obtain ⟨q, hq⟩ := Option.isSome_iff_exists.1 (hglut _ hk v hv)
  refine correctedSample_ok.2 ⟨v, q, hv, hq, ?_⟩
  rw [correctedLevel, levelAt_of_read hv, entryAt_of_get hq]

/-- The row loader (R188) loads rows of the initial plane. -/
theorem loadRow_written {kr : Kernel} {w h : Nat} {src : Memory} {glut : Table 8} (hw : SamplesWritten src glut (w * h)) (y : Nat) :
    loadRow kr w h src glut y = .ok (bufferRow kr w (initialPlane w h (correctedLevel src glut w)) y) := by
  unfold loadRow
  split_ifs with hy
  · rw [collect_map (g := fun x => correctedLevel src glut w x y) fun x hx =>
      correctedSample_written hw (rowMajor_lt (List.mem_range.1 hx) hy)]
    exact congrArg Except.ok (initialPlane_padded kr _ hy)
  · refine congrArg Except.ok (List.eq_replicate_iff.2 ⟨bufferRow_length _ _ _ _, fun b hb => ?_⟩).symm
    obtain ⟨pos, -, rfl⟩ := List.mem_map.1 hb
    exact if_neg fun ⟨_, _, hlt⟩ => hy hlt

/-- The ring before row `y` against a full-image plane: the slots hold the rows from `y` on, and the rows past the ring are still
those of `start`. -/
structure RingHolds (kr : Kernel) (w : Nat) (start : Int → Nat → Int) (y : Nat) (rb : List (List Int))
    (plane : Int → Nat → Int) : Prop where
  shape : RingShape kr.rows (w + 2 * kr.rx) rb
  window : ∀ y', y ≤ y' → y' < y + kr.rows → ∀ pos < w + 2 * kr.rx,
    readCell rb (y' % kr.rows) pos = plane ((pos : Int) - kr.rx) y'
  fresh : ∀ y', y + kr.rows ≤ y' → ∀ x, plane x y' = start x y'

theorem readCell_map_range {rows slot : Nat} (f : Nat → List Int) (pos : Nat) (h : slot < rows) :
    readCell ((List.range rows).map f) slot pos = (f slot).getD pos 0 := by
  simp only [readCell, List.getD_eq_getElem?_getD, List.getElem?_map, List.getElem?_range h, Option.map_some, Option.getD_some]

/-- The initial load (R189). -/
theorem ringHolds_start (kr : Kernel) (w : Nat) (start : Int → Nat → Int) :
    RingHolds kr w start 0 ((List.range kr.rows).map (bufferRow kr w start)) start where
  shape := by
    refine ⟨by rw [List.length_map, List.length_range], fun row hrow => ?_⟩
    obtain ⟨y, -, rfl⟩ := List.mem_map.1 hrow
    exact bufferRow_length _ _ _ _
  window y' _ hy' pos hpos := by
    have hslot : y' < kr.rows := by omega
    rw [Nat.mod_eq_of_lt hslot, readCell_map_range _ _ hslot, bufferRow_getD _ _ hpos]
  fresh _ _ _ := rfl

section
variable {kr : Kernel} {sg : Int} {w x y : Nat} {start plane : Int → Nat → Int} {rb : List (List Int)}

theorem RingHolds.accumulated (h : RingHolds kr w start y rb plane) (hrows : 0 < kr.rows) (hx : x < w) :
    accumulated kr rb x y = plane x y := by
  rw [Machine.accumulated, h.window y le_rfl (by omega) _ (by omega)]
  congr 1
  omega

theorem fullTap_same (den : Nat) (e : Int) (t : Tap) :
    fullTap den sg x y e plane t (x + sg * t.dx) (y + t.dy) =
      sat16 (plane (x + sg * t.dx) (y + t.dy) + roundHalfAway (e * t.w) den) := if_pos ⟨rfl, rfl⟩

theorem fullTap_other (den : Nat) (e : Int) {t : Tap} {cx : Int} {cy : Nat} (h : ¬(cx = x + sg * t.dx ∧ cy = y + t.dy)) :
    fullTap den sg x y e plane t cx cy = plane cx cy := if_neg h

/-- A tap on the ring is the tap on the plane: within the rows that the ring holds a slot stands for one row. -/
theorem RingHolds.applyTap (h : RingHolds kr w start y rb plane) (hsg : sg = 1 ∨ sg = -1) (hx : x < w) (e : Int) {t : Tap}
    (hdx : t.dx.natAbs ≤ kr.rx) (hdy : t.dy + 1 ≤ kr.rows) :
    RingHolds kr w start y (applyTap kr sg x y e rb t) (fullTap kr.den sg x y e plane t) where
  shape := h.shape.addToCell _ _ _
  window y' hy hy' pos hpos := by
    obtain ⟨hslot, hcolumn⟩ := tapCell_lt (y := y) hsg hx hdx (by omega)
    have hcell := tapCell_eq_iff (y := y) hsg hx hdx (y' % kr.rows) pos
    by_cases htap : y' = y + t.dy ∧ (pos : Int) = x + sg * t.dx + kr.rx
    · obtain ⟨rfl, hcol⟩ := htap
      obtain ⟨hs, hp⟩ := hcell.2 ⟨rfl, hcol⟩
      have hpx : (pos : Int) - kr.rx = x + sg * t.dx := by omega
      rw [applyTap_eq, hs, hp, readCell_addToCell_same h.shape hslot hcolumn, ← hs, ← hp, h.window _ hy hy' pos hpos, hpx,
        fullTap_same]
    · rw [applyTap_eq, readCell_addToCell_other, h.window _ hy hy' pos hpos, fullTap_other]
      · exact fun ⟨_, hrow⟩ => htap ⟨hrow, by omega⟩
      · intro hsame
        obtain ⟨hs, hp⟩ := hcell.1 hsame
        exact htap ⟨ringSlot_injective hy hy' (Nat.le_add_right _ _) (by omega) hs, hp⟩
  fresh y' hy' cx := by
    rw [fullTap_other _ _ (by omega)]
    exact h.fresh y' hy' cx

theorem RingHolds.foldl_applyTap (h : RingHolds kr w start y rb plane) (hsg : sg = 1 ∨ sg = -1) (hx : x < w) (e : Int)
    {ts : List Tap} (hts : ∀ t ∈ ts, t.dx.natAbs ≤ kr.rx ∧ t.dy + 1 ≤ kr.rows ∧ (t.dy = 0 → 0 < t.dx)) :
    RingHolds kr w start y (ts.foldl (Machine.applyTap kr sg x y e) rb) (ts.foldl (fullTap kr.den sg x y e) plane) := by
  induction ts generalizing rb plane with
  | nil => exact h
  | cons t ts ih =>
    obtain ⟨⟨hdx, hdy, -⟩, hts⟩ := List.forall_mem_cons.1 hts
    exact ih (h.applyTap hsg hx e hdx hdy) hts

theorem RingHolds.distribute (h : RingHolds kr w start y rb plane) (hkr : KernelLegal kr) (hsg : sg = 1 ∨ sg = -1) (hx : x < w)
    (e : Int) : RingHolds kr w start y (distribute kr sg x y e rb) (kr.taps.foldl (fullTap kr.den sg x y e) plane) :=
  h.foldl_applyTap hsg hx e hkr.reach

theorem readCell_set_same {slot : Nat} (h : slot < rb.length) (row : List Int) (pos : Nat) :
    readCell (rb.set slot row) slot pos = row.getD pos 0 := by
  simp only [readCell, List.getD_eq_getElem?_getD, List.getElem?_set_self h, Option.getD_some]

theorem readCell_set_other {slot slot' : Nat} (h : slot' ≠ slot) (row : List Int) (pos : Nat) :
    readCell (rb.set slot row) slot' pos = readCell rb slot' pos := by
  simp only [readCell, List.getD_eq_getElem?_getD, List.getElem?_set_ne h.symm]

/-- The ring advance (R193): the slot of the finished row takes the first row past the ring. -/
theorem RingHolds.advance (h : RingHolds kr w start y rb plane) (hrows : 0 < kr.rows) :
    RingHolds kr w start (y + 1) (rb.set (y % kr.rows) (bufferRow kr w start (y + kr.rows))) plane where
  shape := by
    obtain ⟨hlen, hwidth⟩ := h.shape
    refine ⟨by rw [List.length_set, hlen], fun row hrow => ?_⟩
    rcases List.mem_or_eq_of_mem_set hrow with hold | rfl
    · exact hwidth row hold
    · exact bufferRow_length _ _ _ _
  window y' hy hy' pos hpos := by
    obtain ⟨hlen, -⟩ := h.shape
    rcases (Nat.le_of_lt_succ (by omega) : y' ≤ y + kr.rows).eq_or_lt with rfl | hlt
    · rw [Nat.add_mod_right, readCell_set_same (by rw [hlen]; exact Nat.mod_lt _ hrows), bufferRow_getD _ _ hpos, h.fresh _ le_rfl]
    · rw [readCell_set_other, h.window y' (by omega) hlt pos hpos]
      intro hslot
      have := ringSlot_injective (y := y) (by omega) hlt le_rfl (by omega) hslot
      omega
  fresh y' hy' := h.fresh y' (by omega)

end

end Sys2Proof.Machine
end

section
/-! `DIFFUSE` against the full-image plane (44_error_diffusion R194, R197): the scan on the ring writes, pixel by pixel, what the
scan on the plane outputs. -/

namespace Sys2Proof.Machine

/-- What the scan on the full-image plane holds: the plane and the output. -/
abbrev FullState := (Int → Nat → Int) × (Nat → Nat → Byte)

theorem fullPixel_eq (taps : List Tap) (den : Nat) (c : Scan) (f : FullState) (x y : Nat) :
    fullPixel (taps, den) c f (x, y) =
      (taps.foldl (fullTap den (rowSign c y) x y (residual (f.1 x y))) f.1,
        fun x' y' => if x' = x ∧ y' = y then quantize (f.1 x y) else f.2 x' y') := by
  have hq : BitVec.ofNat 8 (if 128 ≤ f.1 x y then 255 else 0) = quantize (f.1 x y) := by
    rw [quantize]
    split_ifs <;> rfl
  simp only [fullPixel, ← hq, rowSign_eq, residual_eq]
  push_cast
  rfl

/-- The full-image scan after the pixels `ps`. -/
def fullScan (kr : Kernel) (c : Scan) (start : Int → Nat → Int) (ps : List (Nat × Nat)) : FullState :=
  ps.foldl (fullPixel (kr.taps, kr.den) c) (start, fun _ _ => 0)

theorem fullScan_append_singleton (kr : Kernel) (c : Scan) (start : Int → Nat → Int) (ps : List (Nat × Nat)) (p : Nat × Nat) :
    fullScan kr c start (ps ++ [p]) = fullPixel (kr.taps, kr.den) c (fullScan kr c start ps) p := by
  rw [fullScan, List.foldl_append]
  rfl

theorem fullDiffusion_eq (p : Params) (m : Method) (c : Scan) (w h : Nat) (px : Nat → Nat → Int) :
    fullDiffusion (statedTaps p m) c w h px = (fullScan (kernelOf p m) c (initialPlane w h px) (scanOrder c w h)).2 := by
  cases m <;> rfl

/-- The loop variables of `DIFFUSE` in row `y`, after the pixels `ps`, against the full-image scan after them. -/
structure FollowsFull (kr : Kernel) (c : Scan) (w : Nat) (start : Int → Nat → Int) (y : Nat) (ps : List (Nat × Nat))
    (st : Diffusing) : Prop where
  ring : RingHolds kr w start y st.rb (fullScan kr c start ps).1
  columns : ∀ p ∈ ps, p.1 < w
  output : ∀ p ∈ ps, Memory.read st.dst (p.2 * w + p.1) = some ((fullScan kr c start ps).2 p.1 p.2)

theorem rowMajor_injective {w x y x' y' : Nat} (hx : x < w) (hx' : x' < w) : y * w + x = y' * w + x' ↔ x = x' ∧ y = y' := by
  constructor
  · intro h
    have hdiv : ∀ a b, b < w → (a * w + b) / w = a := fun a b hb => by
      rw [Nat.mul_comm, Nat.mul_add_div (by omega), Nat.div_eq_of_lt hb, Nat.add_zero]
    obtain rfl : y = y' := by rw [← hdiv y x hx, h, hdiv y' x' hx']
    exact ⟨Nat.add_left_cancel h, rfl⟩
  · rintro ⟨rfl, rfl⟩
    rfl

section
variable {kr : Kernel} {c : Scan} {w y : Nat} {start : Int → Nat → Int} {ps : List (Nat × Nat)} {st : Diffusing}

theorem FollowsFull.pixel {x : Nat} (h : FollowsFull kr c w start y ps st) (hkr : KernelLegal kr) (hrows : 0 < kr.rows)
    (hx : x < w) : FollowsFull kr c w start y (ps ++ [(x, y)]) (diffusePixel kr (rowSign c y) w x y st) := by
  have hacc := h.ring.accumulated hrows hx
  have hcolumns : ∀ p ∈ ps ++ [(x, y)], p.1 < w := by
    intro p hp
    rcases List.mem_append.1 hp with hp | hp
    · exact h.columns p hp
    · rwa [List.mem_singleton.1 hp]
  refine ⟨?_, hcolumns, fun p hp => ?_⟩
  · rw [fullScan_append_singleton, fullPixel_eq, diffusePixel, hacc]
    exact h.ring.distribute hkr (rowSign_cases c y) hx _
  · rw [fullScan_append_singleton, fullPixel_eq, diffusePixel, hacc, Memory.read_write,
      if_congr (rowMajor_injective (hcolumns p hp) hx) rfl rfl]
    dsimp only
    split_ifs with hpx
    · rfl
    · rcases List.mem_append.1 hp with hp | hp
      · exact h.output p hp
      · obtain rfl := List.mem_singleton.1 hp
        exact absurd ⟨rfl, rfl⟩ hpx

theorem FollowsFull.row (h : FollowsFull kr c w start y ps st) (hkr : KernelLegal kr) (hrows : 0 < kr.rows) :
    FollowsFull kr c w start y (ps ++ rowPixels c w y) (diffuseRow kr c w y st) :=
  diffuseRow_invariant (P := FollowsFull kr c w start y) (fun _ _ _ hx h => h.pixel hkr hrows hx) h

theorem FollowsFull.advance (h : FollowsFull kr c w start y ps st) (hrows : 0 < kr.rows) :
    FollowsFull kr c w start (y + 1) ps { st with rb := st.rb.set (y % kr.rows) (bufferRow kr w start (y + kr.rows)) } :=
  ⟨h.ring.advance hrows, h.columns, h.output⟩

theorem followsFull_start (kr : Kernel) (c : Scan) (w : Nat) (start : Int → Nat → Int) (dst : Memory) :
    FollowsFull kr c w start 0 [] { rb := (List.range kr.rows).map (bufferRow kr w start), dst := dst } :=
  ⟨ringHolds_start kr w start, fun _ hp => absurd hp List.not_mem_nil, fun _ hp => absurd hp List.not_mem_nil⟩

end

/-- With its samples written the scan completes, and follows the full-image scan. -/
theorem diffuseImage_written {kr : Kernel} {w h : Nat} {src : Memory} {glut : Table 8} (hkr : KernelLegal kr)
    (hrows : 0 < kr.rows) (hw : SamplesWritten src glut (w * h)) (c : Scan) (dst : Memory) :
    ∃ r, diffuseImage kr c w h src glut dst = .ok r ∧
      FollowsFull kr c w (initialPlane w h (correctedLevel src glut w)) h (scanOrder c w h) r := by
  have hring : initialRing kr w h src glut = .ok _ := collect_map fun y _ => loadRow_written hw y
  obtain ⟨r, hr, hfollows⟩ := forRange_succeeds (f := diffuseLine kr c w h src glut) (n := h)
    (fun y st => FollowsFull kr c w (initialPlane w h (correctedLevel src glut w)) y (scanOrder c w y) st)
    (followsFull_start kr c w _ dst) fun y _ st hst => by
      refine ⟨_, diffuseLine_ok.2 ⟨_, loadRow_written hw _, rfl⟩, ?_⟩
      rw [scanOrder_succ]
      exact (hst.row hkr hrows).advance hrows
  exact ⟨r, diffuseImage_ok.2 ⟨_, hring, hr⟩, hfollows⟩

/-- A scan that completes has loaded every row of the image (R189, R193). -/
theorem loadRow_of_diffuseImage_ok {kr : Kernel} {c : Scan} {w h : Nat} {src dst : Memory} {glut : Table 8} {r : Diffusing}
    (hr : diffuseImage kr c w h src glut dst = .ok r) {y : Nat} (hy : y < h) : ∃ row, loadRow kr w h src glut y = .ok row := by
  obtain ⟨rb, hring, hlines⟩ := diffuseImage_ok.1 hr
  rcases lt_or_ge y kr.rows with hlt | hge
  · obtain ⟨row, -, hrow⟩ := collect_getElem? hring (List.getElem?_range hlt)
    exact ⟨row, hrow⟩
  · have hloaded := forRange_invariant (fun k _ => ∀ y < k, ∃ row, loadRow kr w h src glut (y + kr.rows) = .ok row)
      (fun y hy => absurd hy y.not_lt_zero) (fun k _ a b ha hab y hy => ?_) hlines
    · obtain ⟨row, hrow⟩ := hloaded (y - kr.rows) (by omega)
      rw [Nat.sub_add_cancel hge] at hrow
      exact ⟨row, hrow⟩
    · rcases Nat.lt_succ_iff_lt_or_eq.1 hy with hy | rfl
      · exact ha y hy
      · obtain ⟨row, hrow, -⟩ := diffuseLine_ok.1 hab
        exact ⟨row, hrow⟩

theorem correctedSample_of_loadRow_ok {kr : Kernel} {w h x y : Nat} {src : Memory} {glut : Table 8} {row : List Int}
    (hr : loadRow kr w h src glut y = .ok row) (hx : x < w) (hy : y < h) :
    ∃ q, correctedSample src glut (y * w + x) = .ok q := by
  rw [loadRow, if_pos hy] at hr
  split at hr
  next px hpx =>
    obtain ⟨q, -, hq⟩ := collect_getElem? hpx (List.getElem?_range hx)
    exact ⟨q, hq⟩
  next => cases hr

/-- A scan that completes has read nothing unwritten. -/
theorem samplesWritten_of_diffuseImage_ok {kr : Kernel} {c : Scan} {w h : Nat} {src dst : Memory} {glut : Table 8}
    {r : Diffusing} (hr : diffuseImage kr c w h src glut dst = .ok r) : SamplesWritten src glut (w * h) := by
  have hread : ∀ k < w * h, ∃ v q, Memory.read src k = some v ∧ Table.get glut v.toNat = some q := by
    intro k hk
    obtain ⟨x, y, hx, hy, rfl⟩ := exists_pixel_of_lt hk
    obtain ⟨row, hrow⟩ := loadRow_of_diffuseImage_ok hr hy
    obtain ⟨q, hq⟩ := correctedSample_of_loadRow_ok hrow hx hy
    obtain ⟨v, b, hv, hb, -⟩ := correctedSample_ok.1 hq
    exact ⟨v, b, hv, hb⟩
  refine ⟨fun k hk => ?_, fun k hk v hv => ?_⟩
  · obtain ⟨v, -, hv, -⟩ := hread k hk
    exact Option.isSome_iff_exists.2 ⟨v, hv⟩
  · obtain ⟨v', q, hv', hq⟩ := hread k hk
    obtain rfl := Option.some.inj (hv.symm.trans hv')
    exact Option.isSome_iff_exists.2 ⟨q, hq⟩

/-- A fault of the row loader is that of a sample of the image. -/
theorem loadRow_error {kr : Kernel} {w h y : Nat} {src : Memory} {glut : Table 8} {e : Fault}
    (he : loadRow kr w h src glut y = .error e) : ∃ k < w * h, correctedSample src glut k = .error e := by
  unfold loadRow at he
  split_ifs at he with hy
  split at he
  next => cases he
  next f hf =>
    cases he
    obtain ⟨x, hx, hs⟩ := collect_error hf
    exact ⟨_, rowMajor_lt (List.mem_range.1 hx) hy, hs⟩

theorem diffuseImage_error {kr : Kernel} {c : Scan} {w h : Nat} {src dst : Memory} {glut : Table 8} {e : Fault}
    (he : diffuseImage kr c w h src glut dst = .error e) : ∃ k < w * h, correctedSample src glut k = .error e := by
  unfold diffuseImage at he
  split at he
  next rb _ =>
    obtain ⟨y, -, st, -, hline⟩ := forRange_error he
    unfold diffuseLine at hline
    split at hline
    next => cases hline
    next f hf =>
      cases hline
      exact loadRow_error hf
  next f hf =>
    cases he
    obtain ⟨y, -, hload⟩ := collect_error hf
    exact loadRow_error hload

/-- `DIFFUSE` with its samples written: the output on the plane below `N`, the old bytes from `N` on. -/
theorem exec_diffuse_written {m : Method} {c : Scan} {s : State} (hwf : s.params.wf = true) (hacc : accepts (.diffuse m c) s)
    (hw : SamplesWritten s.src s.glut (pixelCount s)) :
    ∃ r : Diffusing, exec (.diffuse m c) s = .next { s with rb := r.rb, dst := r.dst, status := doneStatus s } ∧
      (∀ x y, x < s.width.toNat → y < s.height.toNat →
        Memory.read r.dst (y * s.width.toNat + x) =
          some (fullDiffusion (statedTaps s.params m) c s.width.toNat s.height.toNat
            (correctedLevel s.src s.glut s.width.toNat) x y)) ∧
      AgreeFrom (pixelCount s) s.dst r.dst := by
  obtain ⟨hj, hc⟩ := hacc
  obtain ⟨r, hr, hfollows⟩ := diffuseImage_written (kernelOf_legal hwf m) (kernelOf_rows_pos _ m) hw c s.dst
  have hbody : bodyOf (.diffuse m c) (latchGeom s) s = .ok { s with rb := r.rb, dst := r.dst } :=
    diffuseBody_ok.2 ⟨r, hr, rfl⟩
  refine ⟨r, exec_of_body_ok hj hc hbody, fun x y hx hy => ?_, diffuseImage_agreeFrom hr⟩
  rw [fullDiffusion_eq]
  exact hfollows.output (x, y) (mem_scanOrder hx hy)

/-- `DIFFUSE` with a sample unwritten stops there (R259). -/
theorem exec_diffuse_unwritten {m : Method} {c : Scan} {s : State} (hacc : accepts (.diffuse m c) s)
    (hw : ¬SamplesWritten s.src s.glut (pixelCount s)) :
    ∃ k < pixelCount s, ∃ e, correctedSample s.src s.glut k = .error e ∧ exec (.diffuse m c) s = .fault e := by
  obtain ⟨hj, hc⟩ := hacc
  cases hr : diffuseImage (kernelOf s.params m) c s.width.toNat s.height.toNat s.src s.glut s.dst with
  | ok r => exact absurd (samplesWritten_of_diffuseImage_ok hr) hw
  | error e =>
    obtain ⟨k, hk, hs⟩ := diffuseImage_error hr
    have hbody : bodyOf (.diffuse m c) (latchGeom s) s = .error e := by
      change diffuseBody m c (latchGeom s) s = _
      simp only [diffuseBody, latchGeom, hr]
    exact ⟨k, hk, e, hs, exec_of_body_error hj hc hbody⟩

/-- Settles O56. -/
theorem diffuseEqualsFullImage : Obligations.DiffuseEqualsFullImage := by
  unfold Obligations.DiffuseEqualsFullImage
  intro m c s hwf hacc
  constructor
  · intro hready
    obtain ⟨r, hexec, houtput, hkept⟩ := exec_diffuse_written hwf hacc hready
    exact ⟨r.rb, r.dst, hexec, houtput, hkept⟩
  · intro hready
    obtain ⟨k, hk, e, hs, hexec⟩ := exec_diffuse_unwritten hacc hready
    rcases correctedSample_error hs with ⟨hnone, rfl⟩ | ⟨v, hv, hnone, rfl⟩
    · exact ⟨k, hk, .inl ⟨hnone, hexec⟩⟩
    · exact ⟨k, hk, .inr ⟨v, hv, hnone, hexec⟩⟩

end Sys2Proof.Machine
end

section
/-! The submissions that are rejected (60_exceptions R251, R252): an illegal word, and a command whose geometry is too large. -/

namespace Sys2Proof.Machine

/-- Settles O9: a word outside the list does not decode. -/
theorem illegalWordSetsErrIll : Obligations.IllegalWordSetsErrIll := by
  unfold Obligations.IllegalWordSetsErrIll
  intro s w rest hj hw ha
  have hillegal : ¬∃ i, decode w = .ok i := by rwa [exists_decode_iff, ← mem_legalWords_iff]
  rw [step_cmd hj ha, submitWord_illegal _ hillegal, runTurn_ok]
  rfl

/-- The command list of the `GEOM` check (R102). -/
theorem needsGeom_iff {i : Instr} : needsGeom i = true ↔ i ≠ .nop ∧ i ≠ .shape ∧ i ≠ .ivbuild ∧ i ≠ .gamma := by
  cases i <;> simp [needsGeom]

/-- The command list of the `REF` check (R102). -/
theorem needsRef_iff {i : Instr} : needsRef i = true ↔ i = .shape ∨ i = .matchx ∨ i = .matcha := by
  cases i <;> simp [needsRef]

theorem geomOk_eq_false_iff {p : Params} {g : Geom} :
    geomOk p g = false ↔ p.maxW < g.w ∨ p.maxH < g.h ∨ p.maxPix < g.n := by
  rw [← Bool.not_eq_true, geomOk_iff]
  omega

theorem refOk_eq_false_iff {p : Params} {g : Geom} : refOk p g = false ↔ p.maxPix < g.l := by
  rw [← Bool.not_eq_true, refOk_iff, Nat.not_le]

theorem checksOk_eq_false_iff {p : Params} {i : Instr} {g : Geom} : checksOk p i g = false ↔
    (needsGeom i = true ∧ geomOk p g = false) ∨ (needsRef i = true ∧ refOk p g = false) := by
  rw [← Bool.not_eq_true, checksOk_iff, Classical.not_and_iff_not_or_not, Classical.not_imp, Classical.not_imp, Bool.not_eq_true,
    Bool.not_eq_true]

/-- A legal word whose checks fail is rejected at once, whatever comes next (R100, R252). -/
theorem step_cmd_rejected {s : State} {w : Word} {i : Instr} {rest : List Event} (hj : s.job = none) (hd : decode w = .ok i)
    (ha : s.agenda = .host (.write .b32 0#32 w) :: rest) (hc : checksOk s.params i (latchGeom s) = false) :
    step s = .next (raiseError .geometry (clearDone { s with agenda := rest, replies := .ack :: s.replies })) := by
  cases hn : engineNext rest with
  | true => exact (step_cmd_run hj hd ha hn).trans (exec_idle_rejected hj hc)
  | false => exact (step_cmd_accept hj hd ha hn).trans (congrArg _ (accept_rejected hj hc))

/-- Settles O10. -/
theorem badGeometrySetsErrGeom : Obligations.BadGeometrySetsErrGeom := by
  unfold Obligations.BadGeometrySetsErrGeom
  intro s w i rest hj hd ha geometryBad referenceBad
  have hchecks : checksOk s.params i (latchGeom s) = false ↔ geometryBad ∨ referenceBad := by
    rw [checksOk_eq_false_iff, needsGeom_iff, needsRef_iff, geomOk_eq_false_iff, refOk_eq_false_iff, and_assoc, and_assoc,
      and_assoc]
    rfl
  rw [← hchecks, Bool.not_eq_false]
  exact ⟨step_cmd_rejected hj hd ha, accept_accepted hj⟩

end Sys2Proof.Machine
end

section
/-! The error bits (60_exceptions R255): every operation but a `STATUS` write and a reset keeps the ones that are set. -/

namespace Sys2Proof.Machine

/-- Each error bit set in `a` is set in `b`. -/
def KeepsErrors (a b : Status) : Prop :=
  (a.errIll = true → b.errIll = true) ∧ (a.errGeom = true → b.errGeom = true) ∧ (a.errBusywr = true → b.errBusywr = true)

theorem KeepsErrors.of_eq {a b : Status} (h : b = a) : KeepsErrors a b := h ▸ ⟨id, id, id⟩

theorem raiseError_keepsErrors (e : CmdError) (s : State) : KeepsErrors s.status (raiseError e s).status := by
  cases e <;> simp [KeepsErrors]

/-- The submission of a command (R100). -/
theorem accept_keepsErrors (i : Instr) (s : State) : KeepsErrors s.status (accept i s).status := by
  rcases accept_cases i s with ⟨_, -, ha⟩ | ⟨-, -, ha⟩ | ⟨-, -, ha⟩
  · exact .of_eq (congrArg _ ha)
  · rw [ha]
    exact ⟨id, id, id⟩
  · rw [ha]
    exact raiseError_keepsErrors .geometry (clearDone s)

theorem exec_keepsErrors {i : Instr} {s t : State} (h : exec i s = .next t) : KeepsErrors s.status t.status := by
  rcases exec_next h with ⟨-, -, rfl⟩ | ⟨g, u, hu, rfl, -, -⟩
  · exact raiseError_keepsErrors .geometry (clearDone s)
  · have hframe : u = _ := bodyOf_writesOnly i _ _ _ hu
    rw [hframe]
    exact ⟨id, id, id⟩

theorem engineTurn_keepsErrors {s t : State} (h : runTurn (engineTurn s) = .next t) : KeepsErrors s.status t.status := by
  cases hj : s.job with
  | none =>
    rw [engineTurn_idle hj, runTurn_ok] at h
    cases h
    exact .of_eq rfl
  | some j =>
    rw [engineTurn_latched hj, runTurn_run] at h
    exact exec_keepsErrors h

theorem submitWord_keepsErrors {w : Word} {s t : State} (h : runTurn (submitWord w s) = .next t) :
    KeepsErrors s.status t.status := by
  rcases submitWord_cases w s with ⟨_, -, hw⟩ | ⟨i, -, -, hw⟩ | ⟨i, -, -, hw⟩
  · rw [hw, runTurn_ok] at h
    cases h
    exact raiseError_keepsErrors .illegal (clearDone s)
  · rw [hw, runTurn_run] at h
    exact exec_keepsErrors h
  · rw [hw, runTurn_ok] at h
    cases h
    exact accept_keepsErrors i s

theorem writeReg_status {r : Reg} (hr : r ≠ .status) (v : Word) (s : State) : (writeReg r v s).status = s.status := by
  cases r with
  | status => exact absurd rfl hr
  | _ => rfl

/-- A write elsewhere than to `STATUS` keeps `STATUS`, or is dropped with `ERR_BUSYWR`. -/
theorem hostWrite_keepsErrors {width : Width} {off v : Word} {s : State} (ht : target s.params off ≠ .reg .status) :
    KeepsErrors s.status (hostWrite width off v s).status := by
  cases hj : s.job with
  | none =>
    refine .of_eq ?_
    cases htarget : target s.params off with
    | reg r =>
      have hr : r ≠ .status := by
        rintro rfl
        exact ht htarget
      rw [hostWrite_reg_idle width v hj htarget, writeReg_status hr]
    | table id i => rw [hostWrite_table_idle width v hj htarget, setTableWord_status]
    | plane q k => rw [hostWrite_plane_idle width v hj htarget, setPlane_status]
    | hole => simp [hostWrite, htarget]
  | some j =>
    by_cases hh : target s.params off = .hole
    · exact .of_eq (by simp [hostWrite, hh])
    · rw [hostWrite_busy width v hj ht hh]
      exact raiseError_keepsErrors .busyWrite s

theorem hostTurn_write_keepsErrors {width : Width} {off v : Word} {s t : State} (hoff : off ≠ regOffset .status)
    (h : runTurn (hostTurn (.write width off v) s) = .next t) : KeepsErrors s.status t.status := by
  cases hb : busCheck s.params width off with
  | some k =>
    rw [hostTurn_write_fault hb, runTurn_ok] at h
    cases h
    exact .of_eq rfl
  | none =>
    simp only [hostTurn, hb] at h
    split at h
    · exact submitWord_keepsErrors (s := answer .ack s) h
    · cases h
      exact hostWrite_keepsErrors fun ht => hoff (reg_access hb ht).2

/-- Settles O14, by the event that the step takes. -/
theorem errorBitsAreSticky : Obligations.ErrorBitsAreSticky := by
  unfold Obligations.ErrorBitsAreSticky
  intro s t hstep hreset hstatus
  change KeepsErrors s.status t.status
  cases ha : s.agenda with
  | nil =>
    rw [step_nil ha] at hstep
    exact engineTurn_keepsErrors hstep
  | cons e rest =>
    cases e with
    | host a =>
      rw [step_host ha] at hstep
      cases a with
      | read width off => exact .of_eq (hostTurn_read_status (s := { s with agenda := rest }) hstep)
      | write width off v =>
        refine hostTurn_write_keepsErrors (s := { s with agenda := rest }) (fun hoff => ?_) hstep
        subst hoff
        exact hstatus width v rest ha
    | engine =>
      rw [step_engine ha] at hstep
      exact engineTurn_keepsErrors (s := { s with agenda := rest }) hstep
    | reset => exact absurd ha (hreset rest)

end Sys2Proof.Machine
end

section
/-! Faults of the host's own accesses (60_exceptions R258, R259): a bus fault is an answer, the read of an unwritten place stops the
model. -/

namespace Sys2Proof.Machine

/-- Settles O27. -/
theorem busFaultChangesNothing : Obligations.BusFaultChangesNothing := by
  unfold Obligations.BusFaultChangesNothing
  intro s width off v k rest hk ha
  rcases ha with ha | ha
  · rw [step_host ha, hostTurn_read_fault (s := { s with agenda := rest }) hk, runTurn_ok]
    rfl
  · rw [step_host ha, hostTurn_write_fault (s := { s with agenda := rest }) hk, runTurn_ok]
    rfl

theorem step_read_fault {s : State} {width : Width} {off : Word} {rest : List Event} {e : Fault}
    (ha : s.agenda = .host (.read width off) :: rest) (hb : busCheck s.params width off = none)
    (hr : hostRead width off { s with agenda := rest } = .error e) : step s = .fault e := by
  rw [step_host ha]
  simp [hostTurn, hb, hr]

theorem hostRead_table_unwritten (width : Width) {off : Word} {s : State} {id : TableId} {i : Nat}
    (ht : target s.params off = .table id i) (hnone : tableWord id i s = none) :
    hostRead width off s = .error (.unwrittenRead (.table id i)) := by
  simp [hostRead, ht, hnone]

theorem hostRead_plane_unwritten {width : Width} {off : Word} {s : State} {q : PlaneId} {k : Nat} {e : Fault}
    (ht : target s.params off = .plane q k) (he : readPlaneWord q width (planeOf q s) k = .error e) :
    hostRead width off s = .error e := by
  simp [hostRead, ht, he]

theorem readPlaneWord_b8_unwritten (q : PlaneId) {m : Memory} {k : Nat} (h : Memory.read m k = none) :
    readPlaneWord q .b8 m k = .error (.unwrittenRead (.plane q k)) := by
  simp [readPlaneWord, readByte, h]

/-- A word is read from its lowest byte up, so it stops at the lowest unwritten one (log 8). -/
theorem readPlaneWord_b32_unwritten (q : PlaneId) {m : Memory} {k n : Nat} (hn : n < 4) (h : Memory.read m (k + n) = none)
    (hbelow : ∀ n' < n, (Memory.read m (k + n')).isSome = true) :
    readPlaneWord q .b32 m k = .error (.unwrittenRead (.plane q (k + n))) := by
  have hsplit : [k, k + 1, k + 2, k + 3] = List.range' k n ++ (k + n) :: List.range' (k + n + 1) (3 - n) := by
    interval_cases n <;> rfl
  have hwritten : ∀ j ∈ List.range' k n, ∃ b, readByte q m j = .ok b := by
    intro j hj
    obtain ⟨n', hn', rfl⟩ := List.mem_range'.1 hj
    obtain ⟨b, hb⟩ := Option.isSome_iff_exists.1 (hbelow n' hn')
    exact ⟨b, readByte_ok.2 (by rwa [one_mul])⟩
  rw [readPlaneWord, hsplit, collect_stops hwritten (readByte_error.2 ⟨h, rfl⟩)]
  simp

theorem step_readPlane_unwritten {s : State} {width : Width} {q : PlaneId} {k : Nat} {e : Fault} {rest : List Event}
    (hwf : s.params.wf = true) (hk : k < s.params.maxPix)
    (hb : busCheck s.params width (BitVec.ofNat 32 (planeBase q + k)) = none)
    (he : readPlaneWord q width (planeOf q s) k = .error e)
    (ha : s.agenda = .host (.read width (BitVec.ofNat 32 (planeBase q + k))) :: rest) : step s = .fault e := by
  rw [← planeOf_hostSide q rest s.replies s] at he
  exact step_read_fault ha hb (hostRead_plane_unwritten (target_planeOffset hwf q hk) he)

/-- Settles O33. -/
theorem unwrittenHostReadFaults : Obligations.UnwrittenHostReadFaults := by
  unfold Obligations.UnwrittenHostReadFaults
  intro s rest hwf
  refine ⟨fun id i hi hnone ha => ?_, fun q k hk hnone ha => ?_, fun q k n halign hfit hn hnone hbelow ha => ?_⟩
  · rw [← tableWord_hostSide id i rest s.replies s] at hnone
    exact step_read_fault ha (busCheck_entryOffset _ id hi)
      (hostRead_table_unwritten .b32 (target_entryOffset _ id hi) hnone)
  · exact step_readPlane_unwritten hwf hk (busCheck_planeOffset_b8 hwf q hk) (readPlaneWord_b8_unwritten q hnone) ha
  · exact step_readPlane_unwritten hwf (by omega) (busCheck_planeOffset_b32 hwf q halign hfit)
      (readPlaneWord_b32_unwritten q hn hnone hbelow) ha

end Sys2Proof.Machine
end

section
/-! What an accepted command can stop at (60_exceptions R250, R259): each body goes on with every written place still written, or
stops at a place that was unwritten before it, and so does a sequence of bodies. -/

namespace Sys2Proof.Machine

/-- The written mark of a place is false (R30). -/
def Unwritten (s : State) : Loc → Prop
  | .table id i => tableWord id i s = none
  | .plane q k => Memory.read (planeOf q s) k = none

/-- Every place written in `s` is written in `t`. -/
def KeepsWritten (s t : State) : Prop := ∀ l, Unwritten t l → Unwritten s l

/-- A body whose one way to stop is the fault of a place that is unwritten before it. -/
def StopsOnlyOnUnwritten (b : Geom → State → Except Fault State) : Prop :=
  ∀ g s, (∃ t, b g s = .ok t ∧ KeepsWritten s t) ∨ ∃ l, b g s = .error (.unwrittenRead l) ∧ Unwritten s l

/-- The places unwritten before the second body were unwritten before the first. -/
theorem StopsOnlyOnUnwritten.andThen {a b : Geom → State → Except Fault State} (ha : StopsOnlyOnUnwritten a)
    (hb : StopsOnlyOnUnwritten b) : StopsOnlyOnUnwritten (andThen a b) := by
  intro g s
  rcases ha g s with ⟨u, hu, hsu⟩ | ⟨l, hl, hunwritten⟩
  · rcases hb g u with ⟨t, ht, hut⟩ | ⟨l, hl, hunwritten⟩
    · exact .inl ⟨t, andThen_ok.2 ⟨u, hu, ht⟩, fun l h => hsu l (hut l h)⟩
    · exact .inr ⟨l, by simp only [Machine.andThen, hu, hl], hsu l hunwritten⟩
  · exact .inr ⟨l, by simp only [Machine.andThen, hl], hunwritten⟩

theorem tableWord_of_ge (id : TableId) {i : Nat} (h : 256 ≤ i) (s : State) : tableWord id i s = none := by
  cases id <;> simp [tableWord, Table.get_of_ge _ h]

/-- A body keeps what is written if it does so in the 256 entries of each table and in `DST`. -/
theorem keepsWritten_of {s t : State} (hsrc : t.src = s.src) (href : t.ref = s.ref)
    (hdst : ∀ k, Memory.read t.dst k = none → Memory.read s.dst k = none)
    (htable : ∀ id, ∀ i < 256, tableWord id i t = none → tableWord id i s = none) : KeepsWritten s t := by
  intro l h
  cases l with
  | table id i =>
    rcases Nat.lt_or_ge i 256 with hi | hi
    · exact htable id i hi h
    · exact tableWord_of_ge id hi s
  | plane q k =>
    cases q with
    | src => exact (congrArg (Memory.read · k) hsrc).symm.trans h
    | dst => exact hdst k h
    | ref => exact (congrArg (Memory.read · k) href).symm.trans h

theorem exists_first_unwritten {m : Memory} {n : Nat} (h : ¬bytesWritten m n) :
    ∃ k < n, bytesWritten m k ∧ Memory.read m k = none := by
  simp only [bytesWritten, not_forall, exists_prop] at h
  obtain ⟨hlt, hnone⟩ := Nat.find_spec h
  refine ⟨Nat.find h, hlt, fun j hj => ?_, Option.not_isSome_iff_eq_none.1 hnone⟩
  by_contra hj'
  exact Nat.find_min h hj ⟨hj.trans hlt, hj'⟩

theorem nopBody_stops : StopsOnlyOnUnwritten nopBody := fun _ s => .inl ⟨s, rfl, fun _ h => h⟩

theorem histBody_stops : StopsOnlyOnUnwritten histBody := by
  intro g s
  by_cases hw : bytesWritten s.src g.n
  · refine .inl ⟨_, histBody_written hw, keepsWritten_of rfl rfl (fun _ h => h) fun id i hi h => ?_⟩
    cases id with
    | h1 => simp [tableWord, countTable, Table.get_ofFun _ hi] at h
    | _ => exact h
  · obtain ⟨k, hk, hbefore, hnone⟩ := exists_first_unwritten hw
    exact .inr ⟨.plane .src k, histBody_unwritten hk hbefore hnone, hnone⟩

theorem shapeBody_stops : StopsOnlyOnUnwritten shapeBody := by
  intro g s
  by_cases hw : bytesWritten s.ref (min g.l 256)
  · refine .inl ⟨_, shapeBody_written hw, keepsWritten_of rfl rfl (fun _ h => h) fun id i hi h => ?_⟩
    cases id with
    | shape => simp [tableWord, Table.get_ofFun _ hi] at h
    | _ => exact h
  · obtain ⟨k, hk, hbefore, hnone⟩ := exists_first_unwritten hw
    exact .inr ⟨.plane .ref k, shapeBody_unwritten hk hbefore hnone, hnone⟩

theorem rescaleBody_stops (pol : Policy) : StopsOnlyOnUnwritten (rescaleBody pol) := by
  intro g s
  by_cases hw : entriesWritten s.shape
  · refine .inl ⟨_, rescaleBody_written pol g hw, keepsWritten_of rfl rfl (fun _ h => h) fun id i hi h => ?_⟩
    cases id with
    | tgt => simp [tableWord, Table.get_ofFun _ hi] at h
    | _ => exact h
  · obtain ⟨k, -, hnone, hf⟩ := rescaleBody_unwritten pol g hw
    exact .inr ⟨.table .shape k, hf, hnone⟩

theorem ivbuildBody_stops : StopsOnlyOnUnwritten ivbuildBody := by
  intro g s
  by_cases hw : entriesWritten s.h1 ∧ testedBinsWritten s.h1 s.tgt
  · refine .inl ⟨_, (ivbuildBody_ok_iff g).2 ⟨hw, rfl⟩, keepsWritten_of rfl rfl (fun _ h => h) fun id i hi h => ?_⟩
    cases id with
    | left => simp [tableWord, withIntervals, Table.get_ofFun _ hi] at h
    | right => simp [tableWord, withIntervals, Table.get_ofFun _ hi] at h
    | _ => exact h
  · obtain ⟨k, -, ⟨hnone, hf⟩ | ⟨hnone, hf⟩⟩ := ivbuildBody_unwritten g hw
    · exact .inr ⟨.table .h1 k, hf, hnone⟩
    · exact .inr ⟨.table .tgt k, hf, hnone⟩

theorem cdflutBody_stops : StopsOnlyOnUnwritten cdflutBody := by
  intro g s
  by_cases hw : entriesWritten s.h1 ∧ entriesWritten s.tgt
  · refine .inl ⟨_, (cdflutBody_ok_iff g).2 ⟨hw, rfl⟩, keepsWritten_of rfl rfl (fun _ h => h) fun id i hi h => ?_⟩
    cases id with
    | lut => simp [tableWord, withNearestLevels, Table.get_ofFun _ hi] at h
    | _ => exact h
  · obtain ⟨k, -, ⟨hnone, hf⟩ | ⟨hnone, hf⟩⟩ := cdflutBody_unwritten g hw
    · exact .inr ⟨.table .h1 k, hf, hnone⟩
    · exact .inr ⟨.table .tgt k, hf, hnone⟩

theorem gammaBody_stops : StopsOnlyOnUnwritten gammaBody := by
  intro g s
  refine .inl ⟨_, gammaBody_ok.2 rfl, keepsWritten_of rfl rfl (fun _ h => h) fun id i hi h => ?_⟩
  cases id with
  | glut => simp [tableWord, gammaTable, Table.get_ofFun _ hi] at h
  | _ => exact h

theorem lutapplyBody_stops : StopsOnlyOnUnwritten lutapplyBody := by
  intro g s
  by_cases hw : bytesWritten s.src g.n ∧ levelsWritten s.src g.n s.lut
  · obtain ⟨hsrc, hlut⟩ := hw
    obtain ⟨d, hd, hbelow⟩ := lutapplyBody_written hsrc hlut
    refine .inl ⟨_, hd, keepsWritten_of rfl rfl (fun k h => ?_) fun id _ _ h => by cases id <;> exact h⟩
    have hread := (hbelow.dst k).symm.trans h
    split_ifs at hread
    exact hread
  · obtain ⟨k, -, ⟨hnone, hf⟩ | ⟨v, -, hnone, hf⟩⟩ := lutapplyBody_unwritten hw
    · exact .inr ⟨.plane .src k, hf, hnone⟩
    · exact .inr ⟨.table .lut v.toNat, hf, by simp [Unwritten, tableWord, hnone]⟩

/-- The scan of `DIFFUSE` writes every byte below `N`. -/
theorem diffuseImage_keepsWritten {kr : Kernel} {c : Scan} {w h k : Nat} {src dst : Memory} {glut : Table 8} {r : Diffusing}
    (hr : diffuseImage kr c w h src glut dst = .ok r) (hk : Memory.read r.dst k = none) : Memory.read dst k = none := by
  rcases Nat.lt_or_ge k (w * h) with hlt | hge
  · obtain ⟨x, y, hx, hy, rfl⟩ := exists_pixel_of_lt hlt
    rcases diffuseImage_bilevel hr (x, y) (mem_scanOrder hx hy) with hb | hb <;> cases hk.symm.trans hb
  · exact (diffuseImage_agreeFrom hr k hge).symm.trans hk

theorem diffuseBody_stops (m : Method) (c : Scan) : StopsOnlyOnUnwritten (diffuseBody m c) := by
  intro g s
  cases hr : diffuseImage (kernelOf s.params m) c g.w g.h s.src s.glut s.dst with
  | ok r =>
    exact .inl ⟨_, diffuseBody_ok.2 ⟨r, hr, rfl⟩,
      keepsWritten_of rfl rfl (fun _ => diffuseImage_keepsWritten hr) fun id _ _ h => by cases id <;> exact h⟩
  | error e =>
    have hf : diffuseBody m c g s = .error e := by simp only [diffuseBody, hr]
    obtain ⟨k, -, hs⟩ := diffuseImage_error hr
    rcases correctedSample_error hs with ⟨hnone, rfl⟩ | ⟨v, -, hnone, rfl⟩
    · exact .inr ⟨.plane .src k, hf, hnone⟩
    · exact .inr ⟨.table .glut v.toNat, hf, by simp [Unwritten, tableWord, hnone]⟩

/-- What the scan of `XREMAP` keeps written, whatever the tables hold: all of `CNT`, and `LEFT` and `DST` where they were. -/
structure RemapKeepsWritten (s : State) (st : Remap) : Prop where
  cnt : entriesWritten st.cnt
  left : ∀ i, Table.get st.left i = none → Table.get s.left i = none
  dst : ∀ k, Memory.read st.dst k = none → Memory.read s.dst k = none

theorem get_put_eq_none {w : Nat} {t : Table w} {i j : Nat} {v : BitVec w} (h : Table.get (Table.put t i v) j = none) :
    Table.get t j = none := by
  rw [Table.get_put] at h
  split_ifs at h
  exact h

theorem RemapKeepsWritten.emit {s : State} {st st' : Remap} {k : Nat} {p : Byte} (hst : RemapKeepsWritten s st)
    (h : emitBin k p st = .ok st') : RemapKeepsWritten s st' := by
  obtain ⟨c, -, rfl⟩ := emitBin_ok.1 h
  refine ⟨fun i hi => ?_, hst.left, fun j hj => hst.dst j ?_⟩
  · rw [Option.isSome_iff_ne_none]
    exact fun hnone => Option.isSome_iff_ne_none.1 (hst.cnt i hi) (get_put_eq_none hnone)
  · rw [Memory.read_write] at hj
    split_ifs at hj
    exact hj

theorem RemapKeepsWritten.pixel {s : State} {src : Memory} {tgt : Table 32} {right : Table 8} {st st' : Remap} {k : Nat}
    (hst : RemapKeepsWritten s st) (h : remapPixel src tgt right st k = .ok st') : RemapKeepsWritten s st' := by
  obtain ⟨v, p, -, -, -, -, -, -, ⟨-, he⟩ | ⟨-, q, -, he⟩⟩ := remapPixel_ok.1 h
  · exact hst.emit he
  · have hmoved : RemapKeepsWritten s { st with left := Table.put st.left v.toNat (nextBin p q) } :=
      ⟨hst.cnt, fun i hi => hst.left i (get_put_eq_none hi), hst.dst⟩
    exact hmoved.emit he

theorem remapKeepsWritten_of_ok {s : State} {n : Nat} {st : Remap}
    (h : remap s.src s.tgt s.right n (remapStart s) = .ok st) : RemapKeepsWritten s st :=
  forRange_invariant (fun _ => RemapKeepsWritten s) ⟨entriesWritten_ofFun _, fun _ h => h, fun _ h => h⟩
    (fun _ _ _ _ ha hab => ha.pixel hab) h

theorem xremapBody_stops : StopsOnlyOnUnwritten xremapBody := by
  intro g s
  cases hb : xremapBody g s with
  | ok t =>
    obtain ⟨st, hst, rfl⟩ := xremapBody_remap.1 hb
    have hkept := remapKeepsWritten_of_ok hst
    refine .inl ⟨_, rfl, keepsWritten_of rfl rfl hkept.dst fun id i hi h => ?_⟩
    cases id with
    | left => exact Option.map_eq_none_iff.2 (hkept.left i (Option.map_eq_none_iff.1 h))
    | cnt => exact absurd h (Option.isSome_iff_ne_none.1 (hkept.cnt i hi))
    | _ => exact h
  | error e =>
    obtain ⟨k, -, st, hst, he⟩ := forRange_error (xremapBody_error hb)
    have hkept := remapKeepsWritten_of_ok hst
    rcases remapPixel_error hkept.cnt he with
      ⟨hsrc, rfl⟩ | ⟨v, -, ⟨hleft, rfl⟩ | ⟨p, -, ⟨htgt, rfl⟩ | ⟨hright, rfl⟩⟩⟩
    · exact .inr ⟨.plane .src k, rfl, hsrc⟩
    · exact .inr ⟨.table .left v.toNat, rfl, Option.map_eq_none_iff.2 (hkept.left _ hleft)⟩
    · exact .inr ⟨.table .tgt p.toNat, rfl, htgt⟩
    · exact .inr ⟨.table .right v.toNat, rfl, Option.map_eq_none_iff.2 hright⟩

theorem bodyOf_stops (i : Instr) : StopsOnlyOnUnwritten (bodyOf i) := by
  cases i with
  | nop => exact nopBody_stops
  | hist => exact histBody_stops
  | shape => exact shapeBody_stops
  | rescale pol => exact rescaleBody_stops pol
  | ivbuild => exact ivbuildBody_stops
  | xremap => exact xremapBody_stops
  | cdflut => exact cdflutBody_stops
  | lutapply => exact lutapplyBody_stops
  | gamma => exact gammaBody_stops
  | diffuse m c => exact diffuseBody_stops m c
  | matchx =>
    exact histBody_stops.andThen <| shapeBody_stops.andThen <| (rescaleBody_stops .last).andThen <|
      ivbuildBody_stops.andThen xremapBody_stops
  | matcha =>
    exact histBody_stops.andThen <| shapeBody_stops.andThen <| (rescaleBody_stops .lastNonzero).andThen <|
      cdflutBody_stops.andThen lutapplyBody_stops
  | dither m c => exact gammaBody_stops.andThen (diffuseBody_stops m c)

/-- Settles O60. -/
theorem onlyUnwrittenReadsStopACommand : Obligations.OnlyUnwrittenReadsStopACommand := by
  unfold Obligations.OnlyUnwrittenReadsStopACommand
  intro i s hacc
  obtain ⟨hj, hc⟩ := hacc
  rcases bodyOf_stops i (latchGeom s) s with ⟨u, hu, -⟩ | ⟨l, hl, hunwritten⟩
  · exact .inl ⟨_, exec_of_body_ok hj hc hu, rfl⟩
  · have hf := exec_of_body_error hj hc hl
    cases l with
    | table id k => exact .inr (.inl ⟨id, k, hf, hunwritten⟩)
    | plane q k => exact .inr (.inr ⟨q, k, hf, hunwritten⟩)

end Sys2Proof.Machine
end

section
/-! What a submission from an idle block and the reset input leave (70_reset_and_hazards R280, R291; 10_state R44). -/

namespace Sys2Proof.Machine

/-- Settles O15, by the two ways in which a command from an idle block answers a next state. -/
theorem doneTellsSuccessFromRejection : Obligations.DoneTellsSuccessFromRejection := by
  unfold Obligations.DoneTellsSuccessFromRejection
  intro i s t hj h
  have hdone : t.status.done = true ↔ accepts i s :=
    ⟨fun ht => (exec_done h ht).2 hj, fun hacc => (exec_accepted_next hacc h).2⟩
  rcases exec_next h with ⟨-, -, rfl⟩ | ⟨_, _, -, rfl, -, -⟩
  · exact ⟨hj, hdone, fun _ => rfl⟩
  · exact ⟨rfl, hdone, fun hnot => by cases hnot⟩

theorem tableWord_assertReset (id : TableId) (i : Nat) (s : State) : tableWord id i (assertReset s) = none := by
  cases id <;> simp [tableWord, State.resetWith, Table.get_blank]

theorem read_planeOf_assertReset (q : PlaneId) (k : Nat) (s : State) : Memory.read (planeOf q (assertReset s)) k = none := by
  cases q <;> rfl

theorem statusWord_assertReset (s : State) : statusWord (assertReset s) = 0 := by
  simp [statusWord, busy, State.resetWith]

theorem gammaPair_assertReset (s : State) : gammaPair (assertReset s) = 0x3FF0000000000000#64 := by
  have hpair : gammaPair (assertReset s) = 0x3FF00000#32 ++ 0x00000000#32 := rfl
  exact hpair.trans (by decide)

/-- Settles O17. -/
theorem resetAbandonsAndClears : Obligations.ResetAbandonsAndClears := by
  unfold Obligations.ResetAbandonsAndClears
  intro s rest ha
  exact ⟨_, step_reset ha, rfl, statusWord_assertReset _, rfl, rfl, rfl, gammaPair_assertReset _,
    fun id i => tableWord_assertReset id i _, fun q k => read_planeOf_assertReset q k _, rfl, rfl⟩

end Sys2Proof.Machine
end

section
/-! What `HIST`, `RESCALE`, `XREMAP` and `LUTAPPLY` see of the geometry (70_reset_and_hazards R287): their bodies take `N` from the
latched geometry and do not read the registers. -/

namespace Sys2Proof.Machine

/-- The state with other `WIDTH` and `HEIGHT`. -/
def withSize (w h : Word) (s : State) : State := { s with width := w, height := h }

/-- A body that depends on the geometry through `N` only. -/
def SeesOnlyPixelCount (b : Geom → State → Except Fault State) : Prop :=
  ∀ (g g' : Geom) (s : State) (w h : Word), g'.n = g.n → b g' (withSize w h s) = (b g s).map (withSize w h)

theorem histBody_seesPixelCount : SeesOnlyPixelCount histBody := by
  intro g g' s w h hn
  simp only [histBody, withSize, hn]
  cases histogram s.src g.n <;> rfl

theorem rescaleBody_seesPixelCount (pol : Policy) : SeesOnlyPixelCount (rescaleBody pol) := by
  intro g g' s w h hn
  simp only [rescaleBody, withSize, hn]
  cases readTable .shape s.shape <;> rfl

theorem xremapBody_seesPixelCount : SeesOnlyPixelCount xremapBody := by
  intro g g' s w h hn
  simp only [xremapBody, withSize, hn]
  cases remap s.src s.tgt s.right g.n { left := s.left, cnt := Table.ofFun fun _ => 0, dst := s.dst } <;> rfl

theorem lutapplyBody_seesPixelCount : SeesOnlyPixelCount lutapplyBody := by
  intro g g' s w h hn
  simp only [lutapplyBody, withSize, hn]
  cases forRange (applyPixel s.src s.lut) (List.range g.n) s.dst <;> rfl

theorem conclude_map_withSize (w h : Word) (o : Except Fault State) :
    conclude (o.map (withSize w h)) = mapNext (withSize w h) (conclude o) := by
  cases o <;> rfl

/-- Two accepted geometries with the same `N` give such a command the same outcome. -/
theorem exec_withSize {i : Instr} {s : State} {w h : Word} (hb : SeesOnlyPixelCount (bodyOf i)) (hacc : accepts i s)
    (hacc' : accepts i (withSize w h s)) (hn : w.toNat * h.toNat = pixelCount s) :
    exec i (withSize w h s) = mapNext (withSize w h) (exec i s) := by
  obtain ⟨hj, hc⟩ := hacc
  obtain ⟨hj', hc'⟩ := hacc'
  rw [exec_idle hj hc, exec_idle hj' hc', ← conclude_map_withSize]
  exact congrArg conclude (hb (latchGeom s) (latchGeom (withSize w h s)) s w h hn)

/-- Settles O23. -/
theorem matchersSeeOnlyThePixelCount : Obligations.MatchersSeeOnlyThePixelCount := by
  unfold Obligations.MatchersSeeOnlyThePixelCount
  intro i s w h hi hacc hacc' hn
  have hbody : SeesOnlyPixelCount (bodyOf i) := by
    rcases hi with rfl | ⟨pol, rfl⟩ | rfl | rfl
    · exact histBody_seesPixelCount
    · exact rescaleBody_seesPixelCount pol
    · exact xremapBody_seesPixelCount
    · exact lutapplyBody_seesPixelCount
  exact exec_withSize hbody hacc hacc' hn

end Sys2Proof.Machine
end

section
/-! Completion (70_reset_and_hazards R282, 40_control R104): a body whose reads are written runs to its end, for every choice of the
parameters, and each component of a composite writes what the ones after it read. -/

namespace Sys2Proof.Machine

theorem levelsWritten_of_entries {w : Nat} {t : Table w} (h : entriesWritten t) (m : Memory) (n : Nat) : levelsWritten m n t :=
  fun _ _ v _ => h v.toNat v.isLt

theorem andThen_completes {a b : Geom → State → Except Fault State} {g : Geom} {s u : State} (ha : a g s = .ok u)
    (hb : ∃ t, b g u = .ok t) : ∃ t, andThen a b g s = .ok t := by
  obtain ⟨t, ht⟩ := hb
  exact ⟨t, andThen_ok.2 ⟨u, ha, ht⟩⟩

/-- The bins that R140 tests are among those of `TGT`. -/
theorem ivbuildBody_written (g : Geom) {s : State} (hh1 : entriesWritten s.h1) (htgt : entriesWritten s.tgt) :
    ivbuildBody g s = .ok (withIntervals s) :=
  (ivbuildBody_ok_iff g).2 ⟨⟨hh1, fun _ hr => htgt _ (Nat.lt_succ_of_le (hr.trans (crossing_le _ _ _)))⟩, rfl⟩

theorem cdflutBody_written (g : Geom) {s : State} (hh1 : entriesWritten s.h1) (htgt : entriesWritten s.tgt) :
    cdflutBody g s = .ok (withNearestLevels s) := (cdflutBody_ok_iff g).2 ⟨⟨hh1, htgt⟩, rfl⟩

/-- The scan of R142 unwrites nothing, so a pixel finds written what was written before the scan. -/
theorem RemapKeepsWritten.pixel_completes {s : State} {st : Remap} {k : Nat} (hst : RemapKeepsWritten s st)
    (hready : ready .xremap s) (hk : k < pixelCount s) : ∃ st', remapPixel s.src s.tgt s.right st k = .ok st' := by
  obtain ⟨hsrc, hleft, hright, htgt⟩ := hready
  cases hr : remapPixel s.src s.tgt s.right st k with
  | ok st' => exact ⟨st', rfl⟩
  | error e =>
    exfalso
    rcases remapPixel_error hst.cnt hr with
      ⟨hnone, -⟩ | ⟨v, hv, ⟨hnone, -⟩ | ⟨p, -, ⟨hnone, -⟩ | ⟨hnone, -⟩⟩⟩
    · exact Option.isSome_iff_ne_none.1 (hsrc k hk) hnone
    · exact Option.isSome_iff_ne_none.1 (hleft k hk v hv) (hst.left _ hnone)
    · exact Option.isSome_iff_ne_none.1 (htgt p.toNat p.isLt) hnone
    · exact Option.isSome_iff_ne_none.1 (hright k hk v hv) hnone

theorem xremapBody_completes {s : State} (h : ready .xremap s) : ∃ t, xremapBody (latchGeom s) s = .ok t := by
  obtain ⟨st, hst, -⟩ := forRange_succeeds (f := remapPixel s.src s.tgt s.right) (n := pixelCount s) (st := remapStart s)
    (fun _ => RemapKeepsWritten s) ⟨entriesWritten_ofFun _, fun _ h => h, fun _ h => h⟩ fun k hk a ha => by
      obtain ⟨b, hb⟩ := ha.pixel_completes h hk
      exact ⟨b, hb, ha.pixel hb⟩
  exact ⟨_, xremapBody_remap.2 ⟨st, hst, rfl⟩⟩

theorem lutapplyBody_completes {s : State} (h : ready .lutapply s) : ∃ t, lutapplyBody (latchGeom s) s = .ok t := by
  obtain ⟨hsrc, hlut⟩ := h
  obtain ⟨d, hd, -⟩ := lutapplyBody_written (g := latchGeom s) hsrc hlut
  exact ⟨_, hd⟩

/-- A fault of the scan would be that of a sample, whatever the kernel. -/
theorem diffuseBody_completes {m : Method} {c : Scan} {s : State} (h : ready (.diffuse m c) s) :
    ∃ t, diffuseBody m c (latchGeom s) s = .ok t := by
  obtain ⟨hsrc, hglut⟩ := h
  cases hr : diffuseImage (kernelOf s.params m) c (latchGeom s).w (latchGeom s).h s.src s.glut s.dst with
  | ok r => exact ⟨_, diffuseBody_ok.2 ⟨r, hr, rfl⟩⟩
  | error e =>
    exfalso
    obtain ⟨k, hk, hs⟩ := diffuseImage_error hr
    rcases correctedSample_error hs with ⟨hnone, -⟩ | ⟨v, hv, hnone, -⟩
    · exact Option.isSome_iff_ne_none.1 (hsrc k hk) hnone
    · exact Option.isSome_iff_ne_none.1 (hglut k hk v hv) hnone

/-- The first three components of `MATCHX` and `MATCHA` write all of `H1` and `TGT`, and keep the rest of what is read after them. -/
theorem targetStages_complete {rest : Geom → State → Except Fault State} {s : State} (hsrc : bytesWritten s.src (pixelCount s))
    (href : bytesWritten s.ref (min s.reflen.toNat 256)) (pol : Policy)
    (hrest : ∀ u, latchGeom u = latchGeom s → bytesWritten u.src (pixelCount u) → entriesWritten u.h1 → entriesWritten u.tgt →
      ∃ t, rest (latchGeom s) u = .ok t) :
    ∃ t, andThen histBody (andThen shapeBody (andThen (rescaleBody pol) rest)) (latchGeom s) s = .ok t :=
  andThen_completes (histBody_written hsrc) <| andThen_completes (shapeBody_written href) <|
    andThen_completes (rescaleBody_written pol _ (entriesWritten_ofFun _)) <|
      hrest _ rfl hsrc (entriesWritten_ofFun _) (entriesWritten_ofFun _)

theorem matchxBody_completes {s : State} (h : ready .matchx s) : ∃ t, matchxBody (latchGeom s) s = .ok t := by
  obtain ⟨hsrc, href⟩ := h
  refine targetStages_complete hsrc href .last fun u hgeom husrc hh1 htgt => ?_
  refine andThen_completes (ivbuildBody_written _ hh1 htgt) ?_
  have hready : ready .xremap (withIntervals u) :=
    ⟨husrc, levelsWritten_of_entries (entriesWritten_ofFun _) _ _,
      levelsWritten_of_entries (entriesWritten_ofFun _) _ _, htgt⟩
  exact hgeom ▸ xremapBody_completes hready

theorem matchaBody_completes {s : State} (h : ready .matcha s) : ∃ t, matchaBody (latchGeom s) s = .ok t := by
  obtain ⟨hsrc, href⟩ := h
  refine targetStages_complete hsrc href .lastNonzero fun u hgeom husrc hh1 htgt => ?_
  refine andThen_completes (cdflutBody_written _ hh1 htgt) ?_
  have hready : ready .lutapply (withNearestLevels u) :=
    ⟨husrc, levelsWritten_of_entries (entriesWritten_ofFun _) _ _⟩
  exact hgeom ▸ lutapplyBody_completes hready

theorem ditherBody_completes {m : Method} {c : Scan} {s : State} (h : ready (.dither m c) s) :
    ∃ t, ditherBody m c (latchGeom s) s = .ok t :=
  andThen_completes (gammaBody_ok.2 rfl)
    (diffuseBody_completes (s := { s with glut := gammaTable s.params (effGamma (gammaPair s)) })
      ⟨h, levelsWritten_of_entries (entriesWritten_ofFun _) _ _⟩)

theorem bodyOf_completes {i : Instr} {s : State} (h : ready i s) : ∃ t, bodyOf i (latchGeom s) s = .ok t := by
  cases i with
  | nop => exact ⟨_, rfl⟩
  | hist => exact ⟨_, histBody_written h⟩
  | shape => exact ⟨_, shapeBody_written h⟩
  | rescale pol => exact ⟨_, rescaleBody_written pol _ h⟩
  | ivbuild =>
    obtain ⟨hh1, htgt⟩ := h
    exact ⟨_, ivbuildBody_written (latchGeom s) hh1 htgt⟩
  | xremap => exact xremapBody_completes h
  | cdflut =>
    obtain ⟨hh1, htgt⟩ := h
    exact ⟨_, cdflutBody_written (latchGeom s) hh1 htgt⟩
  | lutapply => exact lutapplyBody_completes h
  | gamma => exact ⟨_, (gammaBody_ok (g := latchGeom s)).2 rfl⟩
  | diffuse m c => exact diffuseBody_completes h
  | matchx => exact matchxBody_completes h
  | matcha => exact matchaBody_completes h
  | dither m c => exact ditherBody_completes h

/-- Settles O59: the body of a ready command runs to its end, and no body writes more than tables, `DST` and the buffer. -/
theorem readyCommandsComplete : Obligations.ReadyCommandsComplete := by
  unfold Obligations.ReadyCommandsComplete
  intro i s hacc hready
  obtain ⟨hj, hc⟩ := hacc
  obtain ⟨u, hu⟩ := bodyOf_completes hready
  have hexec := exec_of_body_ok hj hc hu
  obtain ⟨hidle, -⟩ := exec_accepted_next ⟨hj, hc⟩ hexec
  have hframe : u = _ := bodyOf_writesOnly i _ _ _ hu
  exact ⟨_, hexec, hidle, rfl, congrArg (fun t : State => { t with status := doneStatus s }) hframe⟩

end Sys2Proof.Machine
end
